-- ==== Sys2Proof/Word.lean ====
section
/-! DEFINITION. The word of the machine: one 64-bit register or limb (00_scope.md R7, R8), the limb radix, and the one
narrowing from exact integers into a word (R11). -/

namespace Sys2Proof

/-- A 64-bit register or limb (R7, R8). -/
abbrev Word := BitVec 64

/-- One byte lane of a 64-bit access (20_memory.md R61). -/
abbrev Byte := BitVec 8

/-- β = 2^64, the radix of a limb sequence (R7). -/
def radix : Nat := 2 ^ 64

/-- The store of an exact integer into a 64-bit limb or register: `v mod 2^64` (R11). -/
def Word.ofNat (v : Nat) : Word := BitVec.ofNat 64 v

end Sys2Proof
end

