-- ==== Sys2Proof/Syntax.lean ====
section
/-! DEFINITION. Syntax: the ten commands of spec/opcode_table.json (30_encoding.md R82, R83, R92), what the fields of a command
word name, and the host's transactions (20_memory.md R60, 30_encoding.md R93, 60_exceptions.md R227). -/

namespace Sys2Proof

/-- The commands, one constructor per row of the opcode table. No command has an operand field (R87). -/
inductive Instr where
  /-- DIV, R100 -/
  | div
  /-- EST3X2, R120 -/
  | est3x2
  /-- F2U64.TRY, R143 -/
  | f2u64Try
  /-- F2U64.SAT, R143 -/
  | f2u64Sat
  /-- F2U64.WRAP, R143 -/
  | f2u64Wrap
  /-- F2U32.TRY, R144 -/
  | f2u32Try
  /-- F2U32.SAT, R144 -/
  | f2u32Sat
  /-- F2U32.WRAP, R144 -/
  | f2u32Wrap
  /-- U2F64, R175 -/
  | u2f64
  /-- U2F32, R176 -/
  | u2f32
  deriving DecidableEq, Repr

/-- The opcodes OPC names (R82). -/
inductive Opcode where
  | div | est3x2 | f2u64 | f2u32 | u2f64 | u2f32
  deriving DecidableEq, Repr

/-- The conversion policies POL names (R83). -/
inductive Policy where
  /-- fallible -/
  | try_
  /-- saturating -/
  | sat
  /-- wrapping -/
  | wrap
  deriving DecidableEq, Repr

/-- Why a CMD value is no command word (R86), in the order the decoder tests. -/
inductive Illegal where
  /-- a bit of 63:32 is set (R81) -/
  | upperHalf
  /-- a bit of 31:10 is set (R85) -/
  | reserved
  /-- OPC is none of the six (R82) -/
  | opcode
  /-- POL is not one the opcode admits (R83, R84) -/
  | policy
  deriving DecidableEq, Repr

/-- One transaction of the host's program, or one move of the platform on the block's reset input. `addr` is a host address:
BASE plus the offset (R60). -/
inductive HostOp where
  /-- `rd`: a read of `size` bytes (R60, R93) -/
  | rd (addr size : Nat)
  /-- `wr`: a write of the given bytes, byte lane 0 first; only the 8-byte form is legal (R60, R61, R93) -/
  | wr (addr : Nat) (bytes : List Byte)
  /-- `wait`: read STATUS again until its BUSY bit is 0 (R93) -/
  | wait
  /-- wait until IRQ is 1 (60_exceptions.md R227, row "wait") -/
  | waitIrq
  /-- assert the reset input (70_reset_and_hazards.md R230) -/
  | assertReset
  /-- release the reset input (R230) -/
  | releaseReset
  deriving DecidableEq, Repr

end Sys2Proof
end

