-- ==== Sys2Proof/WellFormed.lean ====
section
/-! DEFINITION. Well-formedness. A term of `Instr` has no operand to be ill-formed (30_encoding.md R87); what can be ill-formed is
the 64-bit value a host writes to CMD (R81-R85) or a host transaction (20_memory.md R60). The four checks on a CMD value are
written here by integer arithmetic, apart from the decoder, so that the two can be held against each other. -/

namespace Sys2Proof

/-- Every term of `Instr` is well formed: no command has an operand field (R87). -/
def WellFormed (_ : Instr) : Bool := true

/-- Bits 63:32 are 0 (R81). -/
def upperZero (v : Word) : Bool := v.toNat / 2 ^ 32 == 0

/-- Bits 31:10 are 0 (R85). -/
def reservedZero (v : Word) : Bool := v.toNat / 2 ^ 10 % 2 ^ 22 == 0

/-- Bits 7:0 are an opcode of the map (R82). -/
def opcodeAssigned (v : Word) : Bool := [0x01, 0x02, 0x10, 0x11, 0x20, 0x21].contains (v.toNat % 2 ^ 8)

/-- Bits 9:8 are 0, 1 or 2 for the two float-to-fixed opcodes and 0 for every other (R83, R84). -/
def policyAdmitted (v : Word) : Bool :=
  let pol := v.toNat / 2 ^ 8 % 2 ^ 2
  if [0x10, 0x11].contains (v.toNat % 2 ^ 8) then pol != 3 else pol == 0

/-- A CMD value is well formed when it passes the four checks (R86). -/
def wellFormedCmd (v : Word) : Bool :=
  upperZero v && reservedZero v && opcodeAssigned v && policyAdmitted v

/-- A transaction with a legal size and alignment (20_memory.md R60); the map of the window is the port's own check. -/
def HostOp.wellFormed : HostOp → Bool
  | .rd addr size => size == 8 && addr % 8 == 0
  | .wr addr bytes => bytes.length == 8 && addr % 8 == 0
  | .wait => true
  | .waitIrq => true
  | .assertReset => true
  | .releaseReset => true

end Sys2Proof
end

