-- ==== Sys2Proof/Decode.lean ====
section
/-! DEFINITION. Decoding a CMD value (30_encoding.md R80-R86), total on all 64-bit values and rejecting by name, and the
encoder of the ten command words (R92). -/

namespace Sys2Proof

/-- v[63:32], which must be 0 (R81). -/
def cmdUpper (v : Word) : BitVec 32 := v.extractLsb' 32 32

/-- v[31:10], reserved, which must be 0 (R85). -/
def cmdReserved (v : Word) : BitVec 22 := v.extractLsb' 10 22

/-- v[9:8], POL (R80). -/
def cmdPol (v : Word) : BitVec 2 := v.extractLsb' 8 2

/-- v[7:0], OPC (R80). -/
def cmdOpc (v : Word) : BitVec 8 := v.extractLsb' 0 8

/-- The opcode map (R82): none for every value the map gives no command. -/
def opcodeOf (opc : BitVec 8) : Option Opcode :=
  if opc = 0x01 then some .div
  else if opc = 0x02 then some .est3x2
  else if opc = 0x10 then some .f2u64
  else if opc = 0x11 then some .f2u32
  else if opc = 0x20 then some .u2f64
  else if opc = 0x21 then some .u2f32
  else none

/-- The policy map (R83): none for POL = 3. -/
def policyOf (pol : BitVec 2) : Option Policy :=
  if pol = 0 then some .try_
  else if pol = 1 then some .sat
  else if pol = 2 then some .wrap
  else none

/-- Decode the 64-bit value written to CMD, in the order of R86. -/
def decode (v : Word) : Except Illegal Instr :=
  if cmdUpper v ≠ 0 then .error .upperHalf
  else if cmdReserved v ≠ 0 then .error .reserved
  else
    match opcodeOf (cmdOpc v) with
    | none => .error .opcode
    | some opc =>
      match policyOf (cmdPol v) with
      | none => .error .policy
      | some pol =>
        match opc, pol with
        | .div, .try_ => .ok .div
        | .est3x2, .try_ => .ok .est3x2
        | .u2f64, .try_ => .ok .u2f64
        | .u2f32, .try_ => .ok .u2f32
        | .f2u64, .try_ => .ok .f2u64Try
        | .f2u64, .sat => .ok .f2u64Sat
        | .f2u64, .wrap => .ok .f2u64Wrap
        | .f2u32, .try_ => .ok .f2u32Try
        | .f2u32, .sat => .ok .f2u32Sat
        | .f2u32, .wrap => .ok .f2u32Wrap
        | _, _ => .error .policy

/-- The opcode of a command (R82). -/
def Instr.opcode : Instr → Opcode
  | .div => .div
  | .est3x2 => .est3x2
  | .f2u64Try | .f2u64Sat | .f2u64Wrap => .f2u64
  | .f2u32Try | .f2u32Sat | .f2u32Wrap => .f2u32
  | .u2f64 => .u2f64
  | .u2f32 => .u2f32

/-- The policy of a command; POL is 0 for the commands that have none (R83, R84). -/
def Instr.policy : Instr → Policy
  | .f2u64Sat | .f2u32Sat => .sat
  | .f2u64Wrap | .f2u32Wrap => .wrap
  | .div | .est3x2 | .f2u64Try | .f2u32Try | .u2f64 | .u2f32 => .try_

/-- OPC of an opcode (R82). -/
def opcodeBits : Opcode → BitVec 8
  | .div => 0x01
  | .est3x2 => 0x02
  | .f2u64 => 0x10
  | .f2u32 => 0x11
  | .u2f64 => 0x20
  | .u2f32 => 0x21

/-- POL of a policy (R83). -/
def policyBits : Policy → BitVec 2
  | .try_ => 0
  | .sat => 1
  | .wrap => 2

/-- The 32-bit command word: reserved 31:10, POL 9:8, OPC 7:0 (R80). -/
def encodeWord (i : Instr) : BitVec 32 :=
  (0 : BitVec 22) ++ policyBits i.policy ++ opcodeBits i.opcode

/-- The value a host writes to CMD to issue a command (R81, R92). -/
def encode (i : Instr) : Word := (encodeWord i).setWidth 64

/-- The command the decoder reads from an instruction whose low `nbits` bits are `w` and whose other bits are 0, the bits
numbered as the opcode table numbers them. The command word is bits 31:0 of one 64-bit write (R80), so no byte is moved. -/
def decodeTableWord (nbits w : Nat) : Option Instr :=
  match decode (Word.ofNat (w % 2 ^ nbits)) with
  | .ok i => some i
  | .error _ => none

end Sys2Proof
end

