-- ==== Sys2Proof/Config.lean ====
section
/-! DEFINITION. What the platform fixes and what the spec leaves free: the parameters LMAX and BASE (00_scope.md R8) and the
any-value reads of the busy period (70_reset_and_hazards.md R240). Nothing here has a value a proof could use. -/

namespace Sys2Proof

/-- The parameters a model takes as an argument (R8). Legal by construction: LMAX is 4 to 8192 and BASE is a multiple of
0x40000. They are carried, as plain data that no step changes, in the state (log entry 1). -/
structure Params where
  /-- LMAX less 4. -/
  lmaxLess4 : Fin 8189
  /-- BASE divided by 0x40000. -/
  window : Nat
  deriving DecidableEq, Repr, Inhabited

/-- LMAX, the number of limbs of each operand buffer (R8; D4). -/
def Params.lmax (p : Params) : Nat := p.lmaxLess4.val + 4

/-- The size of the register window in bytes (10_state.md R22). -/
abbrev windowBytes : Nat := 0x40000

/-- BASE, the host address of offset 0 of the window (R8; D5). -/
def Params.base (p : Params) : Nat := windowBytes * p.window

namespace Config

/-- DESIGN CHOICE (log entry 1), safe: the parameters `State.reset` has. No body: nothing can be proved of the values but that
they are legal. -/
opaque params : Params

/-- The data of the n-th any-value read (R240: "any 64-bit value. A model draws it freely on each read"; log entry 7), safe.
No body: a statement about a draw holds for every value. -/
opaque busyRead : Nat → Word

end Config

end Sys2Proof
end

