-- ==== Sys2Proof/Machine/State.lean ====
section
/-! DEFINITION. The state of the block and of its port as plain data (10_state.md R20-R45), the reasons a step can stop, and the
state right after reset (R44, 70_reset_and_hazards.md R230-R233). -/

namespace Sys2Proof.Machine

/-- The outcome codes of STATUS.ERR (60_exceptions.md R201). Codes 0x07 to 0xFF are never written (10_state.md R26). -/
inductive ErrCode where
  /-- 0x00 -/
  | none
  /-- 0x01, raised by DIV (R202) -/
  | divByZero
  /-- 0x02, raised by every command (R203) -/
  | precond
  /-- 0x03, raised by F2U64.TRY and F2U32.TRY (R205) -/
  | valueTooLarge
  /-- 0x04, raised by F2U64.TRY and F2U32.TRY (R206) -/
  | valueNegative
  /-- 0x05, raised by F2U64.TRY and F2U32.TRY (R207) -/
  | notANumber
  /-- 0x06, raised by a CMD value that is no command word (R204) -/
  | illegal
  deriving DecidableEq, Repr

/-- The fields of STATUS (10_state.md R24); its reserved bits read 0 (R38). -/
structure Status where
  /-- bit 0: a command is in flight -/
  busy : Bool
  /-- bit 1: a command has completed and has not been acknowledged -/
  done : Bool
  /-- bit 2, sticky: a host write was dropped because BUSY was 1 -/
  werr : Bool
  /-- bits 15:8: the outcome code of the last completed command -/
  err : ErrCode
  deriving DecidableEq, Repr

/-- The written limbs of an operand buffer as (index, limb) pairs, indexes strictly rising (R30, R31). A limb that is not listed
is unwritten and has no value (70_reset_and_hazards.md R232; log entry 2). -/
abbrev Limbs := List (Nat × Word)

/-- The two operand buffers, physically distinct storage (R43). -/
inductive Buffer where
  | a | b
  deriving DecidableEq, Repr

/-- S of INFLIGHT: the operands at the issue (R40). -/
structure Operands where
  nlen : BitVec 16
  dlen : BitVec 16
  bits : BitVec 32
  fin : Word
  a : Limbs
  b : Limbs
  deriving DecidableEq, Repr

/-- INFLIGHT when it is not `none`: the value written to CMD and the operands at that moment (R40). -/
structure InFlight where
  word : Word
  operands : Operands
  deriving DecidableEq, Repr

/-- The agents that take steps (00_scope.md R3). -/
inductive Agent where
  | host | block
  deriving DecidableEq, Repr

/-- The registers and limbs of the window's map (R22). -/
inductive Reg where
  | cap | ctrl | status | cmd | nlen | dlen | bits | fin | fres | deff | ewidth | est
  | limb (buf : Buffer) (i : Nat)
  deriving DecidableEq, Repr

/-- The whole machine. The register fields hold the architected bits alone: reserved bits have no storage (R38). -/
structure State where
  /-- LMAX and BASE (00_scope.md R8), which no step changes; CAP reads LMAX from here (R23; log entry 1) -/
  params : Params
  /-- the level of the reset input (70_reset_and_hazards.md R230; log entry 10) -/
  rst : Bool
  /-- CTRL.IE (R25) -/
  ie : Bool
  /-- STATUS (R24) -/
  status : Status
  /-- NLEN (R28) -/
  nlen : BitVec 16
  /-- DLEN (R29) -/
  dlen : BitVec 16
  /-- BITS (R32) -/
  bits : BitVec 32
  /-- FIN (R33) -/
  fin : Word
  /-- FRES (R34) -/
  fres : Word
  /-- DEFF (R35) -/
  deff : BitVec 16
  /-- EWIDTH (R36) -/
  ewidth : BitVec 32
  /-- EST (R37) -/
  est : Word
  /-- operand buffer A (R30) -/
  a : Limbs
  /-- operand buffer B (R31) -/
  b : Limbs
  /-- INFLIGHT (R40) -/
  inflight : Option InFlight
  /-- the host's transactions still to be performed, first one first (R21, 30_encoding.md R93) -/
  hostOps : List HostOp
  /-- the model's own: who moves at each of the next steps of a busy period; when it has run out the block moves
  (20_memory.md R67, 70_reset_and_hazards.md R244, R245; log entry 3) -/
  turns : List Agent
  /-- the model's own: the data the port returned for the last read, byte lane 0 first (20_memory.md R60, R61; log entry 16) -/
  rdata : Option (List Byte)
  /-- the model's own: the number of any-value reads so far (70_reset_and_hazards.md R240; log entry 7) -/
  draws : Nat
  deriving DecidableEq, Repr

/-- The internal bounds of Algorithm D whose violation is a defect (60_exceptions.md R209). -/
inductive Defect where
  /-- the window's top two limbs exceed the divisor's (40_division.md R117 item 1) -/
  | estimatorPrecondition
  /-- the window's top limb is not 0 after the step (R117 item 5: "borrow sign mismatches") -/
  | borrowMismatch
  /-- the window is not below the divisor after the step (R117 items 2 and 5: "digit estimate out of range") -/
  | digitOutOfRange
  deriving DecidableEq, Repr

/-- Why a step stops. Outcome codes of commands are not here: no command stops the block (60_exceptions.md R200). -/
inductive Fault where
  /-- Raised by a host access inside the window that is not legal: a size other than 8, a misaligned offset, or an offset the map
  gives nothing (20_memory.md R62, which tells a model to treat it as a fault). Safe: no state changes on the hardware. -/
  | busError (addr size : Nat)
  /-- Raised by a host access to an address the block does not decode (R65; log entry 6). Safe. -/
  | outsideWindow (addr : Nat)
  /-- Raised by a host read of an unwritten limb while BUSY = 0, and by the completion of a command that reads one
  (70_reset_and_hazards.md R232, which tells a model to fault). Safe. -/
  | unwrittenLimb (buf : Buffer) (i : Nat)
  /-- Raised by DIV when an internal bound is broken (60_exceptions.md R209, which tells a model to fault). Safe; never reached
  (40_division.md R114, R117). -/
  | internalDefect (d : Defect)
  deriving DecidableEq, Repr

/-- Why an instruction has no meaning here. -/
inductive Refusal where
  /-- Raised by an arm of `exec` whose instruction has no meaning yet; no arm raises it. Safe. -/
  | notModelled (mnemonic : String)
  deriving DecidableEq, Repr

/-- An IEEE-754 format (41_float_to_fixed.md R141): the widths of the fraction and exponent fields, bias and emax. -/
structure Format where
  fracBits : Nat
  expBits : Nat
  bias : Nat
  emax : Nat
  deriving DecidableEq, Repr

/-- The value classes of a pattern (41_float_to_fixed.md R142). -/
inductive FloatClass where
  | nan | infinity | zero | subnormal | normal
  deriving DecidableEq, Repr

/-- The kinds of an inbound conversion's outcome (41_float_to_fixed.md R146). -/
inductive Kind where
  | ok | valueTooLarge | valueNegative | notANumber
  deriving DecidableEq, Repr

/-- What an inbound conversion leaves once its policy has been applied (41_float_to_fixed.md R155-R157): the value for A[0..L-1],
EWIDTH and the code. -/
structure Projected where
  value : Nat
  ewidth : Nat
  code : ErrCode
  deriving DecidableEq, Repr

/-- The outcome of one step. -/
abbrev Result := Host.Outcome State Fault Refusal

/-- STATUS after reset: 0 (R44). -/
def Status.reset : Status where
  busy := false
  done := false
  werr := false
  err := .none

/-- The machine right after reset with given parameters (R44, R230): every register 0, the buffers unwritten, INFLIGHT none. The
fields that are the model's own start empty (log entries 3, 4, 7, 10, 16). -/
def State.resetWith (p : Params) : State where
  params := p
  rst := false
  ie := false
  status := .reset
  nlen := 0
  dlen := 0
  bits := 0
  fin := 0
  fres := 0
  deff := 0
  ewidth := 0
  est := 0
  a := []
  b := []
  inflight := none
  hostOps := []
  turns := []
  rdata := none
  draws := 0

/-- The machine right after reset. LMAX and BASE are OPEN (00_scope.md R8): they are the platform's (log entry 1). -/
def State.reset : State := State.resetWith Config.params

end Sys2Proof.Machine
end

