-- ==== Sys2Proof/Machine/Flags.lean ====
section
/-! DEFINITION. STATUS: its layout and every event that changes it (10_state.md R24), the outcome codes (60_exceptions.md R201), and
the interrupt output (R41). -/

namespace Sys2Proof.Machine

/-- The code of an outcome (60_exceptions.md R201). -/
def ErrCode.toNat : ErrCode → Nat
  | .none => 0x00
  | .divByZero => 0x01
  | .precond => 0x02
  | .valueTooLarge => 0x03
  | .valueNegative => 0x04
  | .notANumber => 0x05
  | .illegal => 0x06

/-- A one-bit field as a number. -/
def bit (b : Bool) : Nat := if b then 1 else 0

/-- STATUS as the host reads it: ERR 15:8, WERR 2, DONE 1, BUSY 0, reserved bits 0 (10_state.md R24, R38). -/
def Status.toWord (st : Status) : Word :=
  Word.ofNat (st.err.toNat * 0x100 + bit st.werr * 0x4 + bit st.done * 0x2 + bit st.busy)

/-- Issue: BUSY <- 1, DONE <- 0, ERR <- 0; WERR unchanged (R24). -/
def Status.issued (st : Status) : Status := { st with busy := true, done := false, err := .none }

/-- Completion, `finish(code)`: ERR <- code, BUSY <- 0, DONE <- 1 (R24). -/
def Status.finished (st : Status) (code : ErrCode) : Status :=
  { st with busy := false, done := true, err := code }

/-- Host write of v: DONE <- DONE ∧ ¬v[1], WERR <- WERR ∧ ¬v[2]; every other bit of v is ignored (R24, R38). -/
def Status.acknowledged (st : Status) (v : Word) : Status :=
  { st with done := st.done && !v.getLsbD 1, werr := st.werr && !v.getLsbD 2 }

/-- Dropped write: WERR <- 1 (R24, 70_reset_and_hazards.md R241). -/
def Status.dropped (st : Status) : Status := { st with werr := true }

/-- The output IRQ = CTRL.IE ∧ STATUS.DONE (R41, 60_exceptions.md R215). -/
def State.irq (s : State) : Bool := s.ie && s.status.done

end Sys2Proof.Machine
end

