-- ==== Sys2Proof/Machine/Ops.lean ====
section
/-! DEFINITION. The named operations over the buffers and the registers, and the shared end of every command. The block takes no
traps (60_exceptions.md R200, R217): what stands in the place of taking an exception is `State.finish`, which records the outcome
code, and in the place of a return the host's acknowledgement, `State.acknowledge` (R218). -/

namespace Sys2Proof.Machine

/-- Limb i, or nothing where it is unwritten (70_reset_and_hazards.md R232). -/
def Limbs.read : Limbs → Nat → Option Word
  | [], _ => none
  | (j, w) :: l, i => if i = j then some w else Limbs.read l i

/-- Store limb i; the form stays strictly rising. A limb becomes written when a store hits it (R232). -/
def Limbs.write : Limbs → Nat → Word → Limbs
  | [], i, v => [(i, v)]
  | (j, w) :: l, i, v =>
    if i < j then (i, v) :: (j, w) :: l
    else if i = j then (i, v) :: l
    else (j, w) :: Limbs.write l i v

/-- Store a run of limbs from index i on, least significant first. -/
def Limbs.writeFrom : Limbs → Nat → List Word → Limbs
  | l, _, [] => l
  | l, i, v :: vs => Limbs.writeFrom (Limbs.write l i v) (i + 1) vs

/-- The k limbs from index i on, least significant first, or the index of the first unwritten one. -/
def Limbs.readFrom (l : Limbs) : Nat → Nat → Except Nat (List Word)
  | _, 0 => .ok []
  | i, k + 1 =>
    match Limbs.read l i with
    | none => .error i
    | some v =>
      match Limbs.readFrom l (i + 1) k with
      | .error j => .error j
      | .ok vs => .ok (v :: vs)

/-- The canonical form of a buffer of n limbs: indexes strictly rising and below n. -/
abbrev Limbs.wf (l : Limbs) (n : Nat) : Prop :=
  l.Pairwise (fun c d => c.1 < d.1) ∧ ∀ c ∈ l, c.1 < n

/-- LMAX (00_scope.md R8). -/
def State.lmax (s : State) : Nat := s.params.lmax

/-- BASE (00_scope.md R8). -/
def State.base (s : State) : Nat := s.params.base

/-- The operand registers and buffers as they stand. -/
def State.live (s : State) : Operands where
  nlen := s.nlen
  dlen := s.dlen
  bits := s.bits
  fin := s.fin
  a := s.a
  b := s.b

/-- `finish(code)` and the end of the command in flight (00_scope.md R13, 10_state.md R24, R42). -/
def State.finish (s : State) (code : ErrCode) : State :=
  { s with status := s.status.finished code, inflight := none }

/-- The host's acknowledgement: a write of v to STATUS (10_state.md R24, 60_exceptions.md R218). -/
def State.acknowledge (s : State) (v : Word) : State :=
  { s with status := s.status.acknowledged v }

/-- A command issue: INFLIGHT <- (v, snapshot) and STATUS as R24 says (10_state.md R27, R40). -/
def State.issue (s : State) (v : Word) : State :=
  { s with status := s.status.issued, inflight := some { word := v, operands := s.live } }

/-- A host write dropped because BUSY was 1 (70_reset_and_hazards.md R241). -/
def State.drop (s : State) : State := { s with status := s.status.dropped }

/-- A[0..k-1] <- the k exact limb values given, each stored mod 2^64 (00_scope.md R11; k limbs, log entry 22). -/
def State.writeA (s : State) (vs : List Nat) : State :=
  { s with a := Limbs.writeFrom s.a 0 (vs.map Word.ofNat) }

/-- B[0..k-1] <- the k exact limb values given (k limbs, log entry 22). -/
def State.writeB (s : State) (vs : List Nat) : State :=
  { s with b := Limbs.writeFrom s.b 0 (vs.map Word.ofNat) }

/-- Buffer limb `buf[i]` <- v. -/
def State.setLimb (s : State) (buf : Buffer) (i : Nat) (v : Word) : State :=
  match buf with
  | .a => { s with a := Limbs.write s.a i v }
  | .b => { s with b := Limbs.write s.b i v }

/-- The limbs of a buffer. -/
def State.buffer (s : State) : Buffer → Limbs
  | .a => s.a
  | .b => s.b

/-- DEFF <- m (10_state.md R35). -/
def State.setDeff (s : State) (m : Nat) : State := { s with deff := BitVec.ofNat 16 m }

/-- EWIDTH <- w (10_state.md R36). -/
def State.setEwidth (s : State) (w : Nat) : State := { s with ewidth := BitVec.ofNat 32 w }

/-- FRES <- the pattern (10_state.md R34); a pattern below 2^32 leaves bits 63:32 zero. -/
def State.setFres (s : State) (pattern : Nat) : State := { s with fres := Word.ofNat pattern }

/-- EST <- q (10_state.md R37). -/
def State.setEst (s : State) (q : Nat) : State := { s with est := Word.ofNat q }

/-- Byte lane k of a 64-bit access: bits 8k+7 to 8k (20_memory.md R61). -/
def byteLane (v : Word) (k : Nat) : Byte := v.extractLsb' (8 * k) 8

/-- The eight byte lanes of a 64-bit access, lane 0 first (R61). -/
def byteLanes (v : Word) : List Byte := (List.range 8).map (byteLane v)

/-- The data word whose byte lane k is the k-th byte of the list (R61). -/
def ofByteLanes (bytes : List Byte) : Word :=
  Word.ofNat (bytes.foldr (fun x acc => x.toNat + 0x100 * acc) 0)

/-- The port returns v for a read, on its byte lanes (20_memory.md R60, R61). -/
def State.reply (s : State) (v : Word) : State := { s with rdata := some (byteLanes v) }

/-- An any-value read: the port returns a fresh free value (70_reset_and_hazards.md R240; log entry 7). -/
def State.drawReply (s : State) : State :=
  { s with rdata := some (byteLanes (Config.busyRead s.draws)), draws := s.draws + 1 }

/-- The port returns no data: the block ignores the access (70_reset_and_hazards.md R230; log entry 10). -/
def State.noReply (s : State) : State := { s with rdata := none }

/-- The host's program after its first transaction. -/
def State.setHostOps (s : State) (ops : List HostOp) : State := { s with hostOps := ops }

/-- The turns still to be taken. -/
def State.setTurns (s : State) (ts : List Agent) : State := { s with turns := ts }

/-- The reset event (70_reset_and_hazards.md R230, R231): every register at its value of R44, every limb unwritten, the command in
flight abandoned. The parameters and what belongs to the host and to the model's own bookkeeping stay (log entry 11). -/
def State.assertReset (s : State) : State :=
  { State.resetWith s.params with
    rst := true, hostOps := s.hostOps, turns := s.turns, rdata := s.rdata, draws := s.draws }

/-- The reset input is released. -/
def State.releaseReset (s : State) : State := { s with rst := false }

end Sys2Proof.Machine
end

