-- ==== Sys2Proof/Machine/Operands.lean ====
section
/-! DEFINITION. The implicit operands of the commands (30_encoding.md R87, 20_memory.md R72): where a completion takes them from
(10_state.md R40, R42), the reads of buffer limbs, which fault on an unwritten limb (70_reset_and_hazards.md R232), and the
limb-sequence notation of 00_scope.md R12. -/

namespace Sys2Proof.Machine

/-- The operands a completion computes from: those of INFLIGHT alone (R42). With no command in flight no completion is enabled; the
live registers then stand in (log entry 14). -/
def State.operands (s : State) : Operands :=
  match s.inflight with
  | some f => f.operands
  | none => s.live

/-- Read k limbs of a buffer from index i on, as exact values, and go on with them; an unwritten one faults (R232). -/
def withLimbs (buf : Buffer) (l : Limbs) (i k : Nat) (go : List Nat → Result) : Result :=
  match Limbs.readFrom l i k with
  | .error j => .fault (.unwrittenLimb buf j)
  | .ok vs => go (vs.map BitVec.toNat)

/-- Read one limb of a buffer as an exact value and go on with it; an unwritten one faults (R232). -/
def withLimb (buf : Buffer) (l : Limbs) (i : Nat) (go : Nat → Result) : Result :=
  match Limbs.read l i with
  | none => .fault (.unwrittenLimb buf i)
  | some v => go v.toNat

/-- `val`: the value of a limb sequence, least significant first (00_scope.md R12). -/
def limbsVal : List Nat → Nat
  | [] => 0
  | x :: xs => x + radix * limbsVal xs

/-- `limbs_k(v)`: the k limbs of v mod 2^(64·k), least significant first (R12). -/
def toLimbs : Nat → Nat → List Nat
  | 0, _ => []
  | k + 1, v => v % radix :: toLimbs k (v / radix)

/-- `bitlen(v)`: the index of the highest set bit plus 1, or 0 (R12). -/
def bitLen (v : Nat) : Nat := if v = 0 then 0 else Nat.log2 v + 1

/-- `clz64(v)` for a limb v (R12). -/
def clz64 (v : Nat) : Nat := 64 - bitLen v

/-- L = ceil(BITS/64), the limbs of a fixed-width operand (R8). -/
def limbCount (width : Nat) : Nat := (width + 63) / 64

/-- v[hi:lo] of an exact value (R10). -/
def bitsOf (v hi lo : Nat) : Nat := v / 2 ^ lo % 2 ^ (hi - lo + 1)

end Sys2Proof.Machine
end

