-- ==== Sys2Proof/Machine/Division.lean ====
section
/-! DEFINITION. The division engine (40_division.md): the 3-by-2 quotient-digit estimator, the single-limb path, Algorithm D, and
the meanings of DIV and EST3X2. All arithmetic is on exact integers (00_scope.md R11); a limb sequence is a list, least
significant limb first. -/

namespace Sys2Proof.Machine

/-- `(a - b) mod β`, the wraparound subtraction (00_scope.md R11). -/
def wrapSub (a b : Nat) : Nat := (a + radix - b % radix) % radix

/-- `div2x1(u, d)` (R107). -/
def div2x1 (u d : Nat) : Nat × Nat := (u / d, u % d)

/-- The estimator's precondition (R106): a normalized divisor and a window whose top two limbs are at most the divisor. -/
abbrev EstPre (n2 n1 d1 d0 : Nat) : Prop := 2 ^ 63 ≤ d1 ∧ n2 * radix + n1 ≤ d1 * radix + d0

/-- The 3-by-2 quotient-digit estimator (R106): the special branch where the top limbs are equal, else a 2-by-1 division and a
correction pass of at most two decrements. -/
def est3x2 (n2 n1 n0 d1 d0 : Nat) : Nat :=
  if n2 = d1 then
    let neg : Int := (d0 * radix : Nat) - (n1 * radix + n0 : Nat)
    if neg ≤ (d1 * radix + d0 : Nat) then radix - 1 else radix - 2
  else
    let (q, r) := div2x1 (n2 * radix + n1) d1
    if q * d0 > r * radix + n0 then
      let q := q - 1
      let r := r + d1
      if r < radix ∧ q * d0 > r * radix + n0 then q - 1 else q
    else q

/-- `submul(a, b, q, c)`: multiply-subtract-with-borrow on one limb (R108). -/
def submul (a b q c : Nat) : Nat × Nat :=
  let p := q * b + c
  let lo := p % radix
  let hi := p / radix
  (wrapSub a lo, hi + if a < lo then 1 else 0)

/-- The loop of `multiply_and_subtract` over the window's low limbs and the divisor's limbs, from borrow c on (R108): the new limbs
and the borrow out. -/
def mulSub (q : Nat) : List Nat → List Nat → Nat → List Nat × Nat
  | a :: as, b :: bs, c =>
    let (t, c') := submul a b q c
    let (ts, c'') := mulSub q as bs c'
    (t :: ts, c'')
  | _, _, c => ([], c)

/-- `adc(a, b, c)` (R109). -/
def adc (a b c : Nat) : Nat × Nat := ((a + b + c) % radix, (a + b + c) / radix)

/-- The loop of `add_back` over the window's low limbs (R109): the new limbs and the carry out. -/
def addBack : List Nat → List Nat → Nat → List Nat × Nat
  | a :: as, b :: bs, c =>
    let (t, c') := adc a b c
    let (ts, c'') := addBack as bs c'
    (t :: ts, c'')
  | _, _, c => ([], c)

/-- The multiply-and-subtract of trial digit q from a window of m+1 limbs, and the add-back where it underflowed (R108, R109): the
digit, the window's low m limbs and its top limb. -/
def subtractDigit (dv window : List Nat) (q : Nat) : Nat × List Nat × Nat :=
  let m := dv.length
  let top := window.getD m 0
  let (low, c) := mulSub q (window.take m) dv 0
  let top' := wrapSub top c
  if top < c then
    let (low', c') := addBack low dv 0
    (q - 1, low', (top' + c') % radix)
  else (q, low, top')

/-- One digit position (R105 to R110), m ≥ 2: from the window A[j..j+m] the quotient digit, which goes to the freed top limb, and
the window's low m limbs. The bounds of R117 that the spec calls defects when broken end in a fault (60_exceptions.md R209). -/
def digitStep (dv window : List Nat) : Except Defect (Nat × List Nat) :=
  let m := dv.length
  let dh := dv.getD (m - 1) 0
  let dl := dv.getD (m - 2) 0
  let n2 := window.getD m 0
  let n1 := window.getD (m - 1) 0
  let n0 := window.getD (m - 2) 0
  if EstPre n2 n1 dh dl then
    let (q, low, top) := subtractDigit dv window (est3x2 n2 n1 n0 dh dl)
    if top ≠ 0 then .error .borrowMismatch
    else if limbsVal dv ≤ limbsVal low then .error .digitOutOfRange
    else .ok (q, low)
  else .error .estimatorPrecondition

/-- The per-digit loop (R105). `rest` is A[j], A[j-1], ..., A[0]; `rem` is A[j+1..j+m], the low limbs the step above left (its top
limb was freed for the digit); `qs` is the quotient digits found so far, A[j+m+1..n-1]. -/
def digitLoop (dv : List Nat) : List Nat → List Nat → List Nat → Except Defect (List Nat × List Nat)
  | [], rem, qs => .ok (rem, qs)
  | a :: rest, rem, qs =>
    match digitStep dv (a :: rem) with
    | .error d => .error d
    | .ok (q, rem') => digitLoop dv rest rem' (q :: qs)

/-- The multi-limb path (R104 to R111) on the numerator limbs A[0..n-1] and the divisor limbs B[0..m-1], m ≥ 2: the final A[0..n-1]
(the remainder below the quotient) and the final B[0..m-1] (the remainder). -/
def divideMulti (as bs : List Nat) : Except Defect (List Nat × List Nat) :=
  let n := as.length
  let m := bs.length
  let s := clz64 (bs.getD (m - 1) 0)
  let dn := toLimbs m (limbsVal bs * 2 ^ s)
  let nn := toLimbs n (limbsVal as * 2 ^ s)
  match digitLoop dn (nn.take (n - m)).reverse (nn.drop (n - m)) [] with
  | .error d => .error d
  | .ok (rem, qs) =>
    let r := toLimbs m (limbsVal rem / 2 ^ s)
    .ok (r ++ qs, r)

/-- The single-limb path's loop (R103) over A[i], A[i-1], ..., A[0] with remainder r; `qs` is the quotient limbs found so far. -/
def divideSingle (d : Nat) : List Nat → Nat → List Nat → List Nat × Nat
  | [], r, qs => (qs, r)
  | a :: rest, r, qs =>
    let acc := r * radix + a
    divideSingle d rest (acc % d) (acc / d :: qs)

/-- The effective divisor length: one more than the index of the highest nonzero limb, 0 where there is none (00_scope.md R17,
the trim of R102). -/
def effLength : List Nat → Nat
  | [] => 0
  | x :: xs => if effLength xs ≠ 0 then effLength xs + 1 else if x ≠ 0 then 1 else 0

/-- DIV's results in one completion: A, B, DEFF <- m and `finish(NONE)` (R113). -/
def State.finishDiv (s : State) (as bs : List Nat) (m : Nat) : State :=
  (((s.writeA as).writeB bs).setDeff m).finish .none

/-- DIV (R100 to R119; word 0x00000001). The checks of R102 in its order; a limb is read where the rule's pseudocode reads it
(log entry 9). DESIGN CHOICE: A[0..NLEN-1] is NLEN limbs and B[0..DLEN-1] is DLEN limbs, both ends counted as R17, 10_state.md R28
and R112 have it, where 00_scope.md R12 would leave the last limb out (log entry 22). -/
def execDiv (s : State) : Result :=
  let o := s.operands
  let n := o.nlen.toNat
  let d := o.dlen.toNat
  if n > s.lmax ∨ d > s.lmax then .next (s.finish .precond)
  else
    withLimbs .b o.b 0 d fun bs =>
      let m := effLength bs
      if m = 0 then .next (s.finish .divByZero)
      else if m = 1 then
        if n < 1 then .next (s.finish .precond)
        else
          withLimbs .a o.a 0 n fun as =>
            let (q, r) := divideSingle (bs.getD 0 0) as.reverse 0 []
            .next (s.finishDiv q [r] m)
      else if n < m + 2 then .next (s.finish .precond)
      else
        withLimb .a o.a (n - 1) fun guard =>
          if guard ≠ 0 then .next (s.finish .precond)
          else
            withLimbs .a o.a 0 n fun as =>
              match divideMulti as (bs.take m) with
              | .error defect => .fault (.internalDefect defect)
              | .ok (as', bs') => .next (s.finishDiv as' bs' m)

/-- EST3X2 (R120; word 0x00000002): the estimator on n0 = A[0], n1 = A[1], n2 = A[2], d0 = B[0], d1 = B[1]. The check's two
conditions are tested left to right, and a limb is read where it is needed (log entry 9). -/
def execEst3x2 (s : State) : Result :=
  let o := s.operands
  withLimb .b o.b 1 fun d1 =>
    if d1 < 2 ^ 63 then .next (s.finish .precond)
    else
      withLimb .a o.a 2 fun n2 =>
        withLimb .a o.a 1 fun n1 =>
          withLimb .b o.b 0 fun d0 =>
            if n2 * radix + n1 > d1 * radix + d0 then .next (s.finish .precond)
            else
              withLimb .a o.a 0 fun n0 =>
                .next ((s.setEst (est3x2 n2 n1 n0 d1 d0)).finish .none)

end Sys2Proof.Machine
end

