-- ==== Sys2Proof/Machine/Float.lean ====
section
/-! DEFINITION. The two IEEE-754 formats as bit patterns (41_float_to_fixed.md R141, R142), rounding to p bits with ties to even
(00_scope.md R15), and the encoding of a result (42_fixed_to_float.md R174). Patterns and values are exact integers. -/

namespace Sys2Proof.Machine

/-- Bits F: the fraction field, bits f-1..0 (R141). -/
def Format.fraction (fmt : Format) (x : Nat) : Nat := bitsOf x (fmt.fracBits - 1) 0

/-- Bits E: the biased exponent field (R141). -/
def Format.exponent (fmt : Format) (x : Nat) : Nat := bitsOf x (fmt.fracBits + fmt.expBits - 1) fmt.fracBits

/-- Bit S: the sign (R141). -/
def Format.sign (fmt : Format) (x : Nat) : Bool :=
  bitsOf x (fmt.fracBits + fmt.expBits) (fmt.fracBits + fmt.expBits) == 1

/-- binary64 (R141). -/
def binary64 : Format where
  fracBits := 52
  expBits := 11
  bias := 1023
  emax := 1023

/-- binary32 (R141). -/
def binary32 : Format where
  fracBits := 23
  expBits := 8
  bias := 127
  emax := 127

/-- The precision p = f + 1 (R141). -/
def Format.precision (fmt : Format) : Nat := fmt.fracBits + 1

/-- The all-ones exponent field, Emax_field (R141). -/
def Format.expOnes (fmt : Format) : Nat := 2 ^ fmt.expBits - 1

/-- The class of a pattern (R142). -/
def Format.classOf (fmt : Format) (x : Nat) : FloatClass :=
  let e := fmt.exponent x
  let f := fmt.fraction x
  if e = fmt.expOnes then if f ≠ 0 then .nan else .infinity
  else if e = 0 then if f = 0 then .zero else .subnormal
  else .normal

/-- M of the magnitude decomposition |x| = M · 2^e of a finite nonzero pattern (R142). -/
def Format.mantissa (fmt : Format) (x : Nat) : Nat :=
  if fmt.exponent x = 0 then fmt.fraction x else 2 ^ fmt.fracBits + fmt.fraction x

/-- e of the magnitude decomposition (R142): E - bias - f, and 1 - bias - f for a subnormal. -/
def Format.scale (fmt : Format) (x : Nat) : Int :=
  (if fmt.exponent x = 0 then 1 else (fmt.exponent x : Int)) - fmt.bias - fmt.fracBits

/-- `RNE_p(w)`: w rounded to p significant bits, ties to even (00_scope.md R15). -/
def rne (p w : Nat) : Nat :=
  if bitLen w ≤ p then w
  else
    let s := bitLen w - p
    let q := w / 2 ^ s
    let r := w % 2 ^ s
    if r > 2 ^ (s - 1) ∨ (r = 2 ^ (s - 1) ∧ q % 2 = 1) then (q + 1) * 2 ^ s else q * 2 ^ s

/-- The pattern of +∞ (42_fixed_to_float.md R174). -/
def Format.infinity (fmt : Format) : Nat := fmt.expOnes * 2 ^ fmt.fracBits

/-- The pattern of a finite V > 0 of at most p significant bits (R174): with t = bitlen(V) - 1, sign 0, E = t + bias and
F = (V · 2^(f-t)) mod 2^f. -/
def Format.encodeFinite (fmt : Format) (v : Nat) : Nat :=
  let t := bitLen v - 1
  let scaled := if t ≤ fmt.fracBits then v * 2 ^ (fmt.fracBits - t) else v / 2 ^ (t - fmt.fracBits)
  (t + fmt.bias) * 2 ^ fmt.fracBits + scaled % 2 ^ fmt.fracBits

end Sys2Proof.Machine
end

