-- ==== Sys2Proof/Machine/FixedToFloat.lean ====
section
/-! DEFINITION. The fixed-to-float converter (42_fixed_to_float.md): the 64-bit window, rounding, saturation, the canonical check,
and the meanings of U2F64 and U2F32. -/

namespace Sys2Proof.Machine

/-- The base-2 exponent e of the mantissa window (R171). -/
def windowExp (x : Nat) : Nat := bitLen x - 64

/-- The mantissa window: the 64 most-significant bits of X, truncated (R171). -/
def window (x : Nat) : Nat := x / 2 ^ windowExp x

/-- The conversion of X to a pattern (R171 to R174, R178): +0.0 for 0; else the window rounded to p bits, scaled, and +∞ where
r · 2^e ≥ 2^(emax+1). -/
def convertOutbound (fmt : Format) (x : Nat) : Nat :=
  if x = 0 then 0
  else
    let v := rne fmt.precision (window x) * 2 ^ windowExp x
    if v ≥ 2 ^ (fmt.emax + 1) then fmt.infinity else fmt.encodeFinite v

/-- U2F to a format (R175, R176): the BITS check, the canonical check on A[L-1] (R177), the conversion of val(A, L), FRES and
`finish(NONE)`. A limb is read where the rule's pseudocode reads it (log entry 9). -/
def convertFixed (fmt : Format) (s : State) : Result :=
  let o := s.operands
  let width := o.bits.toNat
  let l := limbCount width
  if width > 64 * s.lmax then .next (s.finish .precond)
  else if l = 0 then .next ((s.setFres (convertOutbound fmt 0)).finish .none)
  else
    withLimb .a o.a (l - 1) fun top =>
      if top / 2 ^ (width - 64 * (l - 1)) ≠ 0 then .next (s.finish .precond)
      else
        withLimbs .a o.a 0 l fun as =>
          .next ((s.setFres (convertOutbound fmt (limbsVal as))).finish .none)

/-- U2F64 (R175; word 0x00000020). -/
def execU2f64 (s : State) : Result := convertFixed binary64 s

/-- U2F32 (R176; word 0x00000021): FRES[31:0] <- the pattern, FRES[63:32] <- 0. -/
def execU2f32 (s : State) : Result := convertFixed binary32 s

end Sys2Proof.Machine
end

