-- ==== Sys2Proof/Machine/FloatToFixed.lean ====
section
/-! DEFINITION. The float-to-fixed converter (41_float_to_fixed.md): classification, exact rounding, the three policies, and the
meanings of F2U64 and F2U32. -/

namespace Sys2Proof.Machine

/-- `round_half_up(M, e)` = floor(M · 2^e + 1/2), by the mantissa alignment of R150. -/
def roundHalfUp (m : Nat) (e : Int) : Nat :=
  let k := e + 1
  let t := if 0 ≤ k then m * 2 ^ k.toNat else m / 2 ^ (-k).toNat
  (t + 1) / 2

/-- `classify_and_round` (R146): the kind and its payload, in the rule's order of tests. -/
def classifyAndRound (fmt : Format) (x width : Nat) : Kind × Nat :=
  match fmt.classOf x with
  | .nan => (.notANumber, 0)
  | .infinity => if fmt.sign x then (.valueNegative, 0) else (.valueTooLarge, 0)
  | .zero => (.ok, 0)
  | .subnormal | .normal =>
    let r := roundHalfUp (fmt.mantissa x) (fmt.scale x)
    if fmt.sign x then (.valueNegative, (2 ^ width - r % 2 ^ width) % 2 ^ width)
    else if r ≥ 2 ^ width then (.valueTooLarge, r % 2 ^ width)
    else (.ok, r)

/-- The code `.TRY` reports for a kind (R155). -/
def Kind.code : Kind → ErrCode
  | .ok => .none
  | .valueTooLarge => .valueTooLarge
  | .valueNegative => .valueNegative
  | .notANumber => .notANumber

/-- `.TRY`, the fallible primitive (R155). -/
def projectTry (width : Nat) (kp : Kind × Nat) : Projected where
  value := kp.2
  ewidth := if kp.1 = .ok then 0 else width
  code := kp.1.code

/-- `.SAT` (R156). -/
def projectSat (width : Nat) (kp : Kind × Nat) : Projected where
  value :=
    match kp.1 with
    | .ok => kp.2
    | .valueTooLarge => 2 ^ width - 1
    | .valueNegative => 0
    | .notANumber => 0
  ewidth := 0
  code := .none

/-- `.WRAP` (R157). -/
def projectWrap (kp : Kind × Nat) : Projected where
  value :=
    match kp.1 with
    | .ok => kp.2
    | .valueTooLarge => kp.2
    | .valueNegative => kp.2
    | .notANumber => 0
  ewidth := 0
  code := .none

/-- `project(kind, payload, POL, BITS)` (R155 to R157). -/
def project (pol : Policy) (width : Nat) (kp : Kind × Nat) : Projected :=
  match pol with
  | .try_ => projectTry width kp
  | .sat => projectSat width kp
  | .wrap => projectWrap kp

/-- What F2U64 and F2U32 write in their one completion step (R158): A[0..L-1], EWIDTH, `finish(code)`. -/
def State.finishInbound (s : State) (width : Nat) (r : Projected) : State :=
  ((s.writeA (toLimbs (limbCount width) r.value)).setEwidth r.ewidth).finish r.code

/-- F2U of a pattern x under a policy (R143, R144): the BITS check first (R145), then classification, policy and results. -/
def convertInbound (fmt : Format) (x : Nat) (pol : Policy) (s : State) : Result :=
  let width := s.operands.bits.toNat
  if width > 64 * s.lmax then .next (s.finish .precond)
  else .next (s.finishInbound width (project pol width (classifyAndRound fmt x width)))

/-- FIN[63:0] of the operands, a binary64 pattern (10_state.md R33). -/
def State.fin64 (s : State) : Nat := s.operands.fin.toNat

/-- FIN[31:0] of the operands, a binary32 pattern; FIN[63:32] is ignored (10_state.md R33). -/
def State.fin32 (s : State) : Nat := bitsOf s.operands.fin.toNat 31 0

/-- F2U64.TRY (R143; word 0x00000010). -/
def execF2u64Try (s : State) : Result := convertInbound binary64 s.fin64 .try_ s

/-- F2U64.SAT (R143; word 0x00000110). -/
def execF2u64Sat (s : State) : Result := convertInbound binary64 s.fin64 .sat s

/-- F2U64.WRAP (R143; word 0x00000210). -/
def execF2u64Wrap (s : State) : Result := convertInbound binary64 s.fin64 .wrap s

/-- F2U32.TRY (R144; word 0x00000011). -/
def execF2u32Try (s : State) : Result := convertInbound binary32 s.fin32 .try_ s

/-- F2U32.SAT (R144; word 0x00000111). -/
def execF2u32Sat (s : State) : Result := convertInbound binary32 s.fin32 .sat s

/-- F2U32.WRAP (R144; word 0x00000211). -/
def execF2u32Wrap (s : State) : Result := convertInbound binary32 s.fin32 .wrap s

end Sys2Proof.Machine
end

