-- ==== Sys2Proof/Machine/Dispatch.lean ====
section
/-! DEFINITION. One arm per command: the completion of that command (10_state.md R42). -/

namespace Sys2Proof.Machine

def exec (i : Instr) (s : State) : Host.Outcome State Fault Refusal :=
  match i with
  -- the division engine (40_division.md)
  | .div => Sys2Proof.Machine.execDiv s
  | .est3x2 => Sys2Proof.Machine.execEst3x2 s
  -- the float-to-fixed converter (41_float_to_fixed.md)
  | .f2u64Try => Sys2Proof.Machine.execF2u64Try s
  | .f2u64Sat => Sys2Proof.Machine.execF2u64Sat s
  | .f2u64Wrap => Sys2Proof.Machine.execF2u64Wrap s
  | .f2u32Try => Sys2Proof.Machine.execF2u32Try s
  | .f2u32Sat => Sys2Proof.Machine.execF2u32Sat s
  | .f2u32Wrap => Sys2Proof.Machine.execF2u32Wrap s
  -- the fixed-to-float converter (42_fixed_to_float.md)
  | .u2f64 => Sys2Proof.Machine.execU2f64 s
  | .u2f32 => Sys2Proof.Machine.execU2f32 s

end Sys2Proof.Machine
end

