-- ==== Sys2Proof/Machine/Port.lean ====
section
/-! DEFINITION. The host port: the register map (10_state.md R22), legal accesses (20_memory.md R60, R62), what a read returns and
what a write does (R24-R38, R64), and the busy period (70_reset_and_hazards.md R240, R241). -/

namespace Sys2Proof.Machine

/-- The offset of a register or limb (R22, 30_encoding.md R93). -/
def Reg.offset : Reg → Nat
  | .cap => 0x00
  | .ctrl => 0x08
  | .status => 0x10
  | .cmd => 0x18
  | .nlen => 0x20
  | .dlen => 0x28
  | .bits => 0x30
  | .fin => 0x38
  | .fres => 0x40
  | .deff => 0x48
  | .ewidth => 0x50
  | .est => 0x58
  | .limb .a i => 0x10000 + 8 * i
  | .limb .b i => 0x20000 + 8 * i

/-- The control registers of the map (10_state.md R22). -/
def controlRegs : List Reg :=
  [.cap, .ctrl, .status, .cmd, .nlen, .dlen, .bits, .fin, .fres, .deff, .ewidth, .est]

/-- The control register at an offset (R22). -/
def controlAt (off : Nat) : Option Reg := controlRegs.find? fun r => r.offset == off

/-- The register or limb the map gives an aligned offset, none where it is unmapped, reserved or misaligned (R22, 20_memory.md R60). -/
def regAt (lmax off : Nat) : Option Reg :=
  if off % 8 ≠ 0 then none
  else if off < 0x10000 then controlAt off
  else if off < 0x10000 + 8 * lmax then some (.limb .a ((off - 0x10000) / 8))
  else if off < 0x20000 then none
  else if off < 0x20000 + 8 * lmax then some (.limb .b ((off - 0x20000) / 8))
  else none

/-- The register a host access of `size` bytes at host address `addr` reaches, or the access's fault (20_memory.md R60, R62, R65). -/
def portTarget (p : Params) (addr size : Nat) : Except Fault Reg :=
  if addr < p.base ∨ p.base + windowBytes ≤ addr then .error (.outsideWindow addr)
  else if size ≠ 8 then .error (.busError addr size)
  else
    match regAt p.lmax (addr - p.base) with
    | none => .error (.busError addr size)
    | some r => .ok r

/-- A limb as a host read finds it; an unwritten one faults (70_reset_and_hazards.md R232). -/
def readLimb (s : State) (buf : Buffer) (i : Nat) : Except Fault Word :=
  match Limbs.read (s.buffer buf) i with
  | some v => .ok v
  | none => .error (.unwrittenLimb buf i)

/-- The value a register holds, reserved bits 0 (10_state.md R23-R38). CMD reads 0 (R27). -/
def regValue (s : State) : Reg → Except Fault Word
  | .cap => .ok (Word.ofNat s.lmax)
  | .ctrl => .ok (Word.ofNat (bit s.ie))
  | .status => .ok s.status.toWord
  | .cmd => .ok 0
  | .nlen => .ok (s.nlen.setWidth 64)
  | .dlen => .ok (s.dlen.setWidth 64)
  | .bits => .ok (s.bits.setWidth 64)
  | .fin => .ok s.fin
  | .fres => .ok s.fres
  | .deff => .ok (s.deff.setWidth 64)
  | .ewidth => .ok (s.ewidth.setWidth 64)
  | .est => .ok s.est
  | .limb buf i => readLimb s buf i

/-- The registers a read of which returns any value while BUSY = 1 (70_reset_and_hazards.md R240). -/
def Reg.anyWhileBusy : Reg → Bool
  | .fres | .deff | .ewidth | .est | .limb _ _ => true
  | .cap | .ctrl | .status | .cmd | .nlen | .dlen | .bits | .fin => false

/-- A host read of a register (20_memory.md R63, R64, 70_reset_and_hazards.md R240). While BUSY = 1 the any-value reads draw, an
unwritten limb among them (log entry 8). -/
def hostRead (s : State) (r : Reg) : Result :=
  if s.status.busy && r.anyWhileBusy then .next s.drawReply
  else
    match regValue s r with
    | .ok v => .next (s.reply v)
    | .error f => .fault f

/-- A host write to an operand register: the store while BUSY = 0, dropped while BUSY = 1 (70_reset_and_hazards.md R241). -/
def unlessBusy (s stored : State) : State := if s.status.busy then s.drop else stored

/-- A host write of v to a register (10_state.md R24-R38, 20_memory.md R64, 70_reset_and_hazards.md R241). -/
def hostWrite (s : State) (r : Reg) (v : Word) : State :=
  match r with
  | .ctrl => { s with ie := v.getLsbD 0 }
  | .status => s.acknowledge v
  | .cmd => unlessBusy s (s.issue v)
  | .nlen => unlessBusy s { s with nlen := v.setWidth 16 }
  | .dlen => unlessBusy s { s with dlen := v.setWidth 16 }
  | .bits => unlessBusy s { s with bits := v.setWidth 32 }
  | .fin => unlessBusy s { s with fin := v }
  | .limb buf i => unlessBusy s (s.setLimb buf i v)
  | .cap | .fres | .deff | .ewidth | .est => s

/-- `rd`: MemRead(addr - BASE, size) (20_memory.md R60, R62). -/
def portRead (s : State) (addr size : Nat) : Result :=
  match portTarget s.params addr size with
  | .error f => .fault f
  | .ok r => hostRead s r

/-- `wr`: MemWrite(addr - BASE, size, v), where `bytes` are the byte lanes of v and size is their number (20_memory.md R60 to R62). -/
def portWrite (s : State) (addr : Nat) (bytes : List Byte) : Result :=
  match portTarget s.params addr bytes.length with
  | .error f => .fault f
  | .ok r => .next (hostWrite s r (ofByteLanes bytes))

/-- `rd NAME` in the notation of 30_encoding.md R93. -/
def rdReg (p : Params) (r : Reg) : HostOp := .rd (p.base + r.offset) 8

/-- `wr NAME, v`: MemWrite(off(NAME), 8, v) (R93). -/
def wrReg (p : Params) (r : Reg) (v : Word) : HostOp := .wr (p.base + r.offset) (byteLanes v)

/-- `cmd MNEMONIC` given the command's word (R93). -/
def cmdWord (p : Params) (w : Word) : HostOp := wrReg p .cmd w

/-- `ldA i, v0, v1, ...` and `ldB i, v0, v1, ...` (R93). -/
def ldLimbs (p : Params) (buf : Buffer) : Nat → List Word → List HostOp
  | _, [] => []
  | i, v :: vs => wrReg p (.limb buf i) v :: ldLimbs p buf (i + 1) vs

end Sys2Proof.Machine
end

