-- ==== Sys2Proof/Machine/Schedule.lean ====
section
/-! DEFINITION. The moves of the two agents (00_scope.md R3): the host's next transaction, the block's completion (10_state.md R42),
and who moves (20_memory.md R67; log entry 3). -/

namespace Sys2Proof.Machine

/-- The block's completion step (R42): decode the word of INFLIGHT and perform its command; an illegal word does
`finish(ILLEGAL)` and nothing else (60_exceptions.md R204). -/
def complete (f : InFlight) (s : State) : Result :=
  match decode f.word with
  | .ok i => exec i s
  | .error _ => .next (s.finish .illegal)

/-- One poll of `wait` (30_encoding.md R93): a read of STATUS, repeated until its BUSY bit is 0; `rest` is the program after it. -/
def pollStatus (s : State) (rest : List HostOp) : State :=
  let s' := s.reply s.status.toWord
  if s.status.busy then s' else s'.setHostOps rest

/-- The host waits for IRQ (60_exceptions.md R227): it goes on when IRQ is 1. -/
def pollIrq (s : State) (rest : List HostOp) : State :=
  if s.irq then s.setHostOps rest else s

/-- One transaction of the host while reset is released; `rest` is its program after it. -/
def hostTransaction (s : State) (rest : List HostOp) (op : HostOp) : Result :=
  match op with
  | .rd addr size => portRead (s.setHostOps rest) addr size
  | .wr addr bytes => portWrite (s.setHostOps rest) addr bytes
  | .wait => .next (pollStatus s rest)
  | .waitIrq => .next (pollIrq s rest)
  | .assertReset => .next (s.setHostOps rest).assertReset
  | .releaseReset => .next (s.setHostOps rest).releaseReset

/-- One transaction while reset is asserted: the block ignores host accesses (70_reset_and_hazards.md R230; log entry 10). -/
def ignoredTransaction (s : State) (rest : List HostOp) (op : HostOp) : Result :=
  match op with
  | .rd _ _ => .next (s.setHostOps rest).noReply
  | .wr _ _ => .next (s.setHostOps rest)
  | .wait => .next (s.setHostOps rest).noReply
  | .waitIrq => .next (pollIrq s rest)
  | .assertReset => .next (s.setHostOps rest).assertReset
  | .releaseReset => .next (s.setHostOps rest).releaseReset

/-- The host's move; a host whose program has ended makes none, and all state stays (60_exceptions.md R226; log entry 15). -/
def hostMove (s : State) : Result :=
  match s.hostOps with
  | [] => .next s
  | op :: rest => if s.rst then ignoredTransaction s rest op else hostTransaction s rest op

/-- The next move: the host's while no command is in flight; in a busy period the agent `turns` names, and the block once it names
none (20_memory.md R67, 70_reset_and_hazards.md R244; log entry 3). -/
def nextMove (s : State) : Result :=
  match s.inflight with
  | none => hostMove s
  | some f =>
    match s.turns with
    | [] => complete f s
    | .block :: ts => complete f (s.setTurns ts)
    | .host :: ts => hostMove (s.setTurns ts)

/-- The value v of CMD issued, and the block next to move. -/
def State.placeCommand (s : State) (v : Word) : State :=
  (s.issue v).setTurns (.block :: s.turns)

end Sys2Proof.Machine
end

