-- ==== Sys2Proof/Machine/Step.lean ====
section
/-! DEFINITION. The step: one move of one agent (00_scope.md R3), and where the next command to run is placed. -/

namespace Sys2Proof.Machine

/-- One step of the machine: one host transaction or the block's completion. -/
def step (s : State) : Host.Outcome State Fault Refusal := nextMove s

/-- s with the command word `w` (its bits above `nbits` 0) issued on the operands s holds and the block next to move, so that the
very next step completes it. The block fetches nothing (20_memory.md R70): a command comes to run by a write to CMD, for which this
stands (log entry 4). -/
def State.withFetchWord (s : State) (nbits w : Nat) : State :=
  s.placeCommand (Word.ofNat (w % 2 ^ nbits))

end Sys2Proof.Machine
end

