-- ==== Sys2Proof/Safety.lean ====
section
/-! DEFINITION. What claims are stated in: the parts of an outcome, the invariant of the machine (10_state.md R40, R44, R45,
70_reset_and_hazards.md R230), the operands a command needs written (R234), and the end of a host program (R248). -/

namespace Sys2Proof.Machine

/-- The next state of an outcome. -/
def next? : Result → Option State
  | .next s => some s
  | .fault _ => none
  | .refused _ => none

/-- The fault of an outcome. -/
def fault? : Result → Option Fault
  | .next _ => none
  | .fault f => some f
  | .refused _ => none

/-- The state the reset event leaves, kept while the reset input is asserted (70_reset_and_hazards.md R230). -/
def State.heldInReset (s : State) : Prop :=
  s.inflight = none ∧ s.ie = false ∧ s.status = .reset ∧ s.nlen = 0 ∧ s.dlen = 0 ∧ s.bits = 0 ∧ s.fin = 0 ∧ s.fres = 0 ∧
    s.deff = 0 ∧ s.ewidth = 0 ∧ s.est = 0 ∧ s.a = [] ∧ s.b = []

/-- The invariant every step keeps. -/
structure State.Inv (s : State) : Prop where
  /-- A holds limbs 0 to LMAX-1 alone, in canonical form (R30). -/
  a_wf : Limbs.wf s.a s.lmax
  /-- B holds limbs 0 to LMAX-1 alone, in canonical form (R31). -/
  b_wf : Limbs.wf s.b s.lmax
  /-- "INFLIGHT ≠ none exactly when STATUS.BUSY = 1" (R40). -/
  busy_iff : s.status.busy = s.inflight.isSome
  /-- "S always equals the live registers for the whole time the command is in flight" (R40, 70_reset_and_hazards.md R242). -/
  snapshot : ∀ f, s.inflight = some f → f.operands = s.live
  /-- From an issue to its completion DONE = 0 and ERR = 0 (R24). -/
  busy_clear : s.status.busy = true → s.status.done = false ∧ s.status.err = .none
  /-- DEFF is the effective length of a divisor the block held (R35, R29). -/
  deff_le : s.deff.toNat ≤ s.lmax
  /-- EWIDTH is 0 or a width the block accepted (R36, R32). -/
  ewidth_le : s.ewidth.toNat ≤ 64 * s.lmax
  /-- While reset is asserted every register keeps its reset value (70_reset_and_hazards.md R230). -/
  held : s.rst = true → s.heldInReset

/-- The first k limbs of a buffer are written (70_reset_and_hazards.md R232, R234 item 3). -/
abbrev Limbs.Written (l : Limbs) (k : Nat) : Prop := ∀ i < k, (Limbs.read l i).isSome

/-- The values of the first k limbs of a buffer; for a written one this is X[0..k-1]. DESIGN CHOICE:
taken as k limbs, where 00_scope.md R12 would leave the last one out (log entry 22). -/
def Limbs.values (l : Limbs) (k : Nat) : List Nat :=
  (List.range k).map fun i => ((Limbs.read l i).getD 0).toNat

/-- `val(X, k)` of a buffer (00_scope.md R12). -/
def Limbs.val (l : Limbs) (k : Nat) : Nat := limbsVal (l.values k)

/-- A run of a host program has ended (70_reset_and_hazards.md R248). -/
def State.programEnded (s : State) : Prop := s.hostOps = [] ∧ s.inflight = none

/-- The operand buffer of a completion. -/
def Operands.buffer (o : Operands) : Buffer → Limbs
  | .a => o.a
  | .b => o.b

/-- The limbs that are operands of a command issued on `o` (20_memory.md R72, 40_division.md R101, R120, 42_fixed_to_float.md R177).
A[0..NLEN-1], B[0..DLEN-1] and A[0..L-1] are taken as NLEN, DLEN and L limbs (log entry 22). -/
def Operands.reads (o : Operands) : Instr → Buffer → Nat → Prop
  | .div, .a, j => j < o.nlen.toNat
  | .div, .b, j => j < o.dlen.toNat
  | .est3x2, .a, j => j < 3
  | .est3x2, .b, j => j < 2
  | .f2u64Try, _, _ => False
  | .f2u64Sat, _, _ => False
  | .f2u64Wrap, _, _ => False
  | .f2u32Try, _, _ => False
  | .f2u32Sat, _, _ => False
  | .f2u32Wrap, _, _ => False
  | .u2f64, .a, j => j < limbCount o.bits.toNat
  | .u2f64, .b, _ => False
  | .u2f32, .a, j => j < limbCount o.bits.toNat
  | .u2f32, .b, _ => False

/-- A command faults on an unwritten limb that is one of its operands (70_reset_and_hazards.md R232). -/
def State.stopsUnwritten (s : State) (i : Instr) : Prop :=
  ∃ buf j, exec i s = .fault (.unwrittenLimb buf j) ∧ s.operands.reads i buf j ∧ Limbs.read (s.operands.buffer buf) j = none

/-- A register or limb the map holds for a given LMAX (10_state.md R22). -/
def Reg.mapped (lmax : Nat) : Reg → Prop
  | .limb _ i => i < lmax
  | _ => True

/-- The host moves next, with transaction `op`; `s0` is s with the transaction and the turn it takes consumed and all else as it
was (20_memory.md R67). -/
def State.hostTurn (s : State) (op : HostOp) (s0 : State) : Prop :=
  ∃ rest, s.hostOps = op :: rest ∧
    ((s.inflight = none ∧ s0 = s.setHostOps rest) ∨
      ∃ f ts, s.inflight = some f ∧ s.turns = .host :: ts ∧ s0 = (s.setTurns ts).setHostOps rest)

/-- The block moves next and completes `f`; `s0` is s with the turn it takes consumed (10_state.md R42, 20_memory.md R67). -/
def State.blockTurn (s : State) (f : InFlight) (s0 : State) : Prop :=
  s.inflight = some f ∧ ((s.turns = [] ∧ s0 = s) ∨ ∃ ts, s.turns = .block :: ts ∧ s0 = s.setTurns ts)

/-- A host's move that is no illegal access and does not assert reset (20_memory.md R60). -/
def LegalNoReset (p : Params) (op : HostOp) : Prop :=
  op = .wait ∨ op = .waitIrq ∨ op = .releaseReset ∨
    ∃ r : Reg, r.mapped p.lmax ∧ (op = rdReg p r ∨ ∃ v, op = wrReg p r v)

/-- m is the effective length of a limb sequence: one more than the index of the highest nonzero limb, 0 where there is none
(00_scope.md R17). -/
def IsEffLength (xs : List Nat) (m : Nat) : Prop :=
  m ≤ xs.length ∧ (∀ i, m ≤ i → xs.getD i 0 = 0) ∧ (m = 0 ∨ xs.getD (m - 1) 0 ≠ 0)

/-- |x| of a finite pattern, an exact rational: M · 2^e (41_float_to_fixed.md R142). -/
def Format.magnitude (fmt : Format) (x : Nat) : ℚ := (fmt.mantissa x : ℚ) * (2 : ℚ) ^ fmt.scale x

/-- A finite pattern (41_float_to_fixed.md R142). -/
def Format.finite (fmt : Format) (x : Nat) : Prop := fmt.exponent x ≠ fmt.expOnes

/-- The converted magnitude of a finite pattern, floor(|x| + 1/2) over the rationals (41_float_to_fixed.md R149). -/
def Format.rounded (fmt : Format) (x : Nat) : Nat := ⌊fmt.magnitude x + 1 / 2⌋₊

/-- Everything but the results, STATUS and INFLIGHT: what no completion writes. -/
def State.sameButResults (s t : State) : Prop :=
  t.params = s.params ∧ t.rst = s.rst ∧ t.ie = s.ie ∧ t.nlen = s.nlen ∧ t.dlen = s.dlen ∧ t.bits = s.bits ∧ t.fin = s.fin ∧
    t.hostOps = s.hostOps ∧ t.turns = s.turns ∧ t.rdata = s.rdata ∧ t.draws = s.draws

end Sys2Proof.Machine
end

