-- ==== Sys2Proof/Certificates/Slice0/Obligations.lean ====
section
/-! DEFINITION. The statements of this model, from the numbered rules of spec/. Each says which rule it formalises; where it rests
on a choice of the model, it names the log entry. `N`, `D`, `Q`, `R`, `L`, `X` are the letters of the rules. -/

open Sys2Proof Sys2Proof.Machine

/-! ## Encoding (30_encoding.md) -/

/-- R92: the ten words of the table, each written out, decode to their commands. -/
def Obligations.SpecWordsDecode : Prop :=
  decode 0x00000001 = .ok .div ∧ decode 0x00000002 = .ok .est3x2 ∧
    decode 0x00000010 = .ok .f2u64Try ∧ decode 0x00000110 = .ok .f2u64Sat ∧ decode 0x00000210 = .ok .f2u64Wrap ∧
    decode 0x00000011 = .ok .f2u32Try ∧ decode 0x00000111 = .ok .f2u32Sat ∧ decode 0x00000211 = .ok .f2u32Wrap ∧
    decode 0x00000020 = .ok .u2f64 ∧ decode 0x00000021 = .ok .u2f32

/-- R86: decoding is total on the 64-bit CMD values, accepts exactly the ten command words, the encodings of the commands, and
every other value completes as ILLEGAL. -/
def Obligations.DecoderAcceptsExactlyTheTenWords : Prop :=
  (∀ (v : Word) (i : Instr), decode v = .ok i ↔ v = encode i) ∧
    (encode .div = 0x001 ∧ encode .est3x2 = 0x002 ∧
      encode .f2u64Try = 0x010 ∧ encode .f2u64Sat = 0x110 ∧ encode .f2u64Wrap = 0x210 ∧
      encode .f2u32Try = 0x011 ∧ encode .f2u32Sat = 0x111 ∧ encode .f2u32Wrap = 0x211 ∧
      encode .u2f64 = 0x020 ∧ encode .u2f32 = 0x021) ∧
    ∀ (f : InFlight) (s : State), (∀ i, f.word ≠ encode i) → complete f s = .next (s.finish .illegal)

/-- R81 to R85: the four field checks, by integer arithmetic on the value, accept exactly what the decoder decodes. -/
def Obligations.FieldChecksAgreeWithDecoder : Prop :=
  ∀ v : Word, wellFormedCmd v = true ↔ ∃ i, decode v = .ok i

/-! ## The step (00_scope.md R3, 10_state.md R42, 20_memory.md R67) -/

/-- R42: when the block moves next, a word in flight that decodes to a command runs as that command, on the state with the turn
consumed. -/
def Obligations.StepRunsTheDecodedCommand : Prop :=
  ∀ (s s0 : State) (f : InFlight) (i : Instr),
    s.blockTurn f s0 → decode f.word = .ok i → step s = exec i s0

/-- The model's own placing of a command (log entry 4): the word placed is issued on the operands the state holds, and the very
next step is its completion. -/
def Obligations.PlacedWordRunsNext : Prop :=
  ∀ (s : State) (i : Instr), step (s.withFetchWord 32 (encodeWord i).toNat) = exec i (s.issue (encode i))

/-- R226 says that an idle block makes no steps and that all its state survives. The step is a total function: that an idle machine
whose host program has ended answers the same state is the model's choice (log entry 15, DEDUCED). -/
def Obligations.IdleBlockKeepsAllState : Prop :=
  ∀ s : State, s.inflight = none → s.hostOps = [] → step s = .next s

/-- R204: a CMD write with BUSY = 0 whose value decodes to ILLEGAL is an issue, and its completion does `finish(ILLEGAL)` and
nothing else. -/
def Obligations.IllegalWordIsIssuedAndFinishes : Prop :=
  ∀ (s s0 : State) (v : Word) (e : Illegal),
    s.rst = false → s.status.busy = false → decode v = .error e → s.hostTurn (wrReg s.params .cmd v) s0 →
      step s = .next { s0 with
        status := { busy := true, done := false, werr := s.status.werr, err := .none },
        inflight := some { word := v, operands := s.live } } ∧
      ∀ (t t0 : State) (o : Operands), t.blockTurn { word := v, operands := o } t0 →
        step t = .next { t0 with
          status := { busy := false, done := true, werr := t.status.werr, err := .illegal }, inflight := none }

/-- R244: a command in flight completes after the k turns the host is given before the block's, and no later. The turns are a list,
so they are finitely many (the model's choice, log entry 3). It holds with the host's program at its end, and with any program whose
next k transactions are polls and other legal ones that do not assert reset: the completion is then of the command in flight, on
operands as they were. -/
def Obligations.CommandInFlightCompletes : Prop :=
  ∀ (s : State) (f : InFlight), s.inflight = some f →
    let k := (s.turns.takeWhile (· == .host)).length
    (s.hostOps = [] → Host.Core.run Sys2Proof.core (k + 1) s = complete f (s.setTurns (s.turns.drop (k + 1)))) ∧
    (s.status.busy = true → (∀ op ∈ s.hostOps.take k, LegalNoReset s.params op) →
      ∃ s0, Host.Core.run Sys2Proof.core (k + 1) s = complete f s0 ∧ s0.inflight = some f ∧ s0.status.busy = true ∧
        s0.live = s.live ∧ s0.params = s.params ∧ s0.turns = s.turns.drop (k + 1))

/-! ## The invariant -/

/-- The invariant holds right after reset, whatever LMAX and BASE (10_state.md R44). -/
def Obligations.InvariantHoldsAtReset : Prop :=
  State.reset.Inv ∧ ∀ p : Params, (State.resetWith p).Inv

/-- Every step keeps the invariant: the buffers' canonical form within LMAX, INFLIGHT ≠ none exactly when BUSY = 1, the snapshot
equal to the live registers, DONE = 0 and ERR = 0 while busy, DEFF and EWIDTH in range, the reset values while reset is held. -/
def Obligations.EveryStepKeepsTheInvariant : Prop :=
  ∀ s t : State, s.Inv → step s = .next t → t.Inv

/-- R20: LMAX and BASE are parameters of the step, which no step changes. -/
def Obligations.NoStepChangesTheParameters : Prop :=
  ∀ s t : State, step s = .next t → t.params = s.params

/-- R242's derived sentence: computing from the operands captured at the issue (R40) is the same as computing from the live registers
at the completion. The second side is exec with nothing in flight, which takes the live registers by the model's choice (log entry
14, DESIGN CHOICE); no step does that. -/
def Obligations.SnapshotIsTheLiveOperands : Prop :=
  ∀ (s : State) (i : Instr), s.Inv → exec i s = exec i { s with inflight := none }

/-! ## Reset (10_state.md R44, 70_reset_and_hazards.md R230, R231) -/

/-- R44: what the host finds in every register after reset, every limb unwritten, nothing in flight, IRQ low. -/
def Obligations.ResetValues : Prop :=
  (∃ p : Params, State.reset = State.resetWith p) ∧ ∀ p : Params,
    regValue (State.resetWith p) .cap = .ok (BitVec.ofNat 64 p.lmax) ∧
    (∀ r ∈ [Reg.ctrl, .status, .nlen, .dlen, .bits, .fin, .fres, .deff, .ewidth, .est],
      regValue (State.resetWith p) r = .ok 0) ∧
    (∀ buf i, regValue (State.resetWith p) (.limb buf i) = .error (.unwrittenLimb buf i)) ∧
    (State.resetWith p).inflight = none ∧ (State.resetWith p).irq = false

/-- R230, R231: asserting reset puts every register at its reset value in one step, command in flight or not, LMAX kept and IRQ
low; while reset is asserted a host access changes no register and no limb. That such an access or poll is consumed and the run goes
on is the model's choice (log entry 10, DESIGN CHOICE): R230 leaves the platform's answer open, and the data stays open here. -/
def Obligations.ResetEventAndHeldReset : Prop :=
  (∀ s s0 : State, s.hostTurn .assertReset s0 →
    ∃ t, step s = .next t ∧ t.heldInReset ∧ t.rst = true ∧ t.params = s.params ∧ t.irq = false ∧
      regValue t .cap = .ok (BitVec.ofNat 64 s.lmax)) ∧
  ∀ (s s0 : State) (op : HostOp), s.rst = true → s.hostTurn op s0 →
    ((∃ addr size, op = .rd addr size) ∨ (∃ addr bytes, op = .wr addr bytes) ∨ op = .wait) →
      ∃ data, step s = .next { s0 with rdata := data }

/-! ## The port (10_state.md R22-R38, 20_memory.md R60-R64, 70_reset_and_hazards.md R240, R241) -/

/-- R62: a host access inside the window that is not legal (its size, its alignment, or an offset the map gives nothing) is a
fault, and there is no next state. -/
def Obligations.IllegalAccessFaults : Prop :=
  ∀ (s s0 : State) (addr size : Nat) (bytes : List Byte),
    s.rst = false → bytes.length = size → s.base ≤ addr → addr < s.base + 0x40000 →
    (size ≠ 8 ∨ (addr - s.base) % 8 ≠ 0 ∨
      (0x60 ≤ addr - s.base ∧ addr - s.base < 0x10000) ∨
      (0x10000 + 8 * s.lmax ≤ addr - s.base ∧ addr - s.base < 0x20000) ∨
      0x20000 + 8 * s.lmax ≤ addr - s.base) →
    (s.hostTurn (.rd addr size) s0 ∨ s.hostTurn (.wr addr bytes) s0) →
      step s = .fault (.busError addr size)

/-- A host read with BUSY = 0: the register's value, reserved bits 0, or the fault of an unwritten limb (R23-R37, R232), and
nothing but the data returned changes (R64). -/
def Obligations.IdleReadReturnsTheRegister : Prop :=
  ∀ (s s0 : State) (r : Reg),
    s.rst = false → s.status.busy = false → r.mapped s.lmax → s.hostTurn (rdReg s.params r) s0 →
      step s =
        match r with
        | .cap => .next { s0 with rdata := some (byteLanes (BitVec.ofNat 64 s.lmax)) }
        | .ctrl => .next { s0 with rdata := some (byteLanes (if s.ie then 1 else 0)) }
        | .status => .next { s0 with rdata := some (byteLanes s.status.toWord) }
        | .cmd => .next { s0 with rdata := some (byteLanes 0) }
        | .nlen => .next { s0 with rdata := some (byteLanes (s.nlen.setWidth 64)) }
        | .dlen => .next { s0 with rdata := some (byteLanes (s.dlen.setWidth 64)) }
        | .bits => .next { s0 with rdata := some (byteLanes (s.bits.setWidth 64)) }
        | .fin => .next { s0 with rdata := some (byteLanes s.fin) }
        | .fres => .next { s0 with rdata := some (byteLanes s.fres) }
        | .deff => .next { s0 with rdata := some (byteLanes (s.deff.setWidth 64)) }
        | .ewidth => .next { s0 with rdata := some (byteLanes (s.ewidth.setWidth 64)) }
        | .est => .next { s0 with rdata := some (byteLanes s.est) }
        | .limb buf i =>
          match Limbs.read (s.buffer buf) i with
          | some v => .next { s0 with rdata := some (byteLanes v) }
          | none => .fault (.unwrittenLimb buf i)

/-- R240: while BUSY = 1 a read of A, B, FRES, DEFF, EWIDTH or EST returns any value, and the other registers their value. The model's
choices: the value is the next of the free values, at the count `draws` (log entry 7, DESIGN CHOICE), and an unwritten limb is read
so too, R240 going before R232 (log entry 8, DEDUCED). -/
def Obligations.BusyReadDrawsOrReturns : Prop :=
  ∀ (s s0 : State) (r : Reg),
    s.rst = false → s.status.busy = true → r.mapped s.lmax → s.hostTurn (rdReg s.params r) s0 →
      step s =
        match r with
        | .status => .next { s0 with rdata := some (byteLanes s.status.toWord) }
        | .ctrl => .next { s0 with rdata := some (byteLanes (if s.ie then 1 else 0)) }
        | .cap => .next { s0 with rdata := some (byteLanes (BitVec.ofNat 64 s.lmax)) }
        | .nlen => .next { s0 with rdata := some (byteLanes (s.nlen.setWidth 64)) }
        | .dlen => .next { s0 with rdata := some (byteLanes (s.dlen.setWidth 64)) }
        | .bits => .next { s0 with rdata := some (byteLanes (s.bits.setWidth 64)) }
        | .fin => .next { s0 with rdata := some (byteLanes s.fin) }
        | .cmd => .next { s0 with rdata := some (byteLanes 0) }
        | .limb _ _ | .fres | .deff | .ewidth | .est =>
          .next { s0 with rdata := some (byteLanes (Config.busyRead s.draws)), draws := s.draws + 1 }

/-- A host write with BUSY = 0: what each register or limb holds after it, reserved bits and read-only registers ignoring it
(R24-R38), and nothing else changed (R64). -/
def Obligations.IdleWriteStores : Prop :=
  ∀ (s s0 : State) (r : Reg) (v : Word),
    s.rst = false → s.status.busy = false → r.mapped s.lmax → s.hostTurn (wrReg s.params r v) s0 →
      step s = .next
        (match r with
        | .ctrl => { s0 with ie := v.getLsbD 0 }
        | .status =>
          { s0 with status := { s.status with
              done := s.status.done && !v.getLsbD 1, werr := s.status.werr && !v.getLsbD 2 } }
        | .cmd =>
          { s0 with
            status := { busy := true, done := false, werr := s.status.werr, err := .none },
            inflight := some { word := v, operands := s.live } }
        | .nlen => { s0 with nlen := v.setWidth 16 }
        | .dlen => { s0 with dlen := v.setWidth 16 }
        | .bits => { s0 with bits := v.setWidth 32 }
        | .fin => { s0 with fin := v }
        | .limb .a i => { s0 with a := Limbs.write s.a i v }
        | .limb .b i => { s0 with b := Limbs.write s.b i v }
        | .cap | .fres | .deff | .ewidth | .est => s0)

/-- R241: while BUSY = 1 a write to CMD, NLEN, DLEN, BITS, FIN or a limb is dropped and sets WERR, CTRL and STATUS writes take
effect, and a write to a read-only register is ignored without setting WERR. -/
def Obligations.BusyWriteIsDropped : Prop :=
  ∀ (s s0 : State) (r : Reg) (v : Word),
    s.rst = false → s.status.busy = true → r.mapped s.lmax → s.hostTurn (wrReg s.params r v) s0 →
      step s = .next
        (match r with
        | .cmd | .nlen | .dlen | .bits | .fin | .limb _ _ => { s0 with status := { s.status with werr := true } }
        | .ctrl => { s0 with ie := v.getLsbD 0 }
        | .status =>
          { s0 with status := { s.status with
              done := s.status.done && !v.getLsbD 1, werr := s.status.werr && !v.getLsbD 2 } }
        | .cap | .fres | .deff | .ewidth | .est => s0)

/-- R27: a write to CMD with BUSY = 0 issues and records INFLIGHT, with BUSY = 1 it is dropped and sets WERR; a read returns 0 and
has no effect; a value with a bit of 63:32 set is no command word. -/
def Obligations.CmdPortIssues : Prop :=
  ∀ (s s0 : State) (v : Word), s.rst = false →
    (s.hostTurn (wrReg s.params .cmd v) s0 → s.status.busy = false →
      step s = .next { s0 with
        status := { busy := true, done := false, werr := s.status.werr, err := .none },
        inflight := some { word := v, operands := s.live } }) ∧
    (s.hostTurn (wrReg s.params .cmd v) s0 → s.status.busy = true →
      step s = .next { s0 with status := { s.status with werr := true } }) ∧
    (s.hostTurn (rdReg s.params .cmd) s0 → step s = .next { s0 with rdata := some (byteLanes 0) }) ∧
    (v.extractLsb' 32 32 ≠ 0 → ∃ e, decode v = .error e)

/-- R63: a limb written with BUSY = 0 reads back whole at the next access, and every other limb of both buffers is as before. -/
def Obligations.WrittenLimbReadsBack : Prop :=
  ∀ (s : State) (buf : Buffer) (i : Nat) (v : Word) (rest : List HostOp),
    s.rst = false → s.status.busy = false → s.inflight = none → i < s.lmax →
    s.hostOps = wrReg s.params (.limb buf i) v :: rdReg s.params (.limb buf i) :: rest →
      ∃ t u, step s = .next t ∧ step t = .next u ∧ u.rdata = some (byteLanes v) ∧
        ∀ buf' j, (buf' ≠ buf ∨ j ≠ i) → Limbs.read (u.buffer buf') j = Limbs.read (s.buffer buf') j

/-- R61: byte k of an access carries bits 8k+7 to 8k. A write of eight bytes to a limb stores the word with byte k in those bits, and
is the write of that word to any register; a read of a register returns eight bytes, byte k those bits of its value. -/
def Obligations.ByteLanesAreLittleEndian : Prop :=
  (∀ (s s0 : State) (buf : Buffer) (i : Nat) (bytes : List Byte),
    s.rst = false → s.status.busy = false → i < s.lmax → bytes.length = 8 →
    s.hostTurn (.wr (s.base + (if buf = .a then 0x10000 else 0x20000) + 8 * i) bytes) s0 →
      ∃ t v, step s = .next t ∧ Limbs.read (t.buffer buf) i = some v ∧
        ∀ k < 8, v.extractLsb' (8 * k) 8 = bytes.getD k 0) ∧
  (∀ (p : Params) (r : Reg) (bytes : List Byte), bytes.length = 8 →
    ∃ v : Word, HostOp.wr (p.base + r.offset) bytes = wrReg p r v ∧ ∀ k < 8, v.extractLsb' (8 * k) 8 = bytes.getD k 0) ∧
  ∀ (s s0 : State) (r : Reg) (v : Word),
    s.rst = false → s.status.busy = false → r.mapped s.lmax → regValue s r = .ok v → s.hostTurn (rdReg s.params r) s0 →
      ∃ t bytes, step s = .next t ∧ t.rdata = some bytes ∧ bytes.length = 8 ∧
        ∀ k < 8, bytes.getD k 0 = v.extractLsb' (8 * k) 8

/-- R93: `wait` reads STATUS; the host goes on past it exactly when the BUSY bit it read is 0. -/
def Obligations.WaitPollsBusy : Prop :=
  ∀ s s0 : State, s.rst = false → s.hostTurn .wait s0 →
    step s = .next { s0 with
      rdata := some (byteLanes s.status.toWord),
      hostOps := if s.status.busy then .wait :: s0.hostOps else s0.hostOps }

/-! ## STATUS and IRQ (10_state.md R24, R41, 60_exceptions.md R216) -/

/-- R24: the layout STATUS is read in, with the number of each outcome code (60_exceptions.md R201) in bits 15:8; what an issue, a
completion, the host's write-1-to-clear, a dropped write and reset set it to; and that nothing else changes it. -/
def Obligations.OnlyFiveEventsChangeStatus : Prop :=
  (∀ st : Status,
    st.toWord.getLsbD 0 = st.busy ∧ st.toWord.getLsbD 1 = st.done ∧ st.toWord.getLsbD 2 = st.werr ∧
      st.toWord.extractLsb' 3 5 = 0 ∧ st.toWord.extractLsb' 8 8 = BitVec.ofNat 8 st.err.toNat ∧
      st.toWord.extractLsb' 16 48 = 0) ∧
  (ErrCode.toNat .none = 0x00 ∧ ErrCode.toNat .divByZero = 0x01 ∧ ErrCode.toNat .precond = 0x02 ∧
    ErrCode.toNat .valueTooLarge = 0x03 ∧ ErrCode.toNat .valueNegative = 0x04 ∧ ErrCode.toNat .notANumber = 0x05 ∧
    ErrCode.toNat .illegal = 0x06) ∧
  (∀ (s t s0 : State) (v : Word), s.rst = false → step s = .next t →
    (s.hostTurn (wrReg s.params .cmd v) s0 → s.status.busy = false →
      t.status = { busy := true, done := false, werr := s.status.werr, err := .none }) ∧
    (∀ f, s.blockTurn f s0 →
      ∃ code, t.status = { busy := false, done := true, werr := s.status.werr, err := code }) ∧
    (s.hostTurn (wrReg s.params .status v) s0 →
      t.status = { s.status with done := s.status.done && !v.getLsbD 1, werr := s.status.werr && !v.getLsbD 2 }) ∧
    (∀ r, (r = .cmd ∨ r = .nlen ∨ r = .dlen ∨ r = .bits ∨ r = .fin ∨ ∃ buf i, r = .limb buf i) → r.mapped s.lmax →
      s.hostTurn (wrReg s.params r v) s0 → s.status.busy = true → t.status = { s.status with werr := true }) ∧
    (s.hostTurn .assertReset s0 → t.status = { busy := false, done := false, werr := false, err := .none })) ∧
  ∀ s t : State, step s = .next t →
    t.status = s.status ∨
    (∃ v s0, s.hostTurn (wrReg s.params .cmd v) s0 ∧ s.status.busy = false ∧
      t.status = { busy := true, done := false, werr := s.status.werr, err := .none }) ∨
    (∃ f s0 code, s.blockTurn f s0 ∧ t.status = { busy := false, done := true, werr := s.status.werr, err := code }) ∨
    (∃ v s0, s.hostTurn (wrReg s.params .status v) s0 ∧
      t.status = { s.status with done := s.status.done && !v.getLsbD 1, werr := s.status.werr && !v.getLsbD 2 }) ∨
    (∃ r v s0, s.hostTurn (wrReg s.params r v) s0 ∧ s.status.busy = true ∧
      (r = .cmd ∨ r = .nlen ∨ r = .dlen ∨ r = .bits ∨ r = .fin ∨ ∃ buf i, r = .limb buf i) ∧
      t.status = { s.status with werr := true }) ∨
    (∃ s0, s.hostTurn .assertReset s0 ∧ t.status = { busy := false, done := false, werr := false, err := .none })

/-- R41, R216: IRQ is CTRL.IE and STATUS.DONE; it rises only in a completion or a CTRL write that sets IE, and falls only in a
STATUS or CTRL write, an issue, or reset. The rise in a CTRL write with DONE still pending follows from R41. -/
def Obligations.IrqChangesOnlyWithDoneOrEnable : Prop :=
  ∀ s t : State, step s = .next t →
    (s.irq = false → t.irq = true →
      (∃ f s0, s.blockTurn f s0 ∧ s.ie = true) ∨
      (∃ v s0, s.hostTurn (wrReg s.params .ctrl v) s0 ∧ v.getLsbD 0 = true ∧ s.status.done = true)) ∧
    (s.irq = true → t.irq = false →
      (∃ v s0, s.hostTurn (wrReg s.params .status v) s0 ∧ v.getLsbD 1 = true) ∨
      (∃ v s0, s.hostTurn (wrReg s.params .ctrl v) s0 ∧ v.getLsbD 0 = false) ∨
      (∃ v s0, s.hostTurn (wrReg s.params .cmd v) s0 ∧ s.status.busy = false) ∨
      ∃ s0, s.hostTurn .assertReset s0)

/-! ## Completions in general (60_exceptions.md R200, R209-R214, 20_memory.md R70, R72) -/

/-- R200: every command, legal or not, that completes ends with one `finish`: BUSY = 0, DONE = 1, nothing in flight, WERR as it was;
and none is refused. -/
def Obligations.EveryCompletionEndsTheCommand : Prop :=
  ∀ (f : InFlight) (s : State),
    (∀ t, complete f s = .next t →
      t.status.busy = false ∧ t.status.done = true ∧ t.status.werr = s.status.werr ∧ t.inflight = none) ∧
    ∀ r, complete f s ≠ .refused r

/-- R114, R117, R209, R232: a completion stops only on an unwritten limb in the ranges its command reads. No internal bound of
Algorithm D is ever broken. -/
def Obligations.CompletionStopsOnlyOnUnwrittenLimbs : Prop :=
  ∀ (f : InFlight) (s : State) (φ : Fault), complete f s = .fault φ →
    ∃ i buf j, decode f.word = .ok i ∧ φ = .unwrittenLimb buf j ∧ s.operands.reads i buf j ∧
      Limbs.read (s.operands.buffer buf) j = none

/-- R211: DIV_BY_ZERO, PRECOND and ILLEGAL change only STATUS (and end the command in flight). -/
def Obligations.FatalOutcomesChangeOnlyStatus : Prop :=
  ∀ (f : InFlight) (s t : State), complete f s = .next t →
    (t.status.err = .divByZero ∨ t.status.err = .precond ∨ t.status.err = .illegal) →
      t = { s with
        status := { busy := false, done := true, werr := s.status.werr, err := t.status.err }, inflight := none }

/-- R205 to R207, R212: the recoverable codes are raised only by F2U64.TRY and F2U32.TRY, and besides STATUS leave only EWIDTH, which
is BITS, and A[0..L-1]. -/
def Obligations.RecoverableOutcomesCarryThePayload : Prop :=
  ∀ (f : InFlight) (s t : State), complete f s = .next t →
    (t.status.err = .valueTooLarge ∨ t.status.err = .valueNegative ∨ t.status.err = .notANumber) →
      (decode f.word = .ok .f2u64Try ∨ decode f.word = .ok .f2u32Try) ∧
      t.ewidth = s.operands.bits ∧
      (∀ i, limbCount s.operands.bits.toNat ≤ i → Limbs.read t.a i = Limbs.read s.a i) ∧
      s.sameButResults t ∧ t.b = s.b ∧ t.fres = s.fres ∧ t.deff = s.deff ∧ t.est = s.est

/-- R34 to R37: FRES, DEFF, EWIDTH and EST change only in the completion of their own commands, or at reset. -/
def Obligations.ResultRegistersHaveOneWriter : Prop :=
  ∀ s t : State, step s = .next t →
    (t.fres ≠ s.fres → (∃ s0, s.hostTurn .assertReset s0) ∨
      ∃ f s0, s.blockTurn f s0 ∧ (decode f.word = .ok .u2f64 ∨ decode f.word = .ok .u2f32)) ∧
    (t.deff ≠ s.deff → (∃ s0, s.hostTurn .assertReset s0) ∨ ∃ f s0, s.blockTurn f s0 ∧ decode f.word = .ok .div) ∧
    (t.est ≠ s.est → (∃ s0, s.hostTurn .assertReset s0) ∨ ∃ f s0, s.blockTurn f s0 ∧ decode f.word = .ok .est3x2) ∧
    (t.ewidth ≠ s.ewidth → (∃ s0, s.hostTurn .assertReset s0) ∨
      ∃ f s0, s.blockTurn f s0 ∧ ∃ i, decode f.word = .ok i ∧ (i.opcode = .f2u64 ∨ i.opcode = .f2u32))

/-- R70: no move of the host but reset alters a command in flight or, with BUSY = 1, the operands it was issued on. -/
def Obligations.HostCannotAlterACommandInFlight : Prop :=
  ∀ (s t s0 : State) (op : HostOp) (f : InFlight),
    s.inflight = some f → s.status.busy = true → s.hostTurn op s0 → op ≠ .assertReset → step s = .next t →
      t.inflight = some f ∧ t.live = s.live

/-- R72: the outcome of a completion depends on nothing of the operands but the ranges and registers the command's rule names. -/
def Obligations.CommandsReadOnlyTheirOperands : Prop :=
  ∀ (s : State) (w w' : Word) (o o' : Operands),
    let run := fun i => exec i { s with inflight := some { word := w, operands := o } }
    let run' := fun i => exec i { s with inflight := some { word := w', operands := o' } }
    (o'.nlen = o.nlen → o'.dlen = o.dlen →
      (∀ i < o.nlen.toNat, Limbs.read o'.a i = Limbs.read o.a i) →
      (∀ i < o.dlen.toNat, Limbs.read o'.b i = Limbs.read o.b i) → run' .div = run .div) ∧
    ((∀ i < 3, Limbs.read o'.a i = Limbs.read o.a i) →
      (∀ i < 2, Limbs.read o'.b i = Limbs.read o.b i) → run' .est3x2 = run .est3x2) ∧
    (o'.bits = o.bits → o'.fin = o.fin →
      run' .f2u64Try = run .f2u64Try ∧ run' .f2u64Sat = run .f2u64Sat ∧ run' .f2u64Wrap = run .f2u64Wrap) ∧
    (o'.bits = o.bits → o'.fin.extractLsb' 0 32 = o.fin.extractLsb' 0 32 →
      run' .f2u32Try = run .f2u32Try ∧ run' .f2u32Sat = run .f2u32Sat ∧ run' .f2u32Wrap = run .f2u32Wrap) ∧
    (o'.bits = o.bits → (∀ i < limbCount o.bits.toNat, Limbs.read o'.a i = Limbs.read o.a i) →
      run' .u2f64 = run .u2f64 ∧ run' .u2f32 = run .u2f32)

/-! ## DIV (40_division.md) -/

/-- R102: the checks of DIV in their order, m being the effective length of the divisor; each failure writes nothing else. That a
failed check needs no more limbs written than it reads, so that limbs of A in range may be unwritten, is the model's choice (log
entry 9, DEDUCED). -/
def Obligations.DivChecksInOrder : Prop :=
  ∀ s : State,
    let n := s.operands.nlen.toNat
    let d := s.operands.dlen.toNat
    ((s.lmax < n ∨ s.lmax < d) → exec .div s = .next (s.finish .precond)) ∧
    ∀ m, n ≤ s.lmax → d ≤ s.lmax → Limbs.Written s.operands.b d → IsEffLength (Limbs.values s.operands.b d) m →
      (m = 0 → exec .div s = .next (s.finish .divByZero)) ∧
      (m = 1 → n < 1 → exec .div s = .next (s.finish .precond)) ∧
      (2 ≤ m → n < m + 2 → exec .div s = .next (s.finish .precond)) ∧
      (2 ≤ m → m + 2 ≤ n → ∀ g, Limbs.read s.operands.a (n - 1) = some g → g ≠ 0 →
        exec .div s = .next (s.finish .precond))

/-- R103, R112, R113: DIV with one effective divisor limb and its checks passed: the quotient's limbs over all of A[0..NLEN-1], the
remainder in B[0], DEFF = 1, code NONE, nothing else. -/
def Obligations.DivSingleLimbResult : Prop :=
  ∀ s : State,
    let n := s.operands.nlen.toNat
    let d := s.operands.dlen.toNat
    let N := Limbs.val s.operands.a n
    let D := Limbs.val s.operands.b d
    n ≤ s.lmax → d ≤ s.lmax → Limbs.Written s.operands.a n → Limbs.Written s.operands.b d →
    IsEffLength (Limbs.values s.operands.b d) 1 → 1 ≤ n →
      exec .div s = .next ((((s.writeA (toLimbs n (N / D))).writeB [N % D]).setDeff 1).finish .none)

/-- R104 to R113: DIV with m ≥ 2 effective divisor limbs and its checks passed: the remainder in A[0..m-1] and in B[0..m-1], the
quotient in A[m..NLEN-1], DEFF = m, code NONE, nothing else. Algorithm D meets no defect. -/
def Obligations.DivMultiLimbResult : Prop :=
  ∀ (s : State) (m : Nat),
    let n := s.operands.nlen.toNat
    let d := s.operands.dlen.toNat
    let N := Limbs.val s.operands.a n
    let D := Limbs.val s.operands.b d
    n ≤ s.lmax → d ≤ s.lmax → Limbs.Written s.operands.a n → Limbs.Written s.operands.b d →
    IsEffLength (Limbs.values s.operands.b d) m → 2 ≤ m → m + 2 ≤ n → Limbs.read s.operands.a (n - 1) = some 0 →
      exec .div s = .next ((((s.writeA (toLimbs m (N % D) ++ toLimbs (n - m) (N / D))).writeB (toLimbs m (N % D))).setDeff m).finish
        .none)

/-- R112: what DIV with ERR = NONE leaves, by its two paths, in the terms of the values in the buffers afterwards; Q·D + R = N and
0 ≤ R < D. -/
def Obligations.DivLeavesQuotientAndRemainder : Prop :=
  ∀ (s : State) (m : Nat), s.Inv →
    let n := s.operands.nlen.toNat
    let d := s.operands.dlen.toNat
    let N := Limbs.val s.operands.a n
    let D := Limbs.val s.operands.b d
    n ≤ s.lmax → d ≤ s.lmax → Limbs.Written s.operands.a n → Limbs.Written s.operands.b d →
    IsEffLength (Limbs.values s.operands.b d) m → 1 ≤ m → 1 ≤ n →
    (2 ≤ m → m + 2 ≤ n ∧ Limbs.read s.operands.a (n - 1) = some 0) →
      ∃ t, exec .div s = .next t ∧ t.status.err = .none ∧ t.deff.toNat = m ∧
        (m = 1 → Limbs.val t.a n = N / D ∧ Limbs.val t.b 1 = N % D) ∧
        (2 ≤ m → limbsVal ((Limbs.values t.a n).drop m) = N / D ∧ Limbs.val t.a m = N % D ∧ Limbs.val t.b m = N % D) ∧
        Limbs.val t.b d = N % D ∧ N / D * D + N % D = N ∧ N % D < D

/-- R101: what DIV leaves unchanged: every limb of A at or above NLEN and of B at or above DLEN, and every register but DEFF and
STATUS; DEFF too where the code is not NONE (R113). -/
def Obligations.DivFrame : Prop :=
  ∀ s t : State, exec .div s = .next t →
    s.sameButResults t ∧ t.fres = s.fres ∧ t.ewidth = s.ewidth ∧ t.est = s.est ∧ t.status.werr = s.status.werr ∧
      (∀ i, s.operands.nlen.toNat ≤ i → Limbs.read t.a i = Limbs.read s.a i) ∧
      (∀ i, s.operands.dlen.toNat ≤ i → Limbs.read t.b i = Limbs.read s.b i) ∧
      (t.status.err ≠ .none → t.deff = s.deff ∧ t.a = s.a ∧ t.b = s.b)

/-- R119: for a divisor B[0..DLEN-1] whose only nonzero limb is B[0], DIV gives the same A, the same val(B, DLEN) and DEFF = 1 whatever
DLEN ≥ 1 is and whatever the limbs of B at or above DLEN hold. Two states, in flight or not, with the same numerator; with nothing
in flight exec takes the live registers by the model's choice (log entry 14, DESIGN CHOICE). -/
def Obligations.DivPaddedDivisorAgrees : Prop :=
  ∀ (s1 s2 : State) (b0 : Word),
    s1.Inv → s2.Inv → s1.operands.nlen = s2.operands.nlen → s1.a = s2.a → 1 ≤ s1.operands.nlen.toNat → b0 ≠ 0 →
    (∀ s ∈ [s1, s2], s.operands.nlen.toNat ≤ s.lmax ∧ Limbs.Written s.operands.a s.operands.nlen.toNat ∧
      1 ≤ s.operands.dlen.toNat ∧ s.operands.dlen.toNat ≤ s.lmax ∧ Limbs.read s.operands.b 0 = some b0 ∧
      ∀ i, 1 ≤ i → i < s.operands.dlen.toNat → Limbs.read s.operands.b i = some 0) →
      ∃ t1 t2, exec .div s1 = .next t1 ∧ exec .div s2 = .next t2 ∧ t1.status.err = .none ∧ t2.status.err = .none ∧
        t1.a = t2.a ∧ Limbs.val t1.b s1.operands.dlen.toNat = Limbs.val t2.b s2.operands.dlen.toNat ∧
        t1.deff = 1 ∧ t2.deff = 1

/-! ## EST3X2 (40_division.md R106, R120) -/

/-- R120: EST3X2's check and result. A divisor that is not normalized, or a window above the divisor, is PRECOND and nothing else;
otherwise EST is the estimator's digit, which is min(β - 1, floor(N3 / D2)) by R106's derived sentence. All five limbs are
written. -/
def Obligations.Est3x2Result : Prop :=
  ∀ (s : State) (n0 n1 n2 d0 d1 : Word),
    Limbs.read s.operands.a 0 = some n0 → Limbs.read s.operands.a 1 = some n1 → Limbs.read s.operands.a 2 = some n2 →
    Limbs.read s.operands.b 0 = some d0 → Limbs.read s.operands.b 1 = some d1 →
      exec .est3x2 s =
        if d1.toNat < 2 ^ 63 ∨ n2.toNat * 2 ^ 64 + n1.toNat > d1.toNat * 2 ^ 64 + d0.toNat then
          .next (s.finish .precond)
        else
          .next ((s.setEst (min (2 ^ 64 - 1)
            ((n2.toNat * 2 ^ 128 + n1.toNat * 2 ^ 64 + n0.toNat) / (d1.toNat * 2 ^ 64 + d0.toNat)))).finish .none)

/-- R106, R120: where the window's top limb equals the divisor's, EST is β - 1 or β - 2, and β - 1 exactly where the residual
d0·β - (n1·β + n0) is at most D2. -/
def Obligations.Est3x2SpecialBranch : Prop :=
  ∀ (s : State) (n0 n1 d0 d1 : Word),
    Limbs.read s.operands.a 0 = some n0 → Limbs.read s.operands.a 1 = some n1 → Limbs.read s.operands.a 2 = some d1 →
    Limbs.read s.operands.b 0 = some d0 → Limbs.read s.operands.b 1 = some d1 →
    2 ^ 63 ≤ d1.toNat → n1.toNat ≤ d0.toNat →
      ∃ t, exec .est3x2 s = .next t ∧ t.status.err = .none ∧
        ((d0.toNat * 2 ^ 64 : Int) - (n1.toNat * 2 ^ 64 + n0.toNat) ≤ d1.toNat * 2 ^ 64 + d0.toNat →
          t.est = 0xFFFFFFFFFFFFFFFF) ∧
        (¬ (d0.toNat * 2 ^ 64 : Int) - (n1.toNat * 2 ^ 64 + n0.toNat) ≤ d1.toNat * 2 ^ 64 + d0.toNat →
          t.est = 0xFFFFFFFFFFFFFFFE)

/-- R120, R175, R176, 10_state.md R34, R37: what EST3X2, U2F64 and U2F32 leave unchanged: both buffers, and every register but EST
(EST3X2) or FRES (the U2F commands) and STATUS. -/
def Obligations.EstAndOutboundFrame : Prop :=
  ∀ s t : State, ∀ i ∈ [Instr.est3x2, .u2f64, .u2f32], exec i s = .next t →
    s.sameButResults t ∧ t.a = s.a ∧ t.b = s.b ∧ t.deff = s.deff ∧ t.ewidth = s.ewidth ∧
      t.status.werr = s.status.werr ∧ (i = .est3x2 → t.fres = s.fres) ∧ (i ≠ .est3x2 → t.est = s.est) ∧
      (t.status.err ≠ .none → t.fres = s.fres ∧ t.est = s.est)

/-! ## The conversions' shared check (41_float_to_fixed.md R145) -/

/-- R145: a conversion with BITS > 64·LMAX ends with PRECOND and changes nothing else, whatever FIN holds. -/
def Obligations.ConversionWidthCheck : Prop :=
  ∀ (s : State) (i : Instr), i ≠ .div → i ≠ .est3x2 → 64 * s.lmax < s.operands.bits.toNat →
    exec i s = .next (s.finish .precond)

/-! ## F2U64 and F2U32 (41_float_to_fixed.md) -/

/-- R149, R150: the mantissa alignment computes floor(M·2^e + 1/2) exactly. -/
def Obligations.RoundingIsExactHalfUp : Prop :=
  ∀ (m : Nat) (e : Int), roundHalfUp m e = ⌊(m : ℚ) * (2 : ℚ) ^ e + 1 / 2⌋₊

/-- R146 to R155: F2U64.TRY and F2U32.TRY with BITS in range, for every class of the operand: the value in A[0..L-1], EWIDTH and the
code, nothing else. r is floor(|x| + 1/2) over the rationals. -/
def Obligations.InboundTryResult : Prop :=
  ∀ (s : State) (i : Instr) (fmt : Format) (x : Nat),
    (i, fmt, x) ∈ [(Instr.f2u64Try, binary64, s.operands.fin.toNat),
      (Instr.f2u32Try, binary32, (s.operands.fin.extractLsb' 0 32).toNat)] →
    s.operands.bits.toNat ≤ 64 * s.lmax →
      let w := s.operands.bits.toNat
      let r := fmt.rounded x
      let put := fun v ew code => (((s.writeA (toLimbs (limbCount w) v)).setEwidth ew).finish code)
      exec i s = .next
        (match fmt.classOf x with
        | .nan => put 0 w .notANumber
        | .infinity => if fmt.sign x then put 0 w .valueNegative else put 0 w .valueTooLarge
        | .zero => put 0 0 .none
        | .subnormal | .normal =>
          if fmt.sign x then put ((2 ^ w - r % 2 ^ w) % 2 ^ w) w .valueNegative
          else if 2 ^ w ≤ r then put (r % 2 ^ w) w .valueTooLarge
          else put r 0 .none)

/-- R156: F2U64.SAT and F2U32.SAT with BITS in range: the value, 2^BITS - 1 where it is too large, 0 where it is negative or not a
number; EWIDTH = 0 and code NONE always. -/
def Obligations.InboundSatResult : Prop :=
  ∀ (s : State) (i : Instr) (fmt : Format) (x : Nat),
    (i, fmt, x) ∈ [(Instr.f2u64Sat, binary64, s.operands.fin.toNat),
      (Instr.f2u32Sat, binary32, (s.operands.fin.extractLsb' 0 32).toNat)] →
    s.operands.bits.toNat ≤ 64 * s.lmax →
      let w := s.operands.bits.toNat
      let put := fun v => (((s.writeA (toLimbs (limbCount w) v)).setEwidth 0).finish .none)
      exec i s = .next
        (match fmt.classOf x with
        | .nan => put 0
        | .infinity => if fmt.sign x then put 0 else put (2 ^ w - 1)
        | .zero => put 0
        | .subnormal | .normal =>
          if fmt.sign x then put 0 else put (min (fmt.rounded x) (2 ^ w - 1)))

/-- R157: F2U64.WRAP and F2U32.WRAP with BITS in range: the rounded value mod 2^BITS, negated mod 2^BITS for a negative operand, 0 for
NaN and the infinities; EWIDTH = 0 and code NONE always. -/
def Obligations.InboundWrapResult : Prop :=
  ∀ (s : State) (i : Instr) (fmt : Format) (x : Nat),
    (i, fmt, x) ∈ [(Instr.f2u64Wrap, binary64, s.operands.fin.toNat),
      (Instr.f2u32Wrap, binary32, (s.operands.fin.extractLsb' 0 32).toNat)] →
    s.operands.bits.toNat ≤ 64 * s.lmax →
      let w := s.operands.bits.toNat
      let put := fun v => (((s.writeA (toLimbs (limbCount w) v)).setEwidth 0).finish .none)
      exec i s = .next
        (match fmt.classOf x with
        | .nan | .infinity | .zero => put 0
        | .subnormal | .normal =>
          if fmt.sign x then put ((-(fmt.rounded x : Int) % (2 ^ w : Nat)).toNat) else put (fmt.rounded x % 2 ^ w))

/-- R144: an operand of F2U32 and one of F2U64 with the same value (both NaN, infinities of one sign, or finite with one sign and one
exact magnitude) have the same outcome, kind and payload. -/
def Obligations.Binary32AgreesWithBinary64 : Prop :=
  ∀ (x y width : Nat),
    ((binary32.classOf x = .nan ∧ binary64.classOf y = .nan) ∨
      (binary32.classOf x = .infinity ∧ binary64.classOf y = .infinity ∧ binary32.sign x = binary64.sign y) ∨
      (binary32.finite x ∧ binary64.finite y ∧ binary32.sign x = binary64.sign y ∧
        binary32.magnitude x = binary64.magnitude y)) →
      classifyAndRound binary32 x width = classifyAndRound binary64 y width

/-- R158, 10_state.md R45: what the six F2U commands write with BITS in range is canonical: A[0..L-1] is below 2^BITS. -/
def Obligations.InboundResultIsCanonical : Prop :=
  ∀ (s t : State) (i : Instr), (i.opcode = .f2u64 ∨ i.opcode = .f2u32) →
    s.operands.bits.toNat ≤ 64 * s.lmax → exec i s = .next t →
      Limbs.Written t.a (limbCount s.operands.bits.toNat) ∧
        Limbs.val t.a (limbCount s.operands.bits.toNat) < 2 ^ s.operands.bits.toNat

/-- R158: what the six F2U commands leave unchanged: A[L..LMAX-1], all of B, and every register but EWIDTH and STATUS. -/
def Obligations.InboundFrame : Prop :=
  ∀ (s t : State) (i : Instr), (i.opcode = .f2u64 ∨ i.opcode = .f2u32) → exec i s = .next t →
    s.sameButResults t ∧ t.b = s.b ∧ t.fres = s.fres ∧ t.deff = s.deff ∧ t.est = s.est ∧
      t.status.werr = s.status.werr ∧
      (∀ j, limbCount s.operands.bits.toNat ≤ j → Limbs.read t.a j = Limbs.read s.a j)

/-! ## U2F64 and U2F32 (42_fixed_to_float.md) -/

/-- R175, R176: U2F64 and U2F32 on a canonical operand with BITS in range: FRES is the converted pattern of X = val(A, L), code NONE,
nothing else. BITS = 0 reads no limb and gives +0.0 (R178). -/
def Obligations.OutboundResult : Prop :=
  ∀ (s : State) (i : Instr) (fmt : Format), (i, fmt) ∈ [(Instr.u2f64, binary64), (Instr.u2f32, binary32)] →
    let w := s.operands.bits.toNat
    let X := Limbs.val s.operands.a (limbCount w)
    w ≤ 64 * s.lmax → Limbs.Written s.operands.a (limbCount w) → X < 2 ^ w →
      exec i s = .next ((s.setFres (convertOutbound fmt X)).finish .none)

/-- R177: a set bit at position ≥ BITS in A[0..L-1] makes U2F64 and U2F32 end with PRECOND and write nothing else; limbs at or above L
are not read. -/
def Obligations.OutboundRefusesNonCanonical : Prop :=
  ∀ (s : State) (i : Instr), i ∈ [Instr.u2f64, Instr.u2f32] →
    let w := s.operands.bits.toNat
    w ≤ 64 * s.lmax → Limbs.Written s.operands.a (limbCount w) → 2 ^ w ≤ Limbs.val s.operands.a (limbCount w) →
      exec i s = .next (s.finish .precond)

/-- R170, R178, 10_state.md R34: the pattern of every X fits its format and is +0.0 exactly for X = 0, else a positive normal number
or +∞: never negative, subnormal or NaN. -/
def Obligations.OutboundPatternClass : Prop :=
  ∀ (X : Nat) (fmt : Format) (width : Nat), (fmt, width) ∈ [(binary64, 64), (binary32, 32)] →
    convertOutbound fmt X < 2 ^ width ∧ fmt.sign (convertOutbound fmt X) = false ∧
      (convertOutbound fmt X = 0 ↔ X = 0) ∧
      (X ≠ 0 → fmt.classOf (convertOutbound fmt X) = .normal ∨ fmt.classOf (convertOutbound fmt X) = .infinity)

/-- R172 to R174: where the pattern of X > 0 is not +∞, it is the exact encoding of the rounded 64-bit window, scaled. -/
def Obligations.OutboundValueIsTheRoundedWindow : Prop :=
  ∀ (X : Nat) (fmt : Format), fmt ∈ [binary64, binary32] → X ≠ 0 → convertOutbound fmt X ≠ fmt.infinity →
    fmt.magnitude (convertOutbound fmt X) = (rne fmt.precision (window X) * 2 ^ windowExp X : Nat)

/-- R173, R181: the pattern is +∞ exactly from the point halfway between the largest finite value and 2^(emax+1) on. -/
def Obligations.OutboundOverflowThreshold : Prop :=
  ∀ (X : Nat) (fmt : Format), fmt ∈ [binary64, binary32] →
    (convertOutbound fmt X = fmt.infinity ↔ 2 ^ (fmt.emax + 1) - 2 ^ (fmt.emax - fmt.precision) ≤ X)

/-- R170, R180: for bitlen(X) ≤ 64 the result is correctly rounded: no finite pattern's magnitude is nearer to X, and where another one
is as near, the result's mantissa is even. -/
def Obligations.OutboundNarrowIsCorrectlyRounded : Prop :=
  ∀ (X y : Nat) (fmt : Format), fmt ∈ [binary64, binary32] → X < 2 ^ 64 → fmt.finite y →
    fmt.finite (convertOutbound fmt X) ∧
      |fmt.magnitude (convertOutbound fmt X) - X| ≤ |fmt.magnitude y - X| ∧
      (|fmt.magnitude (convertOutbound fmt X) - X| = |fmt.magnitude y - X| →
        fmt.magnitude y = fmt.magnitude (convertOutbound fmt X) ∨ fmt.mantissa (convertOutbound fmt X) % 2 = 0)

/-! ## The register map and the unwritten limbs, in numerals (10_state.md R22, 70_reset_and_hazards.md R232) -/

/-- R22, R93: the register or limb at each offset of the map, both ways, and the offsets the map gives nothing. -/
def Obligations.RegisterMapInNumerals : Prop :=
  ∀ p : Params,
    let at_ := fun (off : Nat) (r : Reg) =>
      portTarget p (p.base + off) 8 = .ok r ∧ rdReg p r = .rd (p.base + off) 8 ∧
        ∀ v, wrReg p r v = .wr (p.base + off) (byteLanes v)
    at_ 0x00000 .cap ∧ at_ 0x00008 .ctrl ∧ at_ 0x00010 .status ∧ at_ 0x00018 .cmd ∧ at_ 0x00020 .nlen ∧ at_ 0x00028 .dlen ∧
      at_ 0x00030 .bits ∧ at_ 0x00038 .fin ∧ at_ 0x00040 .fres ∧ at_ 0x00048 .deff ∧ at_ 0x00050 .ewidth ∧ at_ 0x00058 .est ∧
      (∀ i < p.lmax, at_ (0x10000 + 8 * i) (.limb .a i) ∧ at_ (0x20000 + 8 * i) (.limb .b i)) ∧
      ∀ off, (0x00060 ≤ off ∧ off ≤ 0x0FFFF) ∨ (0x10000 + 8 * p.lmax ≤ off ∧ off ≤ 0x1FFFF) ∨
          (0x20000 + 8 * p.lmax ≤ off ∧ off ≤ 0x2FFFF) ∨ (0x30000 ≤ off ∧ off ≤ 0x3FFFF) →
        portTarget p (p.base + off) 8 = .error (.busError (p.base + off) 8)

/-- R232: a command that reads an unwritten limb faults; it does not read it as zero. For each read of the pseudocode of R102 to
R104, R120 and R175 that the checks before it let happen. -/
def Obligations.ReadingAnUnwrittenLimbFaults : Prop :=
  ∀ s : State,
    let n := s.operands.nlen.toNat
    let d := s.operands.dlen.toNat
    let w := s.operands.bits.toNat
    let A := s.operands.a
    let B := s.operands.b
    (n ≤ s.lmax → d ≤ s.lmax →
      (¬ Limbs.Written B d → s.stopsUnwritten .div) ∧
      ∀ m, Limbs.Written B d → IsEffLength (Limbs.values B d) m → ¬ Limbs.Written A n →
        (m = 1 → s.stopsUnwritten .div) ∧
        (2 ≤ m → m + 2 ≤ n → Limbs.read A (n - 1) = none ∨ Limbs.read A (n - 1) = some 0 → s.stopsUnwritten .div)) ∧
    (Limbs.read B 1 = none → s.stopsUnwritten .est3x2) ∧
    (∀ d1, Limbs.read B 1 = some d1 → 2 ^ 63 ≤ d1.toNat →
      (Limbs.read A 2 = none ∨ Limbs.read A 1 = none ∨ Limbs.read B 0 = none → s.stopsUnwritten .est3x2) ∧
      ∀ n2 n1 d0, Limbs.read A 2 = some n2 → Limbs.read A 1 = some n1 → Limbs.read B 0 = some d0 →
        n2.toNat * 2 ^ 64 + n1.toNat ≤ d1.toNat * 2 ^ 64 + d0.toNat → Limbs.read A 0 = none → s.stopsUnwritten .est3x2) ∧
    ∀ i ∈ [Instr.u2f64, .u2f32], 1 ≤ w → w ≤ 64 * s.lmax →
      let L := limbCount w
      (Limbs.read A (L - 1) = none → s.stopsUnwritten i) ∧
      ∀ top, Limbs.read A (L - 1) = some top → top.toNat < 2 ^ (w - 64 * (L - 1)) → ¬ Limbs.Written A L → s.stopsUnwritten i
end

