-- ==== Sys2Proof/Laws/Arith.lean ====
section
/-! SUPPORT. The laws of the limb-sequence notation of 00_scope.md R12: `limbsVal`, `toLimbs`, `bitLen`, `clz64`. -/

namespace Sys2Proof.Machine

/-- Every limb of a sequence is below the radix. -/
abbrev AllLimbs (xs : List Nat) : Prop := ∀ x ∈ xs, x < radix

theorem radix_eq : radix = 2 ^ 64 := rfl

theorem radix_pos : 0 < radix := by norm_num [radix]

theorem AllLimbs.cons {x : Nat} {xs : List Nat} : AllLimbs (x :: xs) ↔ x < radix ∧ AllLimbs xs := by
  simp [AllLimbs]

theorem AllLimbs.append {xs ys : List Nat} : AllLimbs (xs ++ ys) ↔ AllLimbs xs ∧ AllLimbs ys := by
  simp only [AllLimbs, List.mem_append]
  exact ⟨fun h => ⟨fun x hx => h x (.inl hx), fun x hx => h x (.inr hx)⟩, fun h x hx => hx.elim (h.1 x) (h.2 x)⟩

theorem AllLimbs.take {xs : List Nat} (h : AllLimbs xs) (k : Nat) : AllLimbs (xs.take k) :=
  fun x hx => h x (List.mem_of_mem_take hx)

theorem AllLimbs.drop {xs : List Nat} (h : AllLimbs xs) (k : Nat) : AllLimbs (xs.drop k) :=
  fun x hx => h x (List.mem_of_mem_drop hx)

theorem AllLimbs.reverse {xs : List Nat} (h : AllLimbs xs) : AllLimbs xs.reverse :=
  fun x hx => h x (List.mem_reverse.1 hx)

theorem AllLimbs.getD {xs : List Nat} (h : AllLimbs xs) (i : Nat) : xs.getD i 0 < radix := by
  rcases lt_or_ge i xs.length with hi | hi
  · rw [List.getD_eq_getElem _ _ hi]
    exact h _ (List.getElem_mem hi)
  · rw [List.getD_eq_default _ _ hi]
    exact radix_pos

@[simp] theorem limbsVal_nil : limbsVal [] = 0 := rfl

@[simp] theorem limbsVal_cons (x : Nat) (xs : List Nat) : limbsVal (x :: xs) = x + radix * limbsVal xs := rfl

theorem limbsVal_append (xs ys : List Nat) : limbsVal (xs ++ ys) = limbsVal xs + radix ^ xs.length * limbsVal ys := by
  induction xs with
  | nil => simp
  | cons x xs ih => simp only [List.cons_append, limbsVal_cons, ih, List.length_cons, pow_succ]; ring

theorem limbsVal_lt {xs : List Nat} (h : AllLimbs xs) : limbsVal xs < radix ^ xs.length := by
  induction xs with
  | nil => simp
  | cons x xs ih =>
    rw [AllLimbs.cons] at h
    have h2 := ih h.2
    simp only [limbsVal_cons, List.length_cons, pow_succ]
    have h1 := h.1
    nlinarith

/-- A sequence splits at limb k. -/
theorem limbsVal_take_drop {xs : List Nat} {k : Nat} (h : k ≤ xs.length) :
    limbsVal xs = limbsVal (xs.take k) + radix ^ k * limbsVal (xs.drop k) := by
  conv_lhs => rw [← List.take_append_drop k xs]
  rw [limbsVal_append, List.length_take_of_le h]

@[simp] theorem length_toLimbs (k v : Nat) : (toLimbs k v).length = k := by
  induction k generalizing v with
  | zero => rfl
  | succ k ih => simp [toLimbs, ih]

theorem allLimbs_toLimbs (k v : Nat) : AllLimbs (toLimbs k v) := by
  induction k generalizing v with
  | zero => simp [toLimbs, AllLimbs]
  | succ k ih =>
    rw [toLimbs, AllLimbs.cons]
    exact ⟨Nat.mod_lt _ radix_pos, ih _⟩

/-- `val(limbs_k(v), k) = v mod 2^(64·k)`. -/
theorem limbsVal_toLimbs (k v : Nat) : limbsVal (toLimbs k v) = v % radix ^ k := by
  induction k generalizing v with
  | zero => simp [toLimbs, Nat.mod_one]
  | succ k ih => rw [toLimbs, limbsVal_cons, ih, pow_succ', Nat.mod_mul]

theorem limbsVal_toLimbs_of_lt {k v : Nat} (h : v < radix ^ k) : limbsVal (toLimbs k v) = v := by
  rw [limbsVal_toLimbs, Nat.mod_eq_of_lt h]

/-- `limbs_k(val(X, k)) = X[0..k-1]`. -/
theorem toLimbs_limbsVal {xs : List Nat} (h : AllLimbs xs) : toLimbs xs.length (limbsVal xs) = xs := by
  induction xs with
  | nil => rfl
  | cons x xs ih =>
    rw [AllLimbs.cons] at h
    rw [List.length_cons, limbsVal_cons, toLimbs, Nat.add_mul_mod_self_left, Nat.mod_eq_of_lt h.1,
      Nat.add_mul_div_left _ _ radix_pos, Nat.div_eq_of_lt h.1, zero_add, ih h.2]

theorem toLimbs_zero (k : Nat) : toLimbs k 0 = List.replicate k 0 := by
  induction k with
  | zero => rfl
  | succ k ih => simp [toLimbs, ih, List.replicate_succ]

@[simp] theorem bitLen_zero : bitLen 0 = 0 := rfl

theorem bitLen_of_pos {v : Nat} (h : v ≠ 0) : bitLen v = Nat.log2 v + 1 := if_neg h

/-- bitlen is the least k with v < 2^k. -/
theorem bitLen_le_iff (v k : Nat) : bitLen v ≤ k ↔ v < 2 ^ k := by
  by_cases h : v = 0
  · simp [h]
  · rw [bitLen_of_pos h, Nat.succ_le_iff, Nat.log2_lt h]

theorem lt_two_pow_bitLen (v : Nat) : v < 2 ^ bitLen v := (bitLen_le_iff v _).1 (le_refl _)

theorem two_pow_bitLen_le {v : Nat} (h : v ≠ 0) : 2 ^ (bitLen v - 1) ≤ v := by
  by_contra hn
  have h1 := (bitLen_le_iff v (bitLen v - 1)).2 (not_le.1 hn)
  have h2 : bitLen v ≠ 0 := by rw [bitLen_of_pos h]; omega
  omega

theorem bitLen_pos {v : Nat} (h : v ≠ 0) : 0 < bitLen v := by
  rw [bitLen_of_pos h]
  omega

/-- Normalizing a limb sets its top bit and keeps it a limb (40_division.md R104). -/
theorem clz64_normalizes {v : Nat} (h : v ≠ 0) (hv : v < radix) :
    2 ^ 63 ≤ v * 2 ^ clz64 v ∧ v * 2 ^ clz64 v < radix := by
  have h1 := two_pow_bitLen_le h
  have h2 := lt_two_pow_bitLen v
  have h3 := (bitLen_le_iff v 64).2 (by rwa [radix_eq] at hv)
  have h4 := bitLen_pos h
  have e1 : (2 : Nat) ^ 63 = 2 ^ (bitLen v - 1) * 2 ^ clz64 v := by
    rw [← pow_add]; congr 1; simp only [clz64]; omega
  have e2 : radix = 2 ^ bitLen v * 2 ^ clz64 v := by
    rw [← pow_add]; simp only [radix]; congr 1; simp only [clz64]; omega
  constructor
  · rw [e1]; exact Nat.mul_le_mul_right _ h1
  · rw [e2]; exact Nat.mul_lt_mul_of_pos_right h2 (by positivity)

end Sys2Proof.Machine
end

