-- ==== Sys2Proof/Laws/Division.lean ====
section
/-! SUPPORT. One spec lemma per function of the division engine (40_division.md): the estimator, multiply-and-subtract, add-back,
a digit position, the loop, and the two paths. -/

namespace Sys2Proof.Machine

/-! ## The single-limb path (R103) -/

/-- The loop of R103 divides r·β^i + the limbs still to come by d. -/
theorem divideSingle_spec {d : Nat} (hd : 0 < d) :
    ∀ (rest : List Nat) (r : Nat) (qs : List Nat), AllLimbs rest → r < d →
      ∃ q, divideSingle d rest r qs = (q ++ qs, (r * radix ^ rest.length + limbsVal rest.reverse) % d) ∧
        q.length = rest.length ∧ AllLimbs q ∧ limbsVal q = (r * radix ^ rest.length + limbsVal rest.reverse) / d := by
  intro rest
  induction rest with
  | nil =>
    intro r qs _ hr
    refine ⟨[], ?_, rfl, by simp [AllLimbs], ?_⟩ <;> simp [divideSingle, Nat.mod_eq_of_lt hr, Nat.div_eq_of_lt hr]
  | cons a rest ih =>
    intro r qs hrest hr
    rw [AllLimbs.cons] at hrest
    set acc := r * radix + a with hacc
    have hlt : acc / d < radix := by
      apply Nat.div_lt_of_lt_mul
      have := hrest.1
      nlinarith
    obtain ⟨q, h1, h2, h3, h4⟩ := ih (acc % d) (acc / d :: qs) hrest.2 (Nat.mod_lt _ hd)
    have hval : r * radix ^ (a :: rest).length + limbsVal (a :: rest).reverse =
        acc * radix ^ rest.length + limbsVal rest.reverse := by
      rw [List.reverse_cons, limbsVal_append, List.length_reverse, List.length_cons, pow_succ radix]
      simp only [limbsVal_cons, limbsVal_nil, hacc]
      ring
    have hsplit : acc * radix ^ rest.length + limbsVal rest.reverse =
        (acc % d * radix ^ rest.length + limbsVal rest.reverse) + d * (acc / d * radix ^ rest.length) := by
      conv_lhs => rw [← Nat.mod_add_div acc d]
      ring
    refine ⟨q ++ [acc / d], ?_, by simp [h2], ?_, ?_⟩
    · simp only [divideSingle, ← hacc, h1, hval, hsplit, Nat.add_mul_mod_self_left, List.append_assoc, List.singleton_append]
    · rw [AllLimbs.append]
      exact ⟨h3, by simpa [AllLimbs] using hlt⟩
    · rw [limbsVal_append, h4, hval, hsplit, Nat.add_mul_div_left _ _ hd, h2]
      simp only [limbsVal_cons, limbsVal_nil]
      ring

/-! ## The estimator (R106) -/

/-- A digit q with q·D2 ≤ N3 < (q+1)·D2 is min(β - 1, floor(N3 / D2)). -/
theorem digit_eq_min {β q n3 d2 : Nat} (hq : q < β) (h1 : q * d2 ≤ n3) (h2 : n3 < (q + 1) * d2) :
    q = min (β - 1) (n3 / d2) := by
  have : n3 / d2 = q := Nat.div_eq_of_lt_le h1 h2
  omega

/-- The special branch of R106, over any radix: n2 = d1. -/
theorem est_special {β n1 n0 d1 d0 : Nat} (hβ : 2 ≤ β) (hhalf : β ≤ 2 * d1) (hn0 : n0 < β) (hd0 : d0 < β) :
    (if ((d0 * β : Nat) : Int) - (n1 * β + n0 : Nat) ≤ (d1 * β + d0 : Nat) then β - 1 else β - 2) =
      min (β - 1) ((d1 * β ^ 2 + n1 * β + n0) / (d1 * β + d0)) := by
  have hd1pos : 0 < d1 := by omega
  have hD : 0 < d1 * β + d0 := by positivity
  obtain ⟨b, rfl⟩ : ∃ b, β = b + 2 := ⟨β - 2, by omega⟩
  split
  · rename_i hneg
    have hneg' : d0 * (b + 2) ≤ d1 * (b + 2) + d0 + (n1 * (b + 2) + n0) := by
      generalize d0 * (b + 2) = x at *
      generalize d1 * (b + 2) = y at *
      generalize n1 * (b + 2) = z at *
      omega
    refine (min_eq_left ?_).symm
    rw [Nat.le_div_iff_mul_le hD]
    have e : b + 2 - 1 = b + 1 := by omega
    rw [e]
    nlinarith
  · rename_i hneg
    have hneg' : d1 * (b + 2) + d0 + (n1 * (b + 2) + n0) < d0 * (b + 2) := by
      generalize d0 * (b + 2) = x at *
      generalize d1 * (b + 2) = y at *
      generalize n1 * (b + 2) = z at *
      omega
    have e : b + 2 - 2 = b := by omega
    rw [e]
    apply digit_eq_min (by omega)
    · have h1 : b * d0 ≤ (b + 2) * (b + 2) := Nat.mul_le_mul (by omega) (by omega)
      have h2 : (b + 2) * (b + 2) ≤ 2 * d1 * (b + 2) := Nat.mul_le_mul_right _ hhalf
      nlinarith
    · nlinarith

/-- The general branch of R106, over any radix, with (q, r) the 2-by-1 division: at most two decrements (R117 item 3). -/
theorem est_general {β q r n0 d1 d0 : Nat} (hhalf : β ≤ 2 * d1) (hn0 : n0 < β) (hd0 : d0 < β) (hq : q < β) (hr : r < d1) :
    (if q * d0 > r * β + n0 then
      if r + d1 < β ∧ (q - 1) * d0 > (r + d1) * β + n0 then q - 1 - 1 else q - 1
    else q) = min (β - 1) (((d1 * q + r) * β + n0) / (d1 * β + d0)) := by
  have hrβ : (r + 1) * β ≤ d1 * β := Nat.mul_le_mul_right _ hr
  have expand : ∀ t, t * (d1 * β + d0) = d1 * t * β + t * d0 := fun t => by ring
  have hN : (d1 * q + r) * β + n0 = d1 * q * β + r * β + n0 := by ring
  have hr1 : (r + 1) * β = r * β + β := by ring
  split
  · rename_i hc1
    obtain ⟨p, rfl⟩ : ∃ p, q = p + 1 := ⟨q - 1, by
      rcases Nat.eq_zero_or_pos q with rfl | h
      · simp at hc1
      · omega⟩
    have e1 : (p + 1) * d0 = p * d0 + d0 := by ring
    have e2 : d1 * (p + 1) * β = d1 * p * β + d1 * β := by ring
    have e3 : (r + d1) * β = r * β + d1 * β := by ring
    simp only [Nat.add_sub_cancel]
    split
    · rename_i hc2
      obtain ⟨t, rfl⟩ : ∃ t, p = t + 1 := ⟨p - 1, by
        rcases Nat.eq_zero_or_pos p with rfl | h
        · simp at hc2
        · omega⟩
      have e4 : (t + 1) * d0 = t * d0 + d0 := by ring
      have e5 : d1 * (t + 1) * β = d1 * t * β + d1 * β := by ring
      -- the third check could not succeed: r + 2·d1 ≥ β
      have h1 : t * d0 ≤ β * β := Nat.mul_le_mul (by omega) (by omega)
      have h2 : β * β ≤ 2 * d1 * β := Nat.mul_le_mul_right _ hhalf
      have h3 : 2 * d1 * β = d1 * β + d1 * β := by ring
      simp only [Nat.add_sub_cancel]
      apply digit_eq_min (by omega)
      · rw [expand, hN]; omega
      · rw [expand, hN]; omega
    · rename_i hc2
      apply digit_eq_min (by omega)
      · rw [expand, hN]
        by_cases hlt : r + d1 < β
        · have : ¬ p * d0 > (r + d1) * β + n0 := fun h => hc2 ⟨hlt, h⟩
          omega
        · have h1 : p * d0 ≤ β * β := Nat.mul_le_mul (by omega) (by omega)
          have h2 : β * β ≤ (r + d1) * β := Nat.mul_le_mul_right _ (by omega)
          omega
      · rw [expand, hN]; omega
  · rename_i hc1
    apply digit_eq_min hq
    · rw [expand, hN]; omega
    · have e1 : (q + 1) * d0 = q * d0 + d0 := by ring
      have e2 : d1 * (q + 1) * β = d1 * q * β + d1 * β := by ring
      rw [expand, hN]; omega

/-- `est3x2` = min(β - 1, floor(N3 / D2)) (R106). -/
theorem est3x2_spec {n2 n1 n0 d1 d0 : Nat} (h : EstPre n2 n1 d1 d0) (hn1 : n1 < radix) (hn0 : n0 < radix) (hd0 : d0 < radix) :
    est3x2 n2 n1 n0 d1 d0 = min (radix - 1) ((n2 * radix ^ 2 + n1 * radix + n0) / (d1 * radix + d0)) := by
  obtain ⟨hnorm, hle⟩ := h
  have hβ : radix = 2 * 2 ^ 63 := by norm_num [radix]
  have hhalf : radix ≤ 2 * d1 := by omega
  by_cases heq : n2 = d1
  · subst heq
    rw [est3x2, if_pos rfl]
    exact est_special (by norm_num [radix]) hhalf hn0 hd0
  · rw [est3x2, if_neg heq]
    have hlt : n2 + 1 ≤ d1 := by
      by_contra hcon
      have : (d1 + 1) * radix ≤ n2 * radix := Nat.mul_le_mul_right _ (by omega)
      have e : (d1 + 1) * radix = d1 * radix + radix := by ring
      omega
    have hu : n2 * radix + n1 < d1 * radix := by
      have : (n2 + 1) * radix ≤ d1 * radix := Nat.mul_le_mul_right _ hlt
      have e : (n2 + 1) * radix = n2 * radix + radix := by ring
      omega
    have hd1 : 0 < d1 := by omega
    have hgen := est_general hhalf hn0 hd0 (Nat.div_lt_of_lt_mul hu) (Nat.mod_lt (n2 * radix + n1) hd1)
    rw [Nat.div_add_mod] at hgen
    have hval : (n2 * radix + n1) * radix + n0 = n2 * radix ^ 2 + n1 * radix + n0 := by ring
    rw [hval] at hgen
    exact Eq.trans (by rfl) hgen

/-! ## Multiply-and-subtract and add-back (R108, R109) -/

theorem wrapSub_of_le {a b : Nat} (hb : b < radix) (ha : a < radix) (h : b ≤ a) : wrapSub a b = a - b := by
  rw [wrapSub, Nat.mod_eq_of_lt hb, show a + radix - b = a - b + radix by omega, Nat.add_mod_right, Nat.mod_eq_of_lt (by omega)]

theorem wrapSub_of_lt {a b : Nat} (hb : b < radix) (h : a < b) : wrapSub a b = a + radix - b := by
  rw [wrapSub, Nat.mod_eq_of_lt hb, Nat.mod_eq_of_lt (by omega)]

/-- `submul` on limbs: a + c'·β = t + q·b + c, and both results are limbs (R108, R117 item 4). -/
theorem submul_spec {a b q c : Nat} (ha : a < radix) (hb : b < radix) (hq : q < radix) (hc : c < radix) :
    (submul a b q c).1 < radix ∧ (submul a b q c).2 < radix ∧
      a + radix * (submul a b q c).2 = (submul a b q c).1 + q * b + c := by
  have hβ : 0 < radix := radix_pos
  have hp : q * b + c ≤ (radix - 1) * radix := by
    have h1 : q * b ≤ (radix - 1) * (radix - 1) := Nat.mul_le_mul (by omega) (by omega)
    have h2 : (radix - 1) * radix = (radix - 1) * (radix - 1) + (radix - 1) := by
      obtain ⟨r, hr⟩ : ∃ r, radix = r + 1 := ⟨radix - 1, by omega⟩
      rw [hr, Nat.add_sub_cancel]; ring
    omega
  have hdm := Nat.div_add_mod (q * b + c) radix
  have hlo : (q * b + c) % radix < radix := Nat.mod_lt _ hβ
  have hhi : (q * b + c) / radix < radix ∧ ((q * b + c) % radix ≠ 0 → (q * b + c) / radix + 1 < radix) := by
    generalize (q * b + c) / radix = hi at *
    generalize (q * b + c) % radix = lo at *
    generalize q * b + c = p at *
    have hle : hi ≤ radix - 1 := by
      by_contra hcon
      have : radix * radix ≤ radix * hi := Nat.mul_le_mul_left _ (by omega)
      have e : (radix - 1) * radix + radix = radix * radix := by
        obtain ⟨r, hr⟩ : ∃ r, radix = r + 1 := ⟨radix - 1, by omega⟩
        rw [hr, Nat.add_sub_cancel]; ring
      omega
    refine ⟨by omega, fun hne => ?_⟩
    by_contra hcon
    have e1 : hi = radix - 1 := by omega
    rw [e1, mul_comm] at hdm
    omega
  simp only [submul]
  generalize (q * b + c) / radix = hi at *
  generalize (q * b + c) % radix = lo at *
  split
  · rename_i hlt
    rw [wrapSub_of_lt hlo hlt, mul_add, mul_one]
    have := hhi.2 (by omega)
    omega
  · rw [wrapSub_of_le hlo ha (by omega), add_zero]
    omega

/-- The loop of `multiply_and_subtract`: window + c'·β^m = new limbs + q·divisor + c (R108). -/
theorem mulSub_spec {q : Nat} (hq : q < radix) :
    ∀ (as bs : List Nat) (c : Nat), as.length = bs.length → AllLimbs as → AllLimbs bs → c < radix →
      (mulSub q as bs c).1.length = bs.length ∧ AllLimbs (mulSub q as bs c).1 ∧ (mulSub q as bs c).2 < radix ∧
        limbsVal as + radix ^ bs.length * (mulSub q as bs c).2 =
          limbsVal (mulSub q as bs c).1 + q * limbsVal bs + c := by
  intro as
  induction as with
  | nil =>
    intro bs c hl _ _ hc
    obtain rfl : bs = [] := List.eq_nil_of_length_eq_zero hl.symm
    refine ⟨rfl, by simp [mulSub, AllLimbs], hc, ?_⟩
    simp [mulSub]
  | cons a as ih =>
    intro bs c hl has hbs hc
    cases bs with
    | nil => simp at hl
    | cons b bs =>
      rw [AllLimbs.cons] at has hbs
      obtain ⟨h1, h2, h3⟩ := submul_spec has.1 hbs.1 hq hc
      obtain ⟨h4, h5, h6, h7⟩ := ih bs (submul a b q c).2 (by simpa using hl) has.2 hbs.2 h2
      refine ⟨by simp [mulSub, h4], ?_, h6, ?_⟩
      · simp only [mulSub, AllLimbs.cons]
        exact ⟨h1, h5⟩
      · simp only [mulSub, limbsVal_cons, List.length_cons, pow_succ radix]
        calc a + radix * limbsVal as + radix ^ bs.length * radix * (mulSub q as bs (submul a b q c).2).2
            = a + radix * (limbsVal as + radix ^ bs.length * (mulSub q as bs (submul a b q c).2).2) := by ring
          _ = (a + radix * (submul a b q c).2) +
                radix * (limbsVal (mulSub q as bs (submul a b q c).2).1 + q * limbsVal bs) := by rw [h7]; ring
          _ = _ := by rw [h3]; ring

/-- The loop of `add_back`: new limbs + c'·β^m = window + divisor + c (R109). -/
theorem addBack_spec :
    ∀ (as bs : List Nat) (c : Nat), as.length = bs.length →
      (addBack as bs c).1.length = bs.length ∧ AllLimbs (addBack as bs c).1 ∧
        limbsVal (addBack as bs c).1 + radix ^ bs.length * (addBack as bs c).2 = limbsVal as + limbsVal bs + c := by
  intro as
  induction as with
  | nil =>
    intro bs c hl
    obtain rfl : bs = [] := List.eq_nil_of_length_eq_zero hl.symm
    refine ⟨rfl, by simp [addBack, AllLimbs], ?_⟩
    simp [addBack]
  | cons a as ih =>
    intro bs c hl
    cases bs with
    | nil => simp at hl
    | cons b bs =>
      obtain ⟨h4, h5, h7⟩ := ih bs (adc a b c).2 (by simpa using hl)
      refine ⟨by simp [addBack, h4], ?_, ?_⟩
      · simp only [addBack, AllLimbs.cons]
        exact ⟨Nat.mod_lt _ radix_pos, h5⟩
      · simp only [addBack, limbsVal_cons, List.length_cons, pow_succ radix]
        have hdm : (adc a b c).1 + radix * (adc a b c).2 = a + b + c := by
          simp only [adc]
          exact Nat.mod_add_div _ _
        calc (adc a b c).1 + radix * limbsVal (addBack as bs (adc a b c).2).1 +
                radix ^ bs.length * radix * (addBack as bs (adc a b c).2).2
            = (adc a b c).1 + radix * (limbsVal (addBack as bs (adc a b c).2).1 +
                radix ^ bs.length * (addBack as bs (adc a b c).2).2) := by ring
          _ = ((adc a b c).1 + radix * (adc a b c).2) + radix * (limbsVal as + limbsVal bs) := by rw [h7]; ring
          _ = _ := by rw [hdm]; ring

/-! ## One digit position (R105 to R110) -/

/-- A window of m+1 limbs below β·D, and a trial digit that is the true digit or one more: the step leaves the true digit, the
remainder and a zero top limb (R108, R109, R117 item 5). -/
theorem subtractDigit_spec {dv w : List Nat} {q : Nat} (hdv : AllLimbs dv) (hw : AllLimbs w)
    (hlen : w.length = dv.length + 1) (hq : q < radix)
    (hlo : limbsVal w / limbsVal dv ≤ q) (hhi : q ≤ limbsVal w / limbsVal dv + 1) (hD : 0 < limbsVal dv) :
    ∃ low, subtractDigit dv w q = (limbsVal w / limbsVal dv, low, 0) ∧ low.length = dv.length ∧ AllLimbs low ∧
      limbsVal low = limbsVal w % limbsVal dv := by
  obtain ⟨m, hm⟩ : ∃ m, m = dv.length := ⟨_, rfl⟩
  have hDlt : limbsVal dv < radix ^ m := by rw [hm]; exact limbsVal_lt hdv
  have hsplit : limbsVal w = limbsVal (w.take m) + radix ^ m * w.getD m 0 := by
    rw [limbsVal_take_drop (k := m) (by omega)]
    congr 2
    rw [List.drop_eq_getElem_cons (by omega : m < w.length), List.drop_of_length_le (by omega),
      List.getD_eq_getElem _ _ (by omega)]
    simp
  have htake : (w.take m).length = dv.length := by rw [List.length_take]; omega
  have htop : w.getD m 0 < radix := hw.getD m
  obtain ⟨h1, h2, h3, h4⟩ := mulSub_spec hq (w.take m) dv 0 htake (hw.take m) hdv radix_pos
  have hdm := Nat.div_add_mod (limbsVal w) (limbsVal dv)
  have hmod := Nat.mod_lt (limbsVal w) hD
  unfold subtractDigit
  simp only [← hm]
  rw [← hm] at h4
  obtain ⟨ts, hts⟩ : ∃ ts, ts = (mulSub q (w.take m) dv 0).1 := ⟨_, rfl⟩
  obtain ⟨c, hc⟩ : ∃ c, c = (mulSub q (w.take m) dv 0).2 := ⟨_, rfl⟩
  rw [← hts] at h1 h2
  rw [← hc] at h3
  simp only [← hts, ← hc] at h4 ⊢
  obtain ⟨top, htopeq⟩ : ∃ top, top = w.getD m 0 := ⟨_, rfl⟩
  rw [← htopeq] at htop hsplit ⊢
  have htslt : limbsVal ts < radix ^ m := by rw [hm, ← h1]; exact limbsVal_lt h2
  obtain ⟨W, hW⟩ : ∃ W, W = limbsVal w := ⟨_, rfl⟩
  obtain ⟨D, hDeq⟩ : ∃ D, D = limbsVal dv := ⟨_, rfl⟩
  simp only [← hW, ← hDeq] at hD hDlt hsplit hlo hhi hdm hmod h4 ⊢
  obtain ⟨P, hP⟩ : ∃ P, P = radix ^ m := ⟨_, rfl⟩
  rw [← hP] at hDlt hsplit h4 htslt
  -- the exact balance of the step: W + P·c = ts + q·D + P·top
  have hbal : W + P * c = limbsVal ts + q * D + P * top := by rw [hsplit]; omega
  rcases Nat.eq_or_lt_of_le hlo with heq | hlt
  · -- the true digit: no underflow
    rw [heq, mul_comm D q] at hdm
    have h5 : W % D + P * c = limbsVal ts + P * top := by omega
    have hcle : ¬ top < c := by
      intro hcon
      have : P * (top + 1) ≤ P * c := Nat.mul_le_mul_left _ hcon
      rw [mul_add, mul_one] at this
      omega
    have hceq : c = top := by
      by_contra hne
      have : P * (c + 1) ≤ P * top := Nat.mul_le_mul_left _ (by omega)
      rw [mul_add, mul_one] at this
      omega
    rw [if_neg hcle, heq, hceq, wrapSub_of_le htop htop (le_refl _), Nat.sub_self]
    refine ⟨ts, rfl, by omega, h2, ?_⟩
    rw [hceq] at h5
    omega
  · -- one too high: underflow, and one add-back restores the remainder
    have hq1 : q = W / D + 1 := by omega
    have h5 : W % D + P * c = limbsVal ts + D + P * top := by
      have : q * D = D * (W / D) + D := by rw [hq1]; ring
      omega
    have hclt : top < c := by
      by_contra hcon
      have : P * c ≤ P * top := Nat.mul_le_mul_left _ (by omega)
      omega
    have hceq : c = top + 1 := by
      by_contra hne
      have : P * (top + 2) ≤ P * c := Nat.mul_le_mul_left _ (by omega)
      rw [mul_add] at this
      omega
    rw [if_pos hclt]
    obtain ⟨h6, h7, h8⟩ := addBack_spec ts dv 0 h1
    have h9 := limbsVal_lt h7
    rw [h6, ← hm, ← hP] at h9
    rw [← hm, ← hP, ← hDeq] at h8
    obtain ⟨us, hus⟩ : ∃ us, us = (addBack ts dv 0).1 := ⟨_, rfl⟩
    obtain ⟨c', hc'⟩ : ∃ c', c' = (addBack ts dv 0).2 := ⟨_, rfl⟩
    simp only [← hus, ← hc'] at h6 h7 h8 h9 ⊢
    rw [hceq, mul_add, mul_one] at h5
    have hc1 : c' = 1 := by
      have h10 : limbsVal us + P * c' = W % D + P := by omega
      rcases Nat.lt_trichotomy c' 1 with h | h | h
      · obtain rfl : c' = 0 := by omega
        omega
      · exact h
      · have : P * 2 ≤ P * c' := Nat.mul_le_mul_left _ h
        omega
    rw [hc1, mul_one] at h8
    refine ⟨us, ?_, by omega, h7, by omega⟩
    rw [hceq, wrapSub_of_lt (by omega) (by omega), hc1, show top + radix - (top + 1) + 1 = radix by omega, Nat.mod_self, hq1,
      Nat.add_sub_cancel]

/-- The top two limbs of a sequence of k+2. -/
theorem limbsVal_top2 {xs : List Nat} {k : Nat} (h : xs.length = k + 2) :
    limbsVal xs = limbsVal (xs.take k) + radix ^ k * (xs.getD (k + 1) 0 * radix + xs.getD k 0) := by
  rw [limbsVal_take_drop (k := k) (by omega), List.drop_eq_getElem_cons (by omega : k < xs.length),
    List.drop_eq_getElem_cons (by omega : k + 1 < xs.length), List.drop_of_length_le (by omega),
    List.getD_eq_getElem _ _ (by omega), List.getD_eq_getElem _ _ (by omega)]
  simp only [limbsVal_cons, limbsVal_nil]
  ring

/-- The top three limbs of a sequence of k+3. -/
theorem limbsVal_top3 {xs : List Nat} {k : Nat} (h : xs.length = k + 3) :
    limbsVal xs = limbsVal (xs.take k) +
      radix ^ k * (xs.getD (k + 2) 0 * radix ^ 2 + xs.getD (k + 1) 0 * radix + xs.getD k 0) := by
  rw [limbsVal_take_drop (k := k) (by omega), List.drop_eq_getElem_cons (by omega : k < xs.length),
    List.drop_eq_getElem_cons (by omega : k + 1 < xs.length), List.drop_eq_getElem_cons (by omega : k + 1 + 1 < xs.length),
    List.drop_of_length_le (by omega),
    List.getD_eq_getElem _ _ (by omega), List.getD_eq_getElem _ _ (by omega), List.getD_eq_getElem _ _ (by omega)]
  simp only [limbsVal_cons, limbsVal_nil]
  ring

theorem limbsVal_take_lt {xs : List Nat} (h : AllLimbs xs) {k : Nat} (hk : k ≤ xs.length) :
    limbsVal (xs.take k) < radix ^ k := by
  have := limbsVal_lt (h.take k)
  rwa [List.length_take_of_le hk] at this

/-- The digit bound (R117 item 2): with W = t·N3 + w and D = t·D2 + e, the estimate is the true digit or one more. -/
theorem digit_bound {β t n3 d2 w e : Nat} (hw : w < t) (he : e < t) (hd2 : β ≤ d2) (hβ : 0 < β)
    (hlt : w + t * n3 < β * (e + t * d2)) :
    (w + t * n3) / (e + t * d2) ≤ min (β - 1) (n3 / d2) ∧
      min (β - 1) (n3 / d2) ≤ (w + t * n3) / (e + t * d2) + 1 := by
  have hd2pos : 0 < d2 := by omega
  have ht : 0 < t := by omega
  have hD : 0 < e + t * d2 := by positivity
  obtain ⟨qs, hqs⟩ : ∃ qs, qs = (w + t * n3) / (e + t * d2) := ⟨_, rfl⟩
  have hle : qs * (e + t * d2) ≤ w + t * n3 := by rw [hqs]; exact Nat.div_mul_le_self _ _
  have hqlt : qs < β := by rw [hqs]; exact Nat.div_lt_of_lt_mul (by rw [mul_comm (e + t * d2)]; exact hlt)
  rw [← hqs]
  constructor
  · apply le_min (by omega)
    rw [Nat.le_div_iff_mul_le hd2pos]
    have h1 : t * (qs * d2) ≤ qs * (e + t * d2) := by
      have : qs * (e + t * d2) = t * (qs * d2) + qs * e := by ring
      omega
    have h2 : t * (qs * d2) < t * (n3 + 1) := by
      have : t * (n3 + 1) = t * n3 + t := by ring
      omega
    exact Nat.lt_succ_iff.1 (Nat.lt_of_mul_lt_mul_left h2)
  · obtain ⟨qh, hqh⟩ : ∃ qh, qh = min (β - 1) (n3 / d2) := ⟨_, rfl⟩
    rw [← hqh]
    rcases Nat.eq_zero_or_pos qh with h0 | hpos
    · omega
    · obtain ⟨p, rfl⟩ : ∃ p, qh = p + 1 := ⟨qh - 1, by omega⟩
      have h1 : (p + 1) * d2 ≤ n3 := by
        rw [← Nat.le_div_iff_mul_le hd2pos, hqh]
        exact min_le_right _ _
      have h2 : p + 1 ≤ β := by
        have := min_le_left (β - 1) (n3 / d2)
        omega
      have h3 : p ≤ qs := by
        rw [hqs, Nat.le_div_iff_mul_le hD]
        have h4 : t * ((p + 1) * d2) ≤ t * n3 := Nat.mul_le_mul_left _ h1
        have h5 : p * e ≤ d2 * t := Nat.mul_le_mul (by omega) (by omega)
        have h6 : p * (e + t * d2) + d2 * t = p * e + t * ((p + 1) * d2) := by ring
        omega
      omega

/-- The estimator's precondition holds at every window below β·D (R117 item 1). -/
theorem window_bound {β t n2 n1 n0 d2 w e : Nat} (he : e < t) (hlt : w + t * (n2 * β ^ 2 + n1 * β + n0) < β * (e + t * d2)) :
    n2 * β + n1 ≤ d2 := by
  by_contra hcon
  have h1 : β * t * (d2 + 1) ≤ β * t * (n2 * β + n1) := Nat.mul_le_mul_left _ (by omega)
  have h2 : β * (e + t * d2) ≤ β * (t * (d2 + 1)) := Nat.mul_le_mul_left _ (by
    have : t * (d2 + 1) = t * d2 + t := by ring
    omega)
  have h3 : t * (n2 * β ^ 2 + n1 * β + n0) = β * t * (n2 * β + n1) + t * n0 := by ring
  have h4 : β * (t * (d2 + 1)) = β * t * (d2 + 1) := by ring
  omega

/-- One digit position on a window below β·D: the true digit and the remainder, with no defect (R105 to R110, R117). -/
theorem digitStep_spec {dv w : List Nat} (hm : 2 ≤ dv.length) (hdv : AllLimbs dv) (hw : AllLimbs w)
    (hlen : w.length = dv.length + 1) (hnorm : 2 ^ 63 ≤ dv.getD (dv.length - 1) 0) (hlt : limbsVal w < radix * limbsVal dv) :
    ∃ low, digitStep dv w = .ok (limbsVal w / limbsVal dv, low) ∧ low.length = dv.length ∧ AllLimbs low ∧
      limbsVal low = limbsVal w % limbsVal dv := by
  obtain ⟨k, hk⟩ : ∃ k, dv.length = k + 2 := ⟨dv.length - 2, by omega⟩
  have hd := limbsVal_top2 hk
  have hwv := limbsVal_top3 (xs := w) (k := k) (by omega)
  have het := limbsVal_take_lt hdv (k := k) (by omega)
  have hwt := limbsVal_take_lt hw (k := k) (by omega)
  have e1 : dv.length - 1 = k + 1 := by omega
  have e2 : dv.length - 2 = k := by omega
  have hD : 0 < limbsVal dv := by
    by_contra hcon
    rw [show limbsVal dv = 0 by omega] at hlt
    omega
  rw [e1] at hnorm
  have hβle : radix ≤ dv.getD (k + 1) 0 * radix + dv.getD k 0 := by
    have : 1 * radix ≤ dv.getD (k + 1) 0 * radix := Nat.mul_le_mul_right _ (by omega)
    omega
  have hlt' := hlt
  rw [hd, hwv] at hlt'
  have hpre : EstPre (w.getD (k + 2) 0) (w.getD (k + 1) 0) (dv.getD (k + 1) 0) (dv.getD k 0) :=
    ⟨hnorm, window_bound het hlt'⟩
  have hest := est3x2_spec hpre (hw.getD (k + 1)) (hw.getD k) (hdv.getD k)
  obtain ⟨hb1, hb2⟩ := digit_bound hwt het hβle radix_pos hlt'
  rw [← hest, ← hwv, ← hd] at hb1 hb2
  have hqlt : est3x2 (w.getD (k + 2) 0) (w.getD (k + 1) 0) (w.getD k 0) (dv.getD (k + 1) 0) (dv.getD k 0) < radix := by
    rw [hest]
    exact lt_of_le_of_lt (min_le_left _ _) (Nat.sub_lt radix_pos one_pos)
  obtain ⟨low, h1, h2, h3, h4⟩ := subtractDigit_spec hdv hw hlen hqlt hb1 hb2 hD
  refine ⟨low, ?_, h2, h3, h4⟩
  have hmod := Nat.mod_lt (limbsVal w) hD
  unfold digitStep
  simp only [e1, e2]
  rw [hk, if_pos hpre, h1]
  simp only [ne_eq, not_true_eq_false, if_false]
  rw [if_neg (by omega)]

/-! ## The loop and the multi-limb path (R105, R104, R111, R112) -/

/-- The per-digit loop divides the remainder window and the limbs still to come by the divisor, with no defect. -/
theorem digitLoop_spec {dv : List Nat} (hm : 2 ≤ dv.length) (hdv : AllLimbs dv)
    (hnorm : 2 ^ 63 ≤ dv.getD (dv.length - 1) 0) :
    ∀ (rest rem qs : List Nat), AllLimbs rest → AllLimbs rem → rem.length = dv.length → limbsVal rem < limbsVal dv →
      ∃ rem' q, digitLoop dv rest rem qs = .ok (rem', q ++ qs) ∧ rem'.length = dv.length ∧ AllLimbs rem' ∧
        q.length = rest.length ∧ AllLimbs q ∧
        limbsVal q = (limbsVal rest.reverse + radix ^ rest.length * limbsVal rem) / limbsVal dv ∧
        limbsVal rem' = (limbsVal rest.reverse + radix ^ rest.length * limbsVal rem) % limbsVal dv := by
  intro rest
  induction rest with
  | nil =>
    intro rem qs _ hrem hlen hlt
    refine ⟨rem, [], rfl, hlen, hrem, rfl, by simp [AllLimbs], ?_, ?_⟩
    · simp [Nat.div_eq_of_lt hlt]
    · simp [Nat.mod_eq_of_lt hlt]
  | cons a rest ih =>
    intro rem qs hrest hrem hlen hlt
    rw [AllLimbs.cons] at hrest
    have hD : 0 < limbsVal dv := by omega
    have hwin : limbsVal (a :: rem) < radix * limbsVal dv := by
      have h1 := hrest.1
      have h2 : radix * (limbsVal rem + 1) ≤ radix * limbsVal dv := Nat.mul_le_mul_left _ hlt
      rw [mul_add, mul_one] at h2
      rw [limbsVal_cons]
      omega
    obtain ⟨low, h1, h2, h3, h4⟩ := digitStep_spec hm hdv (w := a :: rem) (AllLimbs.cons.2 ⟨hrest.1, hrem⟩)
      (by simp [hlen]) hnorm hwin
    obtain ⟨W, hW⟩ : ∃ W, W = limbsVal (a :: rem) := ⟨_, rfl⟩
    rw [← hW] at h1 h4 hwin
    obtain ⟨rem', q, g1, g2, g3, g4, g5, g6, g7⟩ := ih low (W / limbsVal dv :: qs) hrest.2 h3 h2
      (by rw [h4]; exact Nat.mod_lt _ hD)
    have hval : limbsVal (a :: rest).reverse + radix ^ (a :: rest).length * limbsVal rem =
        (limbsVal rest.reverse + radix ^ rest.length * limbsVal low) +
          limbsVal dv * (radix ^ rest.length * (W / limbsVal dv)) := by
      rw [List.reverse_cons, limbsVal_append, List.length_reverse, List.length_cons, pow_succ radix, h4]
      have hdm := Nat.mod_add_div W (limbsVal dv)
      calc limbsVal rest.reverse + radix ^ rest.length * limbsVal [a] + radix ^ rest.length * radix * limbsVal rem
          = limbsVal rest.reverse + radix ^ rest.length * limbsVal (a :: rem) := by
            simp only [limbsVal_cons, limbsVal_nil]; ring
        _ = limbsVal rest.reverse + radix ^ rest.length * (W % limbsVal dv + limbsVal dv * (W / limbsVal dv)) := by
            rw [hdm, hW]
        _ = _ := by ring
    have hqlt : W / limbsVal dv < radix := Nat.div_lt_of_lt_mul (by rw [mul_comm (limbsVal dv)]; exact hwin)
    refine ⟨rem', q ++ [W / limbsVal dv], ?_, g2, g3, by simp [g4], ?_, ?_, ?_⟩
    · simp only [digitLoop, h1, g1, List.append_assoc, List.singleton_append]
    · rw [AllLimbs.append]
      exact ⟨g5, by simpa [AllLimbs] using hqlt⟩
    · rw [hval, Nat.add_mul_div_left _ _ hD, limbsVal_append, g6, g4]
      simp
    · rw [hval, Nat.add_mul_mod_self_left, g7]

/-- The effective length is at most the length. -/
theorem effLength_le (xs : List Nat) : effLength xs ≤ xs.length := by
  induction xs with
  | nil => simp [effLength]
  | cons x xs ih =>
    simp only [effLength, List.length_cons]
    split
    · omega
    · split <;> omega

/-- No limb at or above the effective length is nonzero (R102, R17). -/
theorem getD_of_effLength_le (xs : List Nat) : ∀ i, effLength xs ≤ i → xs.getD i 0 = 0 := by
  induction xs with
  | nil => intro i _; simp
  | cons x xs ih =>
    intro i hi
    simp only [effLength] at hi
    cases i with
    | zero =>
      split at hi
      · omega
      · split at hi
        · omega
        · rename_i h; simpa using h
    | succ i =>
      rw [List.getD_cons_succ]
      apply ih
      split at hi <;> omega

/-- The limb below the effective length is nonzero. -/
theorem getD_effLength_ne_zero (xs : List Nat) : effLength xs ≠ 0 → xs.getD (effLength xs - 1) 0 ≠ 0 := by
  induction xs with
  | nil => intro h; simp [effLength] at h
  | cons x xs ih =>
    intro h
    simp only [effLength] at h ⊢
    split
    · rename_i hne
      obtain ⟨k, hk⟩ : ∃ k, effLength xs = k + 1 := ⟨effLength xs - 1, by omega⟩
      have := ih hne
      rw [hk] at this ⊢
      simpa using this
    · rename_i hz
      rw [if_neg hz] at h
      split
      · rename_i hx; simpa using hx
      · rename_i hx; rw [if_neg hx] at h; omega

/-- The trim of R102 finds the effective length of 00_scope.md R17, and there is one alone. -/
theorem isEffLength_iff (xs : List Nat) (m : Nat) : IsEffLength xs m ↔ effLength xs = m := by
  have hself : IsEffLength xs (effLength xs) := by
    refine ⟨effLength_le xs, getD_of_effLength_le xs, ?_⟩
    by_cases h : effLength xs = 0
    · exact .inl h
    · exact .inr (getD_effLength_ne_zero xs h)
  refine ⟨fun ⟨h1, h2, h3⟩ => ?_, fun h => h ▸ hself⟩
  obtain ⟨g1, g2, g3⟩ := hself
  by_contra hne
  rcases Nat.lt_or_gt_of_ne hne with hlt | hgt
  · rcases h3 with h3 | h3
    · omega
    · exact h3 (g2 _ (by omega))
  · rcases g3 with g3 | g3
    · omega
    · exact g3 (h2 _ (by omega))

theorem limbsVal_eq_zero_of_effLength (xs : List Nat) (h : effLength xs = 0) : limbsVal xs = 0 := by
  induction xs with
  | nil => rfl
  | cons x xs ih =>
    simp only [effLength] at h
    split at h
    · omega
    · rename_i hz
      split at h
      · omega
      · rename_i hx
        rw [limbsVal_cons, ih (by omega)]
        simpa using hx

/-- The limbs above the effective length add nothing to the value (R119). -/
theorem limbsVal_take_effLength (xs : List Nat) : limbsVal (xs.take (effLength xs)) = limbsVal xs := by
  induction xs with
  | nil => rfl
  | cons x xs ih =>
    simp only [effLength]
    split
    · simp only [List.take_succ_cons, limbsVal_cons, ih]
    · rename_i hz
      have h0 := limbsVal_eq_zero_of_effLength xs (by omega)
      split
      · simp [h0]
      · rename_i hx
        have hx' : x = 0 := by omega
        simp [h0, hx']

/-- A divisor with a nonzero limb has a nonzero value, and one without has value 0. -/
theorem effLength_eq_zero_iff (xs : List Nat) : effLength xs = 0 ↔ limbsVal xs = 0 := by
  refine ⟨limbsVal_eq_zero_of_effLength xs, fun h => ?_⟩
  by_contra hne
  have h1 := getD_effLength_ne_zero xs hne
  have h2 := effLength_le xs
  obtain ⟨i, hi⟩ : ∃ i, effLength xs = i + 1 := ⟨effLength xs - 1, by omega⟩
  rw [hi, Nat.add_sub_cancel] at h1
  have h3 := limbsVal_take_drop (xs := xs) (k := i) (by omega)
  rw [List.drop_eq_getElem_cons (by omega : i < xs.length), limbsVal_cons] at h3
  rw [List.getD_eq_getElem _ _ (by omega)] at h1
  have : 0 < radix ^ i * (xs[i] + radix * limbsVal (xs.drop (i + 1))) := by
    have := radix_pos
    positivity
  omega

/-- The multi-limb path divides, with no defect: Q above R in A, and R in B (R104 to R112, R114). -/
theorem divideMulti_spec {as bs : List Nat} (hm : 2 ≤ bs.length) (hn : bs.length + 2 ≤ as.length) (has : AllLimbs as)
    (hbs : AllLimbs bs) (htop : bs.getD (bs.length - 1) 0 ≠ 0) (hguard : as.getD (as.length - 1) 0 = 0) :
    ∃ q r, divideMulti as bs = .ok (r ++ q, r) ∧ r.length = bs.length ∧ q.length = as.length - bs.length ∧
      AllLimbs r ∧ AllLimbs q ∧
      limbsVal q = limbsVal as / limbsVal bs ∧ limbsVal r = limbsVal as % limbsVal bs := by
  obtain ⟨s, hs⟩ : ∃ s, s = clz64 (bs.getD (bs.length - 1) 0) := ⟨_, rfl⟩
  obtain ⟨k, hk⟩ : ∃ k, bs.length = k + 1 := ⟨bs.length - 1, by omega⟩
  obtain ⟨hn1, hn2⟩ := clz64_normalizes htop (hbs.getD _)
  rw [← hs] at hn1 hn2
  have e1 : bs.length - 1 = k := by omega
  rw [e1] at hn1 hn2 htop
  have h2s : 0 < 2 ^ s := by positivity
  -- the divisor: its normalized value fits in m limbs and its top limb has bit 63 set
  have hbval : limbsVal bs = limbsVal (bs.take k) + radix ^ k * bs.getD k 0 := by
    rw [limbsVal_take_drop (k := k) (by omega), List.drop_eq_getElem_cons (by omega : k < bs.length),
      List.drop_of_length_le (by omega), List.getD_eq_getElem _ _ (by omega)]
    simp
  have hbt := limbsVal_take_lt hbs (k := k) (by omega)
  have hD : 0 < limbsVal bs := by
    rw [hbval]
    have := radix_pos
    have : 0 < bs.getD k 0 := Nat.pos_of_ne_zero htop
    positivity
  obtain ⟨D, hDdef⟩ : ∃ D, D = limbsVal bs * 2 ^ s := ⟨_, rfl⟩
  have hDlt : D < radix ^ bs.length := by
    rw [hDdef, hbval, hk, pow_succ radix]
    have h1 : (limbsVal (bs.take k) + radix ^ k * bs.getD k 0) * 2 ^ s <
        radix ^ k * (bs.getD k 0 + 1) * 2 ^ s := by
      apply Nat.mul_lt_mul_of_pos_right _ h2s
      rw [mul_add, mul_one]; omega
    have h2 : (bs.getD k 0 + 1) * 2 ^ s ≤ radix := by
      -- radix is a multiple of 2^s
      obtain ⟨r, hr⟩ : ∃ r, radix = r * 2 ^ s := by
        refine ⟨2 ^ (64 - s), ?_⟩
        rw [← pow_add, radix_eq]
        congr 1
        have : s ≤ 64 := by rw [hs]; exact Nat.sub_le _ _
        omega
      rw [hr] at hn2 ⊢
      exact Nat.mul_le_mul_right _ (Nat.lt_of_mul_lt_mul_right hn2)
    calc _ < radix ^ k * (bs.getD k 0 + 1) * 2 ^ s := h1
      _ = radix ^ k * ((bs.getD k 0 + 1) * 2 ^ s) := by ring
      _ ≤ radix ^ k * radix := Nat.mul_le_mul_left _ h2
  have hdvval : limbsVal (toLimbs bs.length D) = D := limbsVal_toLimbs_of_lt hDlt
  have hdvlen : (toLimbs bs.length D).length = bs.length := length_toLimbs _ _
  have hdvall := allLimbs_toLimbs bs.length D
  have hnorm : 2 ^ 63 ≤ (toLimbs bs.length D).getD ((toLimbs bs.length D).length - 1) 0 := by
    rw [hdvlen, e1]
    have h1 : limbsVal (toLimbs bs.length D) =
        limbsVal ((toLimbs bs.length D).take k) + radix ^ k * (toLimbs bs.length D).getD k 0 := by
      rw [limbsVal_take_drop (k := k) (by omega), List.drop_eq_getElem_cons (by omega : k < (toLimbs bs.length D).length),
        List.drop_of_length_le (by omega), List.getD_eq_getElem _ _ (by omega)]
      simp
    have h2 := limbsVal_take_lt hdvall (k := k) (by omega)
    rw [hdvval] at h1
    by_contra hcon
    have h3 : radix ^ k * ((toLimbs bs.length D).getD k 0 + 1) ≤ radix ^ k * 2 ^ 63 := Nat.mul_le_mul_left _ (by omega)
    have h4 : radix ^ k * 2 ^ 63 ≤ D := by
      calc radix ^ k * 2 ^ 63 ≤ radix ^ k * (bs.getD k 0 * 2 ^ s) := Nat.mul_le_mul_left _ hn1
        _ ≤ D := by
          rw [hDdef, hbval]
          have : (limbsVal (bs.take k) + radix ^ k * bs.getD k 0) * 2 ^ s =
            radix ^ k * (bs.getD k 0 * 2 ^ s) + limbsVal (bs.take k) * 2 ^ s := by ring
          omega
    rw [mul_add, mul_one] at h3
    omega
  -- the numerator: its guard limb takes the spill
  obtain ⟨N, hNdef⟩ : ∃ N, N = limbsVal as * 2 ^ s := ⟨_, rfl⟩
  have haval : limbsVal as < radix ^ (as.length - 1) := by
    obtain ⟨j, hj⟩ : ∃ j, as.length = j + 1 := ⟨as.length - 1, by omega⟩
    have e : as.length - 1 = j := by omega
    rw [e] at hguard ⊢
    have h1 := limbsVal_take_drop (xs := as) (k := j) (by omega)
    rw [List.drop_eq_getElem_cons (by omega : j < as.length), List.drop_of_length_le (by omega)] at h1
    rw [List.getD_eq_getElem _ _ (by omega)] at hguard
    rw [h1, hguard]
    simpa using limbsVal_take_lt has (k := j) (by omega)
  have hsle : 2 ^ s ≤ 2 ^ 63 := by
    apply Nat.pow_le_pow_right (by omega)
    rw [hs, clz64]
    have := bitLen_pos (v := bs.getD (bs.length - 1) 0) (by rwa [e1])
    omega
  have hNlt : N < radix ^ (as.length - 1) * 2 ^ 63 := by
    rw [hNdef]
    exact Nat.mul_lt_mul_of_lt_of_le haval hsle (by positivity)
  have hNlt' : N < radix ^ as.length := by
    refine lt_of_lt_of_le hNlt ?_
    conv_rhs => rw [show as.length = as.length - 1 + 1 by omega, pow_succ radix]
    exact Nat.mul_le_mul_left _ (by norm_num [radix])
  have hnnlen : (toLimbs as.length N).length = as.length := length_toLimbs _ _
  have hnnall := allLimbs_toLimbs as.length N
  have hnnval : limbsVal (toLimbs as.length N) = N := limbsVal_toLimbs_of_lt hNlt'
  obtain ⟨j, hj⟩ : ∃ j, j = as.length - bs.length := ⟨_, rfl⟩
  have hsplit := limbsVal_take_drop (xs := toLimbs as.length N) (k := j) (by omega)
  rw [hnnval] at hsplit
  have htl := limbsVal_take_lt hnnall (k := j) (by omega)
  have hremlt : limbsVal ((toLimbs as.length N).drop j) < limbsVal (toLimbs bs.length D) := by
    rw [hdvval]
    by_contra hcon
    have h1 : radix ^ j * D ≤ radix ^ j * limbsVal ((toLimbs as.length N).drop j) := Nat.mul_le_mul_left _ (by omega)
    have h2 : radix ^ j * (radix ^ k * 2 ^ 63) ≤ radix ^ j * D := by
      apply Nat.mul_le_mul_left
      calc radix ^ k * 2 ^ 63 ≤ radix ^ k * (bs.getD k 0 * 2 ^ s) := Nat.mul_le_mul_left _ hn1
        _ ≤ D := by
          rw [hDdef, hbval]
          have : (limbsVal (bs.take k) + radix ^ k * bs.getD k 0) * 2 ^ s =
            radix ^ k * (bs.getD k 0 * 2 ^ s) + limbsVal (bs.take k) * 2 ^ s := by ring
          omega
    have h3 : radix ^ j * (radix ^ k * 2 ^ 63) = radix ^ (as.length - 1) * 2 ^ 63 := by
      rw [← mul_assoc, ← pow_add]
      congr 2
      omega
    omega
  obtain ⟨rem', q, g1, g2, g3, g4, g5, g6, g7⟩ := digitLoop_spec (by omega) hdvall hnorm
    ((toLimbs as.length N).take j).reverse ((toLimbs as.length N).drop j) [] (hnnall.take j).reverse (hnnall.drop j)
    (by rw [List.length_drop]; omega) hremlt
  rw [List.reverse_reverse, List.length_reverse, List.length_take_of_le (by omega), ← hsplit, hdvval] at g6 g7
  rw [List.length_reverse, List.length_take_of_le (by omega)] at g4
  have hrem : limbsVal rem' = (limbsVal as % limbsVal bs) * 2 ^ s := by
    rw [g7, hNdef, hDdef, Nat.mul_mod_mul_right]
  have hrval : limbsVal (toLimbs bs.length (limbsVal rem' / 2 ^ s)) = limbsVal as % limbsVal bs := by
    rw [hrem, Nat.mul_div_cancel _ h2s]
    exact limbsVal_toLimbs_of_lt (lt_trans (Nat.mod_lt _ hD) (limbsVal_lt hbs))
  refine ⟨q, toLimbs bs.length (limbsVal rem' / 2 ^ s), ?_, length_toLimbs _ _, by omega, allLimbs_toLimbs _ _, g5, ?_, hrval⟩
  · unfold divideMulti
    simp only [← hs, ← hDdef, ← hNdef, ← hj, g1, List.append_nil]
  · rw [g6, hNdef, hDdef, Nat.mul_div_mul_right _ _ h2s]

end Sys2Proof.Machine
end

