-- ==== Sys2Proof/Laws/Limbs.lean ====
section
/-! SUPPORT. The laws of the buffer operations: a read after a write, that every write keeps the canonical form, and what a run of
limbs reads and writes. -/

namespace Sys2Proof.Machine

@[simp] theorem Limbs.read_nil (i : Nat) : Limbs.read [] i = none := rfl

theorem Limbs.read_write (l : Limbs) (i j : Nat) (v : Word) :
    Limbs.read (Limbs.write l i v) j = if j = i then some v else Limbs.read l j := by
  induction l with
  | nil => simp [Limbs.write, Limbs.read]
  | cons c l ih =>
    obtain ⟨k, w⟩ := c
    simp only [Limbs.write]
    split
    · simp [Limbs.read]
    · split
      · subst_vars
        simp only [Limbs.read]
        split <;> simp_all
      · simp only [Limbs.read, ih]
        split
        · split
          · omega
          · rfl
        · rfl

@[simp] theorem Limbs.read_write_same (l : Limbs) (i : Nat) (v : Word) :
    Limbs.read (Limbs.write l i v) i = some v := by
  simp [Limbs.read_write]

theorem Limbs.read_write_other (l : Limbs) {i j : Nat} (v : Word) (h : j ≠ i) :
    Limbs.read (Limbs.write l i v) j = Limbs.read l j := by
  simp [Limbs.read_write, h]

theorem Limbs.mem_write {l : Limbs} {i : Nat} {v : Word} {c : Nat × Word} (h : c ∈ Limbs.write l i v) :
    c = (i, v) ∨ c ∈ l := by
  induction l with
  | nil => simpa [Limbs.write] using h
  | cons d l ih =>
    obtain ⟨k, w⟩ := d
    simp only [Limbs.write] at h
    split at h
    · simpa using h
    · split at h
      · simp only [List.mem_cons] at h ⊢
        tauto
      · simp only [List.mem_cons] at h ⊢
        rcases h with h | h
        · tauto
        · rcases ih h with h | h <;> tauto

/-- A write keeps the canonical form. -/
theorem Limbs.wf_write {l : Limbs} {n i : Nat} (v : Word) (h : Limbs.wf l n) (hi : i < n) :
    Limbs.wf (Limbs.write l i v) n := by
  obtain ⟨hs, hb⟩ := h
  refine ⟨?_, fun c hc => ?_⟩
  · clear hb hi
    induction l with
    | nil => simp [Limbs.write]
    | cons d l ih =>
      obtain ⟨k, w⟩ := d
      rw [List.pairwise_cons] at hs
      simp only [Limbs.write]
      split
      · rename_i hlt
        refine List.pairwise_cons.2 ⟨fun c hc => ?_, List.pairwise_cons.2 hs⟩
        rcases List.mem_cons.1 hc with rfl | hc
        · exact hlt
        · exact lt_trans hlt (hs.1 c hc)
      · split
        · subst_vars
          exact List.pairwise_cons.2 ⟨fun c hc => hs.1 c hc, hs.2⟩
        · refine List.pairwise_cons.2 ⟨fun c hc => ?_, ih hs.2⟩
          rcases Limbs.mem_write hc with rfl | hc
          · simp only
            omega
          · exact hs.1 c hc
  · rcases Limbs.mem_write hc with rfl | hc
    · exact hi
    · exact hb c hc

/-- A run of writes keeps the canonical form. -/
theorem Limbs.wf_writeFrom {n : Nat} (vs : List Word) :
    ∀ {l : Limbs} {i : Nat}, Limbs.wf l n → i + vs.length ≤ n → Limbs.wf (Limbs.writeFrom l i vs) n := by
  induction vs with
  | nil => intro l i h _; exact h
  | cons v vs ih =>
    intro l i h hi
    simp only [List.length_cons] at hi
    exact ih (Limbs.wf_write v h (by omega)) (by omega)

theorem Limbs.wf_nil (n : Nat) : Limbs.wf [] n := by simp [Limbs.wf]

/-- What a run of writes leaves in each limb. -/
theorem Limbs.read_writeFrom (vs : List Word) :
    ∀ (l : Limbs) (i j : Nat), Limbs.read (Limbs.writeFrom l i vs) j =
      if i ≤ j ∧ j < i + vs.length then vs[j - i]? else Limbs.read l j := by
  induction vs with
  | nil =>
    intro l i j
    simp only [Limbs.writeFrom, List.length_nil, add_zero]
    rw [if_neg (by omega)]
  | cons v vs ih =>
    intro l i j
    simp only [Limbs.writeFrom, ih, Limbs.read_write, List.length_cons]
    by_cases h1 : j = i
    · subst h1
      simp
    · by_cases h2 : i + 1 ≤ j ∧ j < i + 1 + vs.length
      · rw [if_pos h2, if_pos (by omega)]
        obtain ⟨d, rfl⟩ : ∃ d, j = i + 1 + d := ⟨j - (i + 1), by omega⟩
        have e1 : i + 1 + d - (i + 1) = d := by omega
        have e2 : i + 1 + d - i = d + 1 := by omega
        rw [e1, e2, List.getElem?_cons_succ]
      · rw [if_neg h2, if_neg h1, if_neg (by omega)]

/-- A limb at or above a run of writes from 0 keeps its value (40_division.md R101, 41_float_to_fixed.md R158). -/
theorem Limbs.read_writeFrom_above (l : Limbs) (vs : List Word) {j : Nat} (h : vs.length ≤ j) :
    Limbs.read (Limbs.writeFrom l 0 vs) j = Limbs.read l j := by
  rw [Limbs.read_writeFrom, if_neg (by omega)]

/-- A limb below a run of writes from 0 holds the run's value. -/
theorem Limbs.read_writeFrom_below (l : Limbs) (vs : List Word) {j : Nat} (h : j < vs.length) :
    Limbs.read (Limbs.writeFrom l 0 vs) j = some vs[j] := by
  rw [Limbs.read_writeFrom, if_pos (by omega), Nat.sub_zero, List.getElem?_eq_getElem h]

/-- A run of written limbs is read whole. -/
theorem Limbs.readFrom_ok (l : Limbs) :
    ∀ (k i : Nat), (∀ j, i ≤ j → j < i + k → (Limbs.read l j).isSome) →
      Limbs.readFrom l i k = .ok ((List.range' i k).map fun j => (Limbs.read l j).getD 0) := by
  intro k
  induction k with
  | zero => intro i _; rfl
  | succ k ih =>
    intro i h
    obtain ⟨v, hv⟩ := Option.isSome_iff_exists.1 (h i (le_refl i) (by omega))
    simp only [Limbs.readFrom, hv, ih (i + 1) fun j h1 h2 => h j (by omega) (by omega), List.range'_succ, List.map_cons,
      Option.getD_some]

/-- A run that holds an unwritten limb is refused with the index of one. -/
theorem Limbs.readFrom_error (l : Limbs) :
    ∀ (k i j : Nat), i ≤ j → j < i + k → Limbs.read l j = none →
      ∃ u, Limbs.readFrom l i k = .error u ∧ i ≤ u ∧ u < i + k ∧ Limbs.read l u = none := by
  intro k
  induction k with
  | zero => intro i j h1 h2 _; omega
  | succ k ih =>
    intro i j h1 h2 hj
    cases hi : Limbs.read l i with
    | none => exact ⟨i, by simp [Limbs.readFrom, hi], le_refl i, by omega, hi⟩
    | some v =>
      have hne : j ≠ i := by rintro rfl; simp [hi] at hj
      obtain ⟨u, hu, h3, h4, h5⟩ := ih (i + 1) j (by omega) (by omega) hj
      exact ⟨u, by simp [Limbs.readFrom, hi, hu], by omega, by omega, h5⟩

/-- The first k limbs of a written buffer, read whole. -/
theorem Limbs.readFrom_values {l : Limbs} {k : Nat} (h : l.Written k) :
    ∃ vs, Limbs.readFrom l 0 k = .ok vs ∧ vs.map BitVec.toNat = l.values k := by
  refine ⟨_, Limbs.readFrom_ok l k 0 fun j _ h2 => h j (by omega), ?_⟩
  simp only [Limbs.values, List.map_map, List.range_eq_range']
  rfl

@[simp] theorem Limbs.length_values (l : Limbs) (k : Nat) : (l.values k).length = k := by
  simp [Limbs.values]

theorem Limbs.getD_values (l : Limbs) {k i : Nat} (h : i < k) :
    (l.values k).getD i 0 = ((Limbs.read l i).getD 0).toNat := by
  simp [Limbs.values, List.getD, h]

/-- Every limb is below the radix. -/
theorem Limbs.values_lt (l : Limbs) (k : Nat) : ∀ x ∈ l.values k, x < radix := by
  intro x hx
  simp only [Limbs.values, List.mem_map] at hx
  obtain ⟨i, _, rfl⟩ := hx
  exact BitVec.isLt _

/-- Reading k limbs goes on with their values where they are written. -/
theorem withLimbs_written {buf : Buffer} {l : Limbs} {k : Nat} (h : l.Written k) (go : List Nat → Result) :
    withLimbs buf l 0 k go = go (l.values k) := by
  obtain ⟨vs, h1, h2⟩ := Limbs.readFrom_values h
  simp only [withLimbs, h1, h2]

/-- Reading a run with an unwritten limb faults. -/
theorem withLimbs_unwritten {buf : Buffer} {l : Limbs} {k j : Nat} (hj : j < k) (h : Limbs.read l j = none)
    (go : List Nat → Result) :
    ∃ u, u < k ∧ Limbs.read l u = none ∧ withLimbs buf l 0 k go = .fault (.unwrittenLimb buf u) := by
  obtain ⟨u, h1, _, h3, h4⟩ := Limbs.readFrom_error l k 0 j (by omega) (by omega) h
  exact ⟨u, by omega, h4, by simp only [withLimbs, h1]⟩

/-- Runs of limbs that hold the same are read the same. -/
theorem Limbs.readFrom_congr {l l' : Limbs} :
    ∀ (k i : Nat), (∀ j, i ≤ j → j < i + k → Limbs.read l' j = Limbs.read l j) → Limbs.readFrom l' i k = Limbs.readFrom l i k := by
  intro k
  induction k with
  | zero => intro i _; rfl
  | succ k ih =>
    intro i h
    simp only [Limbs.readFrom]
    rw [h i (le_refl _) (by omega), ih (i + 1) fun j h1 h2 => h j (by omega) (by omega)]

/-- Reading k limbs depends on those limbs and on what goes on with them. -/
theorem withLimbs_congr {buf : Buffer} {l l' : Limbs} {k : Nat} {go go' : List Nat → Result}
    (h : ∀ i < k, Limbs.read l' i = Limbs.read l i) (hg : ∀ x, go' x = go x) :
    withLimbs buf l' 0 k go' = withLimbs buf l 0 k go := by
  rw [show go' = go from funext hg]
  unfold withLimbs
  rw [Limbs.readFrom_congr k 0 fun j _ h2 => h j (by omega)]

/-- Reading one limb depends on that limb and on what goes on with it. -/
theorem withLimb_congr {buf : Buffer} {l l' : Limbs} {i : Nat} {go go' : Nat → Result}
    (h : Limbs.read l' i = Limbs.read l i) (hg : ∀ x, go' x = go x) : withLimb buf l' i go' = withLimb buf l i go := by
  rw [show go' = go from funext hg]
  unfold withLimb
  rw [h]

theorem withLimb_written {buf : Buffer} {l : Limbs} {i : Nat} {v : Word} (h : Limbs.read l i = some v) (go : Nat → Result) :
    withLimb buf l i go = go v.toNat := by
  simp only [withLimb, h]

theorem withLimb_unwritten {buf : Buffer} {l : Limbs} {i : Nat} (h : Limbs.read l i = none) (go : Nat → Result) :
    withLimb buf l i go = .fault (.unwrittenLimb buf i) := by
  simp only [withLimb, h]

/-- What reading k limbs can do: go on with the values of k limbs below the radix, or fault. -/
theorem withLimbs_cases {buf : Buffer} (l : Limbs) (k : Nat) (go : List Nat → Result) :
    (l.Written k ∧ withLimbs buf l 0 k go = go (l.values k)) ∨
      ∃ u, u < k ∧ Limbs.read l u = none ∧ withLimbs buf l 0 k go = .fault (.unwrittenLimb buf u) := by
  by_cases h : l.Written k
  · exact .inl ⟨h, withLimbs_written h go⟩
  · simp only [Limbs.Written, not_forall] at h
    obtain ⟨j, hj, hn⟩ := h
    exact .inr (withLimbs_unwritten hj (by simpa using hn) go)

/-- What reading one limb can do. -/
theorem withLimb_cases {buf : Buffer} (l : Limbs) (i : Nat) (go : Nat → Result) :
    (∃ v, Limbs.read l i = some v ∧ withLimb buf l i go = go v.toNat) ∨
      (Limbs.read l i = none ∧ withLimb buf l i go = .fault (.unwrittenLimb buf i)) := by
  cases h : Limbs.read l i with
  | none => exact .inr ⟨rfl, withLimb_unwritten h go⟩
  | some v => exact .inl ⟨v, rfl, withLimb_written h go⟩

/-- A run written from 0 is what `values` then lists. -/
theorem Limbs.values_writeFrom (l : Limbs) {vs : List Nat} (hv : ∀ x ∈ vs, x < radix) {k : Nat} (hk : k ≤ vs.length) :
    (Limbs.writeFrom l 0 (vs.map Word.ofNat)).values k = vs.take k := by
  apply List.ext_getElem
  · simp [hk]
  · intro i h1 h2
    have hi : i < vs.length := by simp at h1; omega
    simp only [Limbs.values, List.getElem_map, List.getElem_range, List.getElem_take]
    rw [Limbs.read_writeFrom_below _ _ (by simpa using hi)]
    simp only [List.getElem_map, Option.getD_some, Word.ofNat, BitVec.toNat_ofNat]
    exact Nat.mod_eq_of_lt (hv _ (List.getElem_mem hi))

/-- A limb of the first k written ones holds the value `values` lists. -/
theorem Limbs.Written.read {l : Limbs} {k i : Nat} (h : l.Written k) (hi : i < k) :
    ∃ v, Limbs.read l i = some v ∧ v.toNat = (l.values k).getD i 0 := by
  obtain ⟨v, hv⟩ := Option.isSome_iff_exists.1 (h i hi)
  exact ⟨v, hv, by rw [Limbs.getD_values l hi, hv]; rfl⟩

end Sys2Proof.Machine
end

