-- ==== Sys2Proof/Laws/State.lean ====
section
/-! SUPPORT. One lemma per field per update of the state, so that no later proof unfolds a record update. -/

namespace Sys2Proof.Machine

section FieldLemmas

variable (s : State)

/-! the end of a command -/

@[simp] theorem State.finish_params (code : ErrCode) : (s.finish code).params = s.params := rfl
@[simp] theorem State.finish_rst (code : ErrCode) : (s.finish code).rst = s.rst := rfl
@[simp] theorem State.finish_ie (code : ErrCode) : (s.finish code).ie = s.ie := rfl
@[simp] theorem State.finish_status (code : ErrCode) : (s.finish code).status = s.status.finished code := rfl
@[simp] theorem State.finish_nlen (code : ErrCode) : (s.finish code).nlen = s.nlen := rfl
@[simp] theorem State.finish_dlen (code : ErrCode) : (s.finish code).dlen = s.dlen := rfl
@[simp] theorem State.finish_bits (code : ErrCode) : (s.finish code).bits = s.bits := rfl
@[simp] theorem State.finish_fin (code : ErrCode) : (s.finish code).fin = s.fin := rfl
@[simp] theorem State.finish_fres (code : ErrCode) : (s.finish code).fres = s.fres := rfl
@[simp] theorem State.finish_deff (code : ErrCode) : (s.finish code).deff = s.deff := rfl
@[simp] theorem State.finish_ewidth (code : ErrCode) : (s.finish code).ewidth = s.ewidth := rfl
@[simp] theorem State.finish_est (code : ErrCode) : (s.finish code).est = s.est := rfl
@[simp] theorem State.finish_a (code : ErrCode) : (s.finish code).a = s.a := rfl
@[simp] theorem State.finish_b (code : ErrCode) : (s.finish code).b = s.b := rfl
@[simp] theorem State.finish_inflight (code : ErrCode) : (s.finish code).inflight = none := rfl
@[simp] theorem State.finish_hostOps (code : ErrCode) : (s.finish code).hostOps = s.hostOps := rfl
@[simp] theorem State.finish_turns (code : ErrCode) : (s.finish code).turns = s.turns := rfl
@[simp] theorem State.finish_rdata (code : ErrCode) : (s.finish code).rdata = s.rdata := rfl
@[simp] theorem State.finish_draws (code : ErrCode) : (s.finish code).draws = s.draws := rfl
@[simp] theorem State.finish_live (code : ErrCode) : (s.finish code).live = s.live := rfl
@[simp] theorem State.finish_lmax (code : ErrCode) : (s.finish code).lmax = s.lmax := rfl

/-! a host write to STATUS -/

@[simp] theorem State.acknowledge_params (v : Word) : (s.acknowledge v).params = s.params := rfl
@[simp] theorem State.acknowledge_rst (v : Word) : (s.acknowledge v).rst = s.rst := rfl
@[simp] theorem State.acknowledge_ie (v : Word) : (s.acknowledge v).ie = s.ie := rfl
@[simp] theorem State.acknowledge_status (v : Word) : (s.acknowledge v).status = s.status.acknowledged v := rfl
@[simp] theorem State.acknowledge_nlen (v : Word) : (s.acknowledge v).nlen = s.nlen := rfl
@[simp] theorem State.acknowledge_dlen (v : Word) : (s.acknowledge v).dlen = s.dlen := rfl
@[simp] theorem State.acknowledge_bits (v : Word) : (s.acknowledge v).bits = s.bits := rfl
@[simp] theorem State.acknowledge_fin (v : Word) : (s.acknowledge v).fin = s.fin := rfl
@[simp] theorem State.acknowledge_fres (v : Word) : (s.acknowledge v).fres = s.fres := rfl
@[simp] theorem State.acknowledge_deff (v : Word) : (s.acknowledge v).deff = s.deff := rfl
@[simp] theorem State.acknowledge_ewidth (v : Word) : (s.acknowledge v).ewidth = s.ewidth := rfl
@[simp] theorem State.acknowledge_est (v : Word) : (s.acknowledge v).est = s.est := rfl
@[simp] theorem State.acknowledge_a (v : Word) : (s.acknowledge v).a = s.a := rfl
@[simp] theorem State.acknowledge_b (v : Word) : (s.acknowledge v).b = s.b := rfl
@[simp] theorem State.acknowledge_inflight (v : Word) : (s.acknowledge v).inflight = s.inflight := rfl
@[simp] theorem State.acknowledge_hostOps (v : Word) : (s.acknowledge v).hostOps = s.hostOps := rfl
@[simp] theorem State.acknowledge_turns (v : Word) : (s.acknowledge v).turns = s.turns := rfl
@[simp] theorem State.acknowledge_rdata (v : Word) : (s.acknowledge v).rdata = s.rdata := rfl
@[simp] theorem State.acknowledge_draws (v : Word) : (s.acknowledge v).draws = s.draws := rfl
@[simp] theorem State.acknowledge_live (v : Word) : (s.acknowledge v).live = s.live := rfl
@[simp] theorem State.acknowledge_operands (v : Word) : (s.acknowledge v).operands = s.operands := rfl
@[simp] theorem State.acknowledge_lmax (v : Word) : (s.acknowledge v).lmax = s.lmax := rfl

/-! a command issue -/

@[simp] theorem State.issue_params (v : Word) : (s.issue v).params = s.params := rfl
@[simp] theorem State.issue_rst (v : Word) : (s.issue v).rst = s.rst := rfl
@[simp] theorem State.issue_ie (v : Word) : (s.issue v).ie = s.ie := rfl
@[simp] theorem State.issue_status (v : Word) : (s.issue v).status = s.status.issued := rfl
@[simp] theorem State.issue_nlen (v : Word) : (s.issue v).nlen = s.nlen := rfl
@[simp] theorem State.issue_dlen (v : Word) : (s.issue v).dlen = s.dlen := rfl
@[simp] theorem State.issue_bits (v : Word) : (s.issue v).bits = s.bits := rfl
@[simp] theorem State.issue_fin (v : Word) : (s.issue v).fin = s.fin := rfl
@[simp] theorem State.issue_fres (v : Word) : (s.issue v).fres = s.fres := rfl
@[simp] theorem State.issue_deff (v : Word) : (s.issue v).deff = s.deff := rfl
@[simp] theorem State.issue_ewidth (v : Word) : (s.issue v).ewidth = s.ewidth := rfl
@[simp] theorem State.issue_est (v : Word) : (s.issue v).est = s.est := rfl
@[simp] theorem State.issue_a (v : Word) : (s.issue v).a = s.a := rfl
@[simp] theorem State.issue_b (v : Word) : (s.issue v).b = s.b := rfl
@[simp] theorem State.issue_inflight (v : Word) : (s.issue v).inflight = some { word := v, operands := s.live } := rfl
@[simp] theorem State.issue_hostOps (v : Word) : (s.issue v).hostOps = s.hostOps := rfl
@[simp] theorem State.issue_turns (v : Word) : (s.issue v).turns = s.turns := rfl
@[simp] theorem State.issue_rdata (v : Word) : (s.issue v).rdata = s.rdata := rfl
@[simp] theorem State.issue_draws (v : Word) : (s.issue v).draws = s.draws := rfl
@[simp] theorem State.issue_live (v : Word) : (s.issue v).live = s.live := rfl
@[simp] theorem State.issue_lmax (v : Word) : (s.issue v).lmax = s.lmax := rfl

/-! a dropped write -/

@[simp] theorem State.drop_params : (s.drop).params = s.params := rfl
@[simp] theorem State.drop_rst : (s.drop).rst = s.rst := rfl
@[simp] theorem State.drop_ie : (s.drop).ie = s.ie := rfl
@[simp] theorem State.drop_status : (s.drop).status = s.status.dropped := rfl
@[simp] theorem State.drop_nlen : (s.drop).nlen = s.nlen := rfl
@[simp] theorem State.drop_dlen : (s.drop).dlen = s.dlen := rfl
@[simp] theorem State.drop_bits : (s.drop).bits = s.bits := rfl
@[simp] theorem State.drop_fin : (s.drop).fin = s.fin := rfl
@[simp] theorem State.drop_fres : (s.drop).fres = s.fres := rfl
@[simp] theorem State.drop_deff : (s.drop).deff = s.deff := rfl
@[simp] theorem State.drop_ewidth : (s.drop).ewidth = s.ewidth := rfl
@[simp] theorem State.drop_est : (s.drop).est = s.est := rfl
@[simp] theorem State.drop_a : (s.drop).a = s.a := rfl
@[simp] theorem State.drop_b : (s.drop).b = s.b := rfl
@[simp] theorem State.drop_inflight : (s.drop).inflight = s.inflight := rfl
@[simp] theorem State.drop_hostOps : (s.drop).hostOps = s.hostOps := rfl
@[simp] theorem State.drop_turns : (s.drop).turns = s.turns := rfl
@[simp] theorem State.drop_rdata : (s.drop).rdata = s.rdata := rfl
@[simp] theorem State.drop_draws : (s.drop).draws = s.draws := rfl
@[simp] theorem State.drop_live : (s.drop).live = s.live := rfl
@[simp] theorem State.drop_operands : (s.drop).operands = s.operands := rfl
@[simp] theorem State.drop_lmax : (s.drop).lmax = s.lmax := rfl

/-! the results in A -/

@[simp] theorem State.writeA_params (vs : List Nat) : (s.writeA vs).params = s.params := rfl
@[simp] theorem State.writeA_rst (vs : List Nat) : (s.writeA vs).rst = s.rst := rfl
@[simp] theorem State.writeA_ie (vs : List Nat) : (s.writeA vs).ie = s.ie := rfl
@[simp] theorem State.writeA_status (vs : List Nat) : (s.writeA vs).status = s.status := rfl
@[simp] theorem State.writeA_nlen (vs : List Nat) : (s.writeA vs).nlen = s.nlen := rfl
@[simp] theorem State.writeA_dlen (vs : List Nat) : (s.writeA vs).dlen = s.dlen := rfl
@[simp] theorem State.writeA_bits (vs : List Nat) : (s.writeA vs).bits = s.bits := rfl
@[simp] theorem State.writeA_fin (vs : List Nat) : (s.writeA vs).fin = s.fin := rfl
@[simp] theorem State.writeA_fres (vs : List Nat) : (s.writeA vs).fres = s.fres := rfl
@[simp] theorem State.writeA_deff (vs : List Nat) : (s.writeA vs).deff = s.deff := rfl
@[simp] theorem State.writeA_ewidth (vs : List Nat) : (s.writeA vs).ewidth = s.ewidth := rfl
@[simp] theorem State.writeA_est (vs : List Nat) : (s.writeA vs).est = s.est := rfl
@[simp] theorem State.writeA_a (vs : List Nat) : (s.writeA vs).a = Limbs.writeFrom s.a 0 (vs.map Word.ofNat) := rfl
@[simp] theorem State.writeA_b (vs : List Nat) : (s.writeA vs).b = s.b := rfl
@[simp] theorem State.writeA_inflight (vs : List Nat) : (s.writeA vs).inflight = s.inflight := rfl
@[simp] theorem State.writeA_hostOps (vs : List Nat) : (s.writeA vs).hostOps = s.hostOps := rfl
@[simp] theorem State.writeA_turns (vs : List Nat) : (s.writeA vs).turns = s.turns := rfl
@[simp] theorem State.writeA_rdata (vs : List Nat) : (s.writeA vs).rdata = s.rdata := rfl
@[simp] theorem State.writeA_draws (vs : List Nat) : (s.writeA vs).draws = s.draws := rfl
@[simp] theorem State.writeA_lmax (vs : List Nat) : (s.writeA vs).lmax = s.lmax := rfl

/-! the results in B -/

@[simp] theorem State.writeB_params (vs : List Nat) : (s.writeB vs).params = s.params := rfl
@[simp] theorem State.writeB_rst (vs : List Nat) : (s.writeB vs).rst = s.rst := rfl
@[simp] theorem State.writeB_ie (vs : List Nat) : (s.writeB vs).ie = s.ie := rfl
@[simp] theorem State.writeB_status (vs : List Nat) : (s.writeB vs).status = s.status := rfl
@[simp] theorem State.writeB_nlen (vs : List Nat) : (s.writeB vs).nlen = s.nlen := rfl
@[simp] theorem State.writeB_dlen (vs : List Nat) : (s.writeB vs).dlen = s.dlen := rfl
@[simp] theorem State.writeB_bits (vs : List Nat) : (s.writeB vs).bits = s.bits := rfl
@[simp] theorem State.writeB_fin (vs : List Nat) : (s.writeB vs).fin = s.fin := rfl
@[simp] theorem State.writeB_fres (vs : List Nat) : (s.writeB vs).fres = s.fres := rfl
@[simp] theorem State.writeB_deff (vs : List Nat) : (s.writeB vs).deff = s.deff := rfl
@[simp] theorem State.writeB_ewidth (vs : List Nat) : (s.writeB vs).ewidth = s.ewidth := rfl
@[simp] theorem State.writeB_est (vs : List Nat) : (s.writeB vs).est = s.est := rfl
@[simp] theorem State.writeB_a (vs : List Nat) : (s.writeB vs).a = s.a := rfl
@[simp] theorem State.writeB_b (vs : List Nat) : (s.writeB vs).b = Limbs.writeFrom s.b 0 (vs.map Word.ofNat) := rfl
@[simp] theorem State.writeB_inflight (vs : List Nat) : (s.writeB vs).inflight = s.inflight := rfl
@[simp] theorem State.writeB_hostOps (vs : List Nat) : (s.writeB vs).hostOps = s.hostOps := rfl
@[simp] theorem State.writeB_turns (vs : List Nat) : (s.writeB vs).turns = s.turns := rfl
@[simp] theorem State.writeB_rdata (vs : List Nat) : (s.writeB vs).rdata = s.rdata := rfl
@[simp] theorem State.writeB_draws (vs : List Nat) : (s.writeB vs).draws = s.draws := rfl
@[simp] theorem State.writeB_lmax (vs : List Nat) : (s.writeB vs).lmax = s.lmax := rfl

/-! DEFF -/

@[simp] theorem State.setDeff_params (m : Nat) : (s.setDeff m).params = s.params := rfl
@[simp] theorem State.setDeff_rst (m : Nat) : (s.setDeff m).rst = s.rst := rfl
@[simp] theorem State.setDeff_ie (m : Nat) : (s.setDeff m).ie = s.ie := rfl
@[simp] theorem State.setDeff_status (m : Nat) : (s.setDeff m).status = s.status := rfl
@[simp] theorem State.setDeff_nlen (m : Nat) : (s.setDeff m).nlen = s.nlen := rfl
@[simp] theorem State.setDeff_dlen (m : Nat) : (s.setDeff m).dlen = s.dlen := rfl
@[simp] theorem State.setDeff_bits (m : Nat) : (s.setDeff m).bits = s.bits := rfl
@[simp] theorem State.setDeff_fin (m : Nat) : (s.setDeff m).fin = s.fin := rfl
@[simp] theorem State.setDeff_fres (m : Nat) : (s.setDeff m).fres = s.fres := rfl
@[simp] theorem State.setDeff_deff (m : Nat) : (s.setDeff m).deff = BitVec.ofNat 16 m := rfl
@[simp] theorem State.setDeff_ewidth (m : Nat) : (s.setDeff m).ewidth = s.ewidth := rfl
@[simp] theorem State.setDeff_est (m : Nat) : (s.setDeff m).est = s.est := rfl
@[simp] theorem State.setDeff_a (m : Nat) : (s.setDeff m).a = s.a := rfl
@[simp] theorem State.setDeff_b (m : Nat) : (s.setDeff m).b = s.b := rfl
@[simp] theorem State.setDeff_inflight (m : Nat) : (s.setDeff m).inflight = s.inflight := rfl
@[simp] theorem State.setDeff_hostOps (m : Nat) : (s.setDeff m).hostOps = s.hostOps := rfl
@[simp] theorem State.setDeff_turns (m : Nat) : (s.setDeff m).turns = s.turns := rfl
@[simp] theorem State.setDeff_rdata (m : Nat) : (s.setDeff m).rdata = s.rdata := rfl
@[simp] theorem State.setDeff_draws (m : Nat) : (s.setDeff m).draws = s.draws := rfl
@[simp] theorem State.setDeff_live (m : Nat) : (s.setDeff m).live = s.live := rfl
@[simp] theorem State.setDeff_operands (m : Nat) : (s.setDeff m).operands = s.operands := rfl
@[simp] theorem State.setDeff_lmax (m : Nat) : (s.setDeff m).lmax = s.lmax := rfl

/-! EWIDTH -/

@[simp] theorem State.setEwidth_params (w : Nat) : (s.setEwidth w).params = s.params := rfl
@[simp] theorem State.setEwidth_rst (w : Nat) : (s.setEwidth w).rst = s.rst := rfl
@[simp] theorem State.setEwidth_ie (w : Nat) : (s.setEwidth w).ie = s.ie := rfl
@[simp] theorem State.setEwidth_status (w : Nat) : (s.setEwidth w).status = s.status := rfl
@[simp] theorem State.setEwidth_nlen (w : Nat) : (s.setEwidth w).nlen = s.nlen := rfl
@[simp] theorem State.setEwidth_dlen (w : Nat) : (s.setEwidth w).dlen = s.dlen := rfl
@[simp] theorem State.setEwidth_bits (w : Nat) : (s.setEwidth w).bits = s.bits := rfl
@[simp] theorem State.setEwidth_fin (w : Nat) : (s.setEwidth w).fin = s.fin := rfl
@[simp] theorem State.setEwidth_fres (w : Nat) : (s.setEwidth w).fres = s.fres := rfl
@[simp] theorem State.setEwidth_deff (w : Nat) : (s.setEwidth w).deff = s.deff := rfl
@[simp] theorem State.setEwidth_ewidth (w : Nat) : (s.setEwidth w).ewidth = BitVec.ofNat 32 w := rfl
@[simp] theorem State.setEwidth_est (w : Nat) : (s.setEwidth w).est = s.est := rfl
@[simp] theorem State.setEwidth_a (w : Nat) : (s.setEwidth w).a = s.a := rfl
@[simp] theorem State.setEwidth_b (w : Nat) : (s.setEwidth w).b = s.b := rfl
@[simp] theorem State.setEwidth_inflight (w : Nat) : (s.setEwidth w).inflight = s.inflight := rfl
@[simp] theorem State.setEwidth_hostOps (w : Nat) : (s.setEwidth w).hostOps = s.hostOps := rfl
@[simp] theorem State.setEwidth_turns (w : Nat) : (s.setEwidth w).turns = s.turns := rfl
@[simp] theorem State.setEwidth_rdata (w : Nat) : (s.setEwidth w).rdata = s.rdata := rfl
@[simp] theorem State.setEwidth_draws (w : Nat) : (s.setEwidth w).draws = s.draws := rfl
@[simp] theorem State.setEwidth_live (w : Nat) : (s.setEwidth w).live = s.live := rfl
@[simp] theorem State.setEwidth_operands (w : Nat) : (s.setEwidth w).operands = s.operands := rfl
@[simp] theorem State.setEwidth_lmax (w : Nat) : (s.setEwidth w).lmax = s.lmax := rfl

/-! FRES -/

@[simp] theorem State.setFres_params (x : Nat) : (s.setFres x).params = s.params := rfl
@[simp] theorem State.setFres_rst (x : Nat) : (s.setFres x).rst = s.rst := rfl
@[simp] theorem State.setFres_ie (x : Nat) : (s.setFres x).ie = s.ie := rfl
@[simp] theorem State.setFres_status (x : Nat) : (s.setFres x).status = s.status := rfl
@[simp] theorem State.setFres_nlen (x : Nat) : (s.setFres x).nlen = s.nlen := rfl
@[simp] theorem State.setFres_dlen (x : Nat) : (s.setFres x).dlen = s.dlen := rfl
@[simp] theorem State.setFres_bits (x : Nat) : (s.setFres x).bits = s.bits := rfl
@[simp] theorem State.setFres_fin (x : Nat) : (s.setFres x).fin = s.fin := rfl
@[simp] theorem State.setFres_fres (x : Nat) : (s.setFres x).fres = Word.ofNat x := rfl
@[simp] theorem State.setFres_deff (x : Nat) : (s.setFres x).deff = s.deff := rfl
@[simp] theorem State.setFres_ewidth (x : Nat) : (s.setFres x).ewidth = s.ewidth := rfl
@[simp] theorem State.setFres_est (x : Nat) : (s.setFres x).est = s.est := rfl
@[simp] theorem State.setFres_a (x : Nat) : (s.setFres x).a = s.a := rfl
@[simp] theorem State.setFres_b (x : Nat) : (s.setFres x).b = s.b := rfl
@[simp] theorem State.setFres_inflight (x : Nat) : (s.setFres x).inflight = s.inflight := rfl
@[simp] theorem State.setFres_hostOps (x : Nat) : (s.setFres x).hostOps = s.hostOps := rfl
@[simp] theorem State.setFres_turns (x : Nat) : (s.setFres x).turns = s.turns := rfl
@[simp] theorem State.setFres_rdata (x : Nat) : (s.setFres x).rdata = s.rdata := rfl
@[simp] theorem State.setFres_draws (x : Nat) : (s.setFres x).draws = s.draws := rfl
@[simp] theorem State.setFres_live (x : Nat) : (s.setFres x).live = s.live := rfl
@[simp] theorem State.setFres_operands (x : Nat) : (s.setFres x).operands = s.operands := rfl
@[simp] theorem State.setFres_lmax (x : Nat) : (s.setFres x).lmax = s.lmax := rfl

/-! EST -/

@[simp] theorem State.setEst_params (q : Nat) : (s.setEst q).params = s.params := rfl
@[simp] theorem State.setEst_rst (q : Nat) : (s.setEst q).rst = s.rst := rfl
@[simp] theorem State.setEst_ie (q : Nat) : (s.setEst q).ie = s.ie := rfl
@[simp] theorem State.setEst_status (q : Nat) : (s.setEst q).status = s.status := rfl
@[simp] theorem State.setEst_nlen (q : Nat) : (s.setEst q).nlen = s.nlen := rfl
@[simp] theorem State.setEst_dlen (q : Nat) : (s.setEst q).dlen = s.dlen := rfl
@[simp] theorem State.setEst_bits (q : Nat) : (s.setEst q).bits = s.bits := rfl
@[simp] theorem State.setEst_fin (q : Nat) : (s.setEst q).fin = s.fin := rfl
@[simp] theorem State.setEst_fres (q : Nat) : (s.setEst q).fres = s.fres := rfl
@[simp] theorem State.setEst_deff (q : Nat) : (s.setEst q).deff = s.deff := rfl
@[simp] theorem State.setEst_ewidth (q : Nat) : (s.setEst q).ewidth = s.ewidth := rfl
@[simp] theorem State.setEst_est (q : Nat) : (s.setEst q).est = Word.ofNat q := rfl
@[simp] theorem State.setEst_a (q : Nat) : (s.setEst q).a = s.a := rfl
@[simp] theorem State.setEst_b (q : Nat) : (s.setEst q).b = s.b := rfl
@[simp] theorem State.setEst_inflight (q : Nat) : (s.setEst q).inflight = s.inflight := rfl
@[simp] theorem State.setEst_hostOps (q : Nat) : (s.setEst q).hostOps = s.hostOps := rfl
@[simp] theorem State.setEst_turns (q : Nat) : (s.setEst q).turns = s.turns := rfl
@[simp] theorem State.setEst_rdata (q : Nat) : (s.setEst q).rdata = s.rdata := rfl
@[simp] theorem State.setEst_draws (q : Nat) : (s.setEst q).draws = s.draws := rfl
@[simp] theorem State.setEst_live (q : Nat) : (s.setEst q).live = s.live := rfl
@[simp] theorem State.setEst_operands (q : Nat) : (s.setEst q).operands = s.operands := rfl
@[simp] theorem State.setEst_lmax (q : Nat) : (s.setEst q).lmax = s.lmax := rfl

/-! a read's answer -/

@[simp] theorem State.reply_params (v : Word) : (s.reply v).params = s.params := rfl
@[simp] theorem State.reply_rst (v : Word) : (s.reply v).rst = s.rst := rfl
@[simp] theorem State.reply_ie (v : Word) : (s.reply v).ie = s.ie := rfl
@[simp] theorem State.reply_status (v : Word) : (s.reply v).status = s.status := rfl
@[simp] theorem State.reply_nlen (v : Word) : (s.reply v).nlen = s.nlen := rfl
@[simp] theorem State.reply_dlen (v : Word) : (s.reply v).dlen = s.dlen := rfl
@[simp] theorem State.reply_bits (v : Word) : (s.reply v).bits = s.bits := rfl
@[simp] theorem State.reply_fin (v : Word) : (s.reply v).fin = s.fin := rfl
@[simp] theorem State.reply_fres (v : Word) : (s.reply v).fres = s.fres := rfl
@[simp] theorem State.reply_deff (v : Word) : (s.reply v).deff = s.deff := rfl
@[simp] theorem State.reply_ewidth (v : Word) : (s.reply v).ewidth = s.ewidth := rfl
@[simp] theorem State.reply_est (v : Word) : (s.reply v).est = s.est := rfl
@[simp] theorem State.reply_a (v : Word) : (s.reply v).a = s.a := rfl
@[simp] theorem State.reply_b (v : Word) : (s.reply v).b = s.b := rfl
@[simp] theorem State.reply_inflight (v : Word) : (s.reply v).inflight = s.inflight := rfl
@[simp] theorem State.reply_hostOps (v : Word) : (s.reply v).hostOps = s.hostOps := rfl
@[simp] theorem State.reply_turns (v : Word) : (s.reply v).turns = s.turns := rfl
@[simp] theorem State.reply_rdata (v : Word) : (s.reply v).rdata = some (byteLanes v) := rfl
@[simp] theorem State.reply_draws (v : Word) : (s.reply v).draws = s.draws := rfl
@[simp] theorem State.reply_live (v : Word) : (s.reply v).live = s.live := rfl
@[simp] theorem State.reply_operands (v : Word) : (s.reply v).operands = s.operands := rfl
@[simp] theorem State.reply_lmax (v : Word) : (s.reply v).lmax = s.lmax := rfl

/-! an any-value read -/

@[simp] theorem State.drawReply_params : (s.drawReply).params = s.params := rfl
@[simp] theorem State.drawReply_rst : (s.drawReply).rst = s.rst := rfl
@[simp] theorem State.drawReply_ie : (s.drawReply).ie = s.ie := rfl
@[simp] theorem State.drawReply_status : (s.drawReply).status = s.status := rfl
@[simp] theorem State.drawReply_nlen : (s.drawReply).nlen = s.nlen := rfl
@[simp] theorem State.drawReply_dlen : (s.drawReply).dlen = s.dlen := rfl
@[simp] theorem State.drawReply_bits : (s.drawReply).bits = s.bits := rfl
@[simp] theorem State.drawReply_fin : (s.drawReply).fin = s.fin := rfl
@[simp] theorem State.drawReply_fres : (s.drawReply).fres = s.fres := rfl
@[simp] theorem State.drawReply_deff : (s.drawReply).deff = s.deff := rfl
@[simp] theorem State.drawReply_ewidth : (s.drawReply).ewidth = s.ewidth := rfl
@[simp] theorem State.drawReply_est : (s.drawReply).est = s.est := rfl
@[simp] theorem State.drawReply_a : (s.drawReply).a = s.a := rfl
@[simp] theorem State.drawReply_b : (s.drawReply).b = s.b := rfl
@[simp] theorem State.drawReply_inflight : (s.drawReply).inflight = s.inflight := rfl
@[simp] theorem State.drawReply_hostOps : (s.drawReply).hostOps = s.hostOps := rfl
@[simp] theorem State.drawReply_turns : (s.drawReply).turns = s.turns := rfl
@[simp] theorem State.drawReply_rdata : (s.drawReply).rdata = some (byteLanes (Config.busyRead s.draws)) := rfl
@[simp] theorem State.drawReply_draws : (s.drawReply).draws = s.draws + 1 := rfl
@[simp] theorem State.drawReply_live : (s.drawReply).live = s.live := rfl
@[simp] theorem State.drawReply_operands : (s.drawReply).operands = s.operands := rfl
@[simp] theorem State.drawReply_lmax : (s.drawReply).lmax = s.lmax := rfl

/-! an ignored read -/

@[simp] theorem State.noReply_params : (s.noReply).params = s.params := rfl
@[simp] theorem State.noReply_rst : (s.noReply).rst = s.rst := rfl
@[simp] theorem State.noReply_ie : (s.noReply).ie = s.ie := rfl
@[simp] theorem State.noReply_status : (s.noReply).status = s.status := rfl
@[simp] theorem State.noReply_nlen : (s.noReply).nlen = s.nlen := rfl
@[simp] theorem State.noReply_dlen : (s.noReply).dlen = s.dlen := rfl
@[simp] theorem State.noReply_bits : (s.noReply).bits = s.bits := rfl
@[simp] theorem State.noReply_fin : (s.noReply).fin = s.fin := rfl
@[simp] theorem State.noReply_fres : (s.noReply).fres = s.fres := rfl
@[simp] theorem State.noReply_deff : (s.noReply).deff = s.deff := rfl
@[simp] theorem State.noReply_ewidth : (s.noReply).ewidth = s.ewidth := rfl
@[simp] theorem State.noReply_est : (s.noReply).est = s.est := rfl
@[simp] theorem State.noReply_a : (s.noReply).a = s.a := rfl
@[simp] theorem State.noReply_b : (s.noReply).b = s.b := rfl
@[simp] theorem State.noReply_inflight : (s.noReply).inflight = s.inflight := rfl
@[simp] theorem State.noReply_hostOps : (s.noReply).hostOps = s.hostOps := rfl
@[simp] theorem State.noReply_turns : (s.noReply).turns = s.turns := rfl
@[simp] theorem State.noReply_rdata : (s.noReply).rdata = none := rfl
@[simp] theorem State.noReply_draws : (s.noReply).draws = s.draws := rfl
@[simp] theorem State.noReply_live : (s.noReply).live = s.live := rfl
@[simp] theorem State.noReply_operands : (s.noReply).operands = s.operands := rfl
@[simp] theorem State.noReply_lmax : (s.noReply).lmax = s.lmax := rfl

/-! the host's program -/

@[simp] theorem State.setHostOps_params (ops : List HostOp) : (s.setHostOps ops).params = s.params := rfl
@[simp] theorem State.setHostOps_rst (ops : List HostOp) : (s.setHostOps ops).rst = s.rst := rfl
@[simp] theorem State.setHostOps_ie (ops : List HostOp) : (s.setHostOps ops).ie = s.ie := rfl
@[simp] theorem State.setHostOps_status (ops : List HostOp) : (s.setHostOps ops).status = s.status := rfl
@[simp] theorem State.setHostOps_nlen (ops : List HostOp) : (s.setHostOps ops).nlen = s.nlen := rfl
@[simp] theorem State.setHostOps_dlen (ops : List HostOp) : (s.setHostOps ops).dlen = s.dlen := rfl
@[simp] theorem State.setHostOps_bits (ops : List HostOp) : (s.setHostOps ops).bits = s.bits := rfl
@[simp] theorem State.setHostOps_fin (ops : List HostOp) : (s.setHostOps ops).fin = s.fin := rfl
@[simp] theorem State.setHostOps_fres (ops : List HostOp) : (s.setHostOps ops).fres = s.fres := rfl
@[simp] theorem State.setHostOps_deff (ops : List HostOp) : (s.setHostOps ops).deff = s.deff := rfl
@[simp] theorem State.setHostOps_ewidth (ops : List HostOp) : (s.setHostOps ops).ewidth = s.ewidth := rfl
@[simp] theorem State.setHostOps_est (ops : List HostOp) : (s.setHostOps ops).est = s.est := rfl
@[simp] theorem State.setHostOps_a (ops : List HostOp) : (s.setHostOps ops).a = s.a := rfl
@[simp] theorem State.setHostOps_b (ops : List HostOp) : (s.setHostOps ops).b = s.b := rfl
@[simp] theorem State.setHostOps_inflight (ops : List HostOp) : (s.setHostOps ops).inflight = s.inflight := rfl
@[simp] theorem State.setHostOps_hostOps (ops : List HostOp) : (s.setHostOps ops).hostOps = ops := rfl
@[simp] theorem State.setHostOps_turns (ops : List HostOp) : (s.setHostOps ops).turns = s.turns := rfl
@[simp] theorem State.setHostOps_rdata (ops : List HostOp) : (s.setHostOps ops).rdata = s.rdata := rfl
@[simp] theorem State.setHostOps_draws (ops : List HostOp) : (s.setHostOps ops).draws = s.draws := rfl
@[simp] theorem State.setHostOps_live (ops : List HostOp) : (s.setHostOps ops).live = s.live := rfl
@[simp] theorem State.setHostOps_operands (ops : List HostOp) : (s.setHostOps ops).operands = s.operands := rfl
@[simp] theorem State.setHostOps_lmax (ops : List HostOp) : (s.setHostOps ops).lmax = s.lmax := rfl

/-! the turns -/

@[simp] theorem State.setTurns_params (ts : List Agent) : (s.setTurns ts).params = s.params := rfl
@[simp] theorem State.setTurns_rst (ts : List Agent) : (s.setTurns ts).rst = s.rst := rfl
@[simp] theorem State.setTurns_ie (ts : List Agent) : (s.setTurns ts).ie = s.ie := rfl
@[simp] theorem State.setTurns_status (ts : List Agent) : (s.setTurns ts).status = s.status := rfl
@[simp] theorem State.setTurns_nlen (ts : List Agent) : (s.setTurns ts).nlen = s.nlen := rfl
@[simp] theorem State.setTurns_dlen (ts : List Agent) : (s.setTurns ts).dlen = s.dlen := rfl
@[simp] theorem State.setTurns_bits (ts : List Agent) : (s.setTurns ts).bits = s.bits := rfl
@[simp] theorem State.setTurns_fin (ts : List Agent) : (s.setTurns ts).fin = s.fin := rfl
@[simp] theorem State.setTurns_fres (ts : List Agent) : (s.setTurns ts).fres = s.fres := rfl
@[simp] theorem State.setTurns_deff (ts : List Agent) : (s.setTurns ts).deff = s.deff := rfl
@[simp] theorem State.setTurns_ewidth (ts : List Agent) : (s.setTurns ts).ewidth = s.ewidth := rfl
@[simp] theorem State.setTurns_est (ts : List Agent) : (s.setTurns ts).est = s.est := rfl
@[simp] theorem State.setTurns_a (ts : List Agent) : (s.setTurns ts).a = s.a := rfl
@[simp] theorem State.setTurns_b (ts : List Agent) : (s.setTurns ts).b = s.b := rfl
@[simp] theorem State.setTurns_inflight (ts : List Agent) : (s.setTurns ts).inflight = s.inflight := rfl
@[simp] theorem State.setTurns_hostOps (ts : List Agent) : (s.setTurns ts).hostOps = s.hostOps := rfl
@[simp] theorem State.setTurns_turns (ts : List Agent) : (s.setTurns ts).turns = ts := rfl
@[simp] theorem State.setTurns_rdata (ts : List Agent) : (s.setTurns ts).rdata = s.rdata := rfl
@[simp] theorem State.setTurns_draws (ts : List Agent) : (s.setTurns ts).draws = s.draws := rfl
@[simp] theorem State.setTurns_live (ts : List Agent) : (s.setTurns ts).live = s.live := rfl
@[simp] theorem State.setTurns_operands (ts : List Agent) : (s.setTurns ts).operands = s.operands := rfl
@[simp] theorem State.setTurns_lmax (ts : List Agent) : (s.setTurns ts).lmax = s.lmax := rfl

/-! the reset event -/

@[simp] theorem State.assertReset_params : (s.assertReset).params = s.params := rfl
@[simp] theorem State.assertReset_rst : (s.assertReset).rst = true := rfl
@[simp] theorem State.assertReset_ie : (s.assertReset).ie = false := rfl
@[simp] theorem State.assertReset_status : (s.assertReset).status = Status.reset := rfl
@[simp] theorem State.assertReset_nlen : (s.assertReset).nlen = 0 := rfl
@[simp] theorem State.assertReset_dlen : (s.assertReset).dlen = 0 := rfl
@[simp] theorem State.assertReset_bits : (s.assertReset).bits = 0 := rfl
@[simp] theorem State.assertReset_fin : (s.assertReset).fin = 0 := rfl
@[simp] theorem State.assertReset_fres : (s.assertReset).fres = 0 := rfl
@[simp] theorem State.assertReset_deff : (s.assertReset).deff = 0 := rfl
@[simp] theorem State.assertReset_ewidth : (s.assertReset).ewidth = 0 := rfl
@[simp] theorem State.assertReset_est : (s.assertReset).est = 0 := rfl
@[simp] theorem State.assertReset_a : (s.assertReset).a = [] := rfl
@[simp] theorem State.assertReset_b : (s.assertReset).b = [] := rfl
@[simp] theorem State.assertReset_inflight : (s.assertReset).inflight = none := rfl
@[simp] theorem State.assertReset_hostOps : (s.assertReset).hostOps = s.hostOps := rfl
@[simp] theorem State.assertReset_turns : (s.assertReset).turns = s.turns := rfl
@[simp] theorem State.assertReset_rdata : (s.assertReset).rdata = s.rdata := rfl
@[simp] theorem State.assertReset_draws : (s.assertReset).draws = s.draws := rfl
@[simp] theorem State.assertReset_lmax : (s.assertReset).lmax = s.lmax := rfl

/-! the release of reset -/

@[simp] theorem State.releaseReset_params : (s.releaseReset).params = s.params := rfl
@[simp] theorem State.releaseReset_rst : (s.releaseReset).rst = false := rfl
@[simp] theorem State.releaseReset_ie : (s.releaseReset).ie = s.ie := rfl
@[simp] theorem State.releaseReset_status : (s.releaseReset).status = s.status := rfl
@[simp] theorem State.releaseReset_nlen : (s.releaseReset).nlen = s.nlen := rfl
@[simp] theorem State.releaseReset_dlen : (s.releaseReset).dlen = s.dlen := rfl
@[simp] theorem State.releaseReset_bits : (s.releaseReset).bits = s.bits := rfl
@[simp] theorem State.releaseReset_fin : (s.releaseReset).fin = s.fin := rfl
@[simp] theorem State.releaseReset_fres : (s.releaseReset).fres = s.fres := rfl
@[simp] theorem State.releaseReset_deff : (s.releaseReset).deff = s.deff := rfl
@[simp] theorem State.releaseReset_ewidth : (s.releaseReset).ewidth = s.ewidth := rfl
@[simp] theorem State.releaseReset_est : (s.releaseReset).est = s.est := rfl
@[simp] theorem State.releaseReset_a : (s.releaseReset).a = s.a := rfl
@[simp] theorem State.releaseReset_b : (s.releaseReset).b = s.b := rfl
@[simp] theorem State.releaseReset_inflight : (s.releaseReset).inflight = s.inflight := rfl
@[simp] theorem State.releaseReset_hostOps : (s.releaseReset).hostOps = s.hostOps := rfl
@[simp] theorem State.releaseReset_turns : (s.releaseReset).turns = s.turns := rfl
@[simp] theorem State.releaseReset_rdata : (s.releaseReset).rdata = s.rdata := rfl
@[simp] theorem State.releaseReset_draws : (s.releaseReset).draws = s.draws := rfl
@[simp] theorem State.releaseReset_live : (s.releaseReset).live = s.live := rfl
@[simp] theorem State.releaseReset_operands : (s.releaseReset).operands = s.operands := rfl
@[simp] theorem State.releaseReset_lmax : (s.releaseReset).lmax = s.lmax := rfl

/-! a host write to a limb -/

@[simp] theorem State.setLimb_params (buf : Buffer) (i : Nat) (v : Word) : (s.setLimb buf i v).params = s.params := by
  cases buf <;> rfl
@[simp] theorem State.setLimb_rst (buf : Buffer) (i : Nat) (v : Word) : (s.setLimb buf i v).rst = s.rst := by
  cases buf <;> rfl
@[simp] theorem State.setLimb_ie (buf : Buffer) (i : Nat) (v : Word) : (s.setLimb buf i v).ie = s.ie := by
  cases buf <;> rfl
@[simp] theorem State.setLimb_status (buf : Buffer) (i : Nat) (v : Word) : (s.setLimb buf i v).status = s.status := by
  cases buf <;> rfl
@[simp] theorem State.setLimb_nlen (buf : Buffer) (i : Nat) (v : Word) : (s.setLimb buf i v).nlen = s.nlen := by
  cases buf <;> rfl
@[simp] theorem State.setLimb_dlen (buf : Buffer) (i : Nat) (v : Word) : (s.setLimb buf i v).dlen = s.dlen := by
  cases buf <;> rfl
@[simp] theorem State.setLimb_bits (buf : Buffer) (i : Nat) (v : Word) : (s.setLimb buf i v).bits = s.bits := by
  cases buf <;> rfl
@[simp] theorem State.setLimb_fin (buf : Buffer) (i : Nat) (v : Word) : (s.setLimb buf i v).fin = s.fin := by
  cases buf <;> rfl
@[simp] theorem State.setLimb_fres (buf : Buffer) (i : Nat) (v : Word) : (s.setLimb buf i v).fres = s.fres := by
  cases buf <;> rfl
@[simp] theorem State.setLimb_deff (buf : Buffer) (i : Nat) (v : Word) : (s.setLimb buf i v).deff = s.deff := by
  cases buf <;> rfl
@[simp] theorem State.setLimb_ewidth (buf : Buffer) (i : Nat) (v : Word) : (s.setLimb buf i v).ewidth = s.ewidth := by
  cases buf <;> rfl
@[simp] theorem State.setLimb_est (buf : Buffer) (i : Nat) (v : Word) : (s.setLimb buf i v).est = s.est := by
  cases buf <;> rfl
@[simp] theorem State.setLimb_inflight (buf : Buffer) (i : Nat) (v : Word) : (s.setLimb buf i v).inflight = s.inflight := by
  cases buf <;> rfl
@[simp] theorem State.setLimb_hostOps (buf : Buffer) (i : Nat) (v : Word) : (s.setLimb buf i v).hostOps = s.hostOps := by
  cases buf <;> rfl
@[simp] theorem State.setLimb_turns (buf : Buffer) (i : Nat) (v : Word) : (s.setLimb buf i v).turns = s.turns := by
  cases buf <;> rfl
@[simp] theorem State.setLimb_rdata (buf : Buffer) (i : Nat) (v : Word) : (s.setLimb buf i v).rdata = s.rdata := by
  cases buf <;> rfl
@[simp] theorem State.setLimb_draws (buf : Buffer) (i : Nat) (v : Word) : (s.setLimb buf i v).draws = s.draws := by
  cases buf <;> rfl
@[simp] theorem State.setLimb_lmax (buf : Buffer) (i : Nat) (v : Word) : (s.setLimb buf i v).lmax = s.lmax := by
  cases buf <;> rfl
@[simp] theorem State.setLimb_buffer (buf : Buffer) (i : Nat) (v : Word) :
    (s.setLimb buf i v).buffer buf = Limbs.write (s.buffer buf) i v := by
  cases buf <;> rfl
@[simp] theorem State.setLimb_a_b (i : Nat) (v : Word) : (s.setLimb .a i v).b = s.b := rfl
@[simp] theorem State.setLimb_b_a (i : Nat) (v : Word) : (s.setLimb .b i v).a = s.a := rfl
@[simp] theorem State.setLimb_a_a (i : Nat) (v : Word) : (s.setLimb .a i v).a = Limbs.write s.a i v := rfl
@[simp] theorem State.setLimb_b_b (i : Nat) (v : Word) : (s.setLimb .b i v).b = Limbs.write s.b i v := rfl

/-! STATUS (10_state.md R24) -/

variable (st : Status)

@[simp] theorem Status.issued_busy : st.issued.busy = true := rfl
@[simp] theorem Status.issued_done : st.issued.done = false := rfl
@[simp] theorem Status.issued_werr : st.issued.werr = st.werr := rfl
@[simp] theorem Status.issued_err : st.issued.err = .none := rfl
@[simp] theorem Status.finished_busy (c : ErrCode) : (st.finished c).busy = false := rfl
@[simp] theorem Status.finished_done (c : ErrCode) : (st.finished c).done = true := rfl
@[simp] theorem Status.finished_werr (c : ErrCode) : (st.finished c).werr = st.werr := rfl
@[simp] theorem Status.finished_err (c : ErrCode) : (st.finished c).err = c := rfl
@[simp] theorem Status.acknowledged_busy (v : Word) : (st.acknowledged v).busy = st.busy := rfl
@[simp] theorem Status.acknowledged_done (v : Word) : (st.acknowledged v).done = (st.done && !v.getLsbD 1) := rfl
@[simp] theorem Status.acknowledged_werr (v : Word) : (st.acknowledged v).werr = (st.werr && !v.getLsbD 2) := rfl
@[simp] theorem Status.acknowledged_err (v : Word) : (st.acknowledged v).err = st.err := rfl
@[simp] theorem Status.dropped_busy : st.dropped.busy = st.busy := rfl
@[simp] theorem Status.dropped_done : st.dropped.done = st.done := rfl
@[simp] theorem Status.dropped_werr : st.dropped.werr = true := rfl
@[simp] theorem Status.dropped_err : st.dropped.err = st.err := rfl

/-! the operands of a completion -/

theorem State.operands_of_inflight (f : InFlight) (h : s.inflight = some f) : s.operands = f.operands := by
  simp [State.operands, h]

theorem State.operands_of_idle (h : s.inflight = none) : s.operands = s.live := by
  simp [State.operands, h]

/-- In a state that meets the invariant a completion computes from the live registers (70_reset_and_hazards.md R242). -/
theorem State.Inv.operands_eq_live {s : State} (h : s.Inv) : s.operands = s.live := by
  cases hf : s.inflight with
  | none => exact s.operands_of_idle hf
  | some f => rw [s.operands_of_inflight f hf, h.snapshot f hf]

end FieldLemmas

end Sys2Proof.Machine
end

