-- ==== Sys2Proof/Laws/Commands.lean ====
section
/-! SUPPORT. Once for each command, everything its completion can do; later proofs cite these and unfold no meaning. -/

namespace Sys2Proof.Machine

/-! ## DIV (40_division.md R100-R113) -/

/-- The single-limb path on k limbs: the quotient's limbs and the remainder (R103, R112). -/
theorem divideSingle_result {d : Nat} (hd : 0 < d) {as : List Nat} (has : AllLimbs as) :
    divideSingle d as.reverse 0 [] = (toLimbs as.length (limbsVal as / d), limbsVal as % d) := by
  obtain ⟨q, h1, h2, h3, h4⟩ := divideSingle_spec hd as.reverse 0 [] has.reverse hd
  simp only [zero_mul, zero_add, List.reverse_reverse, List.append_nil, List.length_reverse] at h1 h2 h4
  rw [h1, ← h4, ← h2, toLimbs_limbsVal h3]

/-- The multi-limb path: the remainder's limbs below the quotient's (R104 to R112). -/
theorem divideMulti_result {as bs : List Nat} (hm : 2 ≤ bs.length) (hn : bs.length + 2 ≤ as.length) (has : AllLimbs as)
    (hbs : AllLimbs bs) (htop : bs.getD (bs.length - 1) 0 ≠ 0) (hguard : as.getD (as.length - 1) 0 = 0) :
    divideMulti as bs =
      .ok (toLimbs bs.length (limbsVal as % limbsVal bs) ++ toLimbs (as.length - bs.length) (limbsVal as / limbsVal bs),
        toLimbs bs.length (limbsVal as % limbsVal bs)) := by
  obtain ⟨q, r, h1, h2, h3, h4, h5, h6, h7⟩ := divideMulti_spec hm hn has hbs htop hguard
  have hr := toLimbs_limbsVal h4
  have hq := toLimbs_limbsVal h5
  rw [h2, h7] at hr
  rw [h3, h6] at hq
  rw [h1, hr, hq]

/-- DIV past its checks, single-limb path. -/
theorem execDiv_single {s : State} (hn : s.operands.nlen.toNat ≤ s.lmax) (hd : s.operands.dlen.toNat ≤ s.lmax)
    (ha : Limbs.Written s.operands.a s.operands.nlen.toNat) (hb : Limbs.Written s.operands.b s.operands.dlen.toNat)
    (hm : effLength (Limbs.values s.operands.b s.operands.dlen.toNat) = 1) (h1 : 1 ≤ s.operands.nlen.toNat) :
    execDiv s = .next (s.finishDiv
      (toLimbs s.operands.nlen.toNat
        (Limbs.val s.operands.a s.operands.nlen.toNat / Limbs.val s.operands.b s.operands.dlen.toNat))
      [Limbs.val s.operands.a s.operands.nlen.toNat % Limbs.val s.operands.b s.operands.dlen.toNat] 1) := by
  have hval : (Limbs.values s.operands.b s.operands.dlen.toNat).getD 0 0 = Limbs.val s.operands.b s.operands.dlen.toNat := by
    rw [Limbs.val, ← limbsVal_take_effLength, hm]
    cases h : Limbs.values s.operands.b s.operands.dlen.toNat with
    | nil => simp [h, effLength] at hm
    | cons x xs => simp
  have hpos : 0 < Limbs.val s.operands.b s.operands.dlen.toNat := by
    rw [← hval]
    have := getD_effLength_ne_zero (Limbs.values s.operands.b s.operands.dlen.toNat) (by omega)
    rw [hm] at this
    exact Nat.pos_of_ne_zero this
  unfold execDiv
  simp only
  rw [if_neg (by omega), withLimbs_written hb]
  rw [hm, if_neg (by omega), if_pos rfl, if_neg (by omega), withLimbs_written ha, hval,
    divideSingle_result hpos (Limbs.values_lt _ _), Limbs.length_values]
  rfl

/-- DIV past its checks, multi-limb path. -/
theorem execDiv_multi {s : State} {m : Nat} (hn : s.operands.nlen.toNat ≤ s.lmax) (hd : s.operands.dlen.toNat ≤ s.lmax)
    (ha : Limbs.Written s.operands.a s.operands.nlen.toNat) (hb : Limbs.Written s.operands.b s.operands.dlen.toNat)
    (hm : effLength (Limbs.values s.operands.b s.operands.dlen.toNat) = m) (h2 : 2 ≤ m)
    (hnm : m + 2 ≤ s.operands.nlen.toNat)
    (hguard : (Limbs.values s.operands.a s.operands.nlen.toNat).getD (s.operands.nlen.toNat - 1) 0 = 0) :
    execDiv s = .next (s.finishDiv
      (toLimbs m (Limbs.val s.operands.a s.operands.nlen.toNat % Limbs.val s.operands.b s.operands.dlen.toNat) ++
        toLimbs (s.operands.nlen.toNat - m)
          (Limbs.val s.operands.a s.operands.nlen.toNat / Limbs.val s.operands.b s.operands.dlen.toNat))
      (toLimbs m (Limbs.val s.operands.a s.operands.nlen.toNat % Limbs.val s.operands.b s.operands.dlen.toNat)) m) := by
  obtain ⟨v, hv, hvn⟩ := ha.read (i := s.operands.nlen.toNat - 1) (by omega)
  have hle := effLength_le (Limbs.values s.operands.b s.operands.dlen.toNat)
  rw [hm, Limbs.length_values] at hle
  have hlen : ((Limbs.values s.operands.b s.operands.dlen.toNat).take m).length = m := by
    rw [List.length_take, Limbs.length_values]; omega
  have htop := getD_effLength_ne_zero (Limbs.values s.operands.b s.operands.dlen.toNat) (by omega)
  rw [hm] at htop
  have hval : limbsVal ((Limbs.values s.operands.b s.operands.dlen.toNat).take m) =
      Limbs.val s.operands.b s.operands.dlen.toNat := by
    rw [Limbs.val, ← limbsVal_take_effLength (Limbs.values s.operands.b s.operands.dlen.toNat), hm]
  have hbs : AllLimbs (Limbs.values s.operands.b s.operands.dlen.toNat) := Limbs.values_lt _ _
  have htake : ((Limbs.values s.operands.b s.operands.dlen.toNat).take m).getD (m - 1) 0 ≠ 0 := by
    rw [List.getD_eq_getElem _ _ (by omega), List.getElem_take]
    rwa [List.getD_eq_getElem _ _ (by rw [Limbs.length_values]; omega)] at htop
  have hres := divideMulti_result (as := Limbs.values s.operands.a s.operands.nlen.toNat)
    (bs := (Limbs.values s.operands.b s.operands.dlen.toNat).take m) (by omega) (by rw [hlen, Limbs.length_values]; omega)
    (Limbs.values_lt _ _) (hbs.take m) (by rw [hlen]; exact htake) (by rw [Limbs.length_values]; exact hguard)
  rw [hlen, hval, Limbs.length_values] at hres
  unfold execDiv
  simp only
  rw [if_neg (by omega), withLimbs_written hb]
  rw [hm, if_neg (by omega), if_neg (by omega), if_neg (by omega), withLimb_written hv]
  rw [hvn, hguard, if_neg (by simp), withLimbs_written ha, hres]
  rfl

/-- Everything DIV can do: a check fails and only STATUS changes, or the results are written, or an unwritten limb was read. -/
theorem execDiv_cases (s : State) :
    (∃ c, (c = .precond ∨ c = .divByZero) ∧ execDiv s = .next (s.finish c)) ∨
    (∃ as bs m, execDiv s = .next (s.finishDiv as bs m) ∧ as.length = s.operands.nlen.toNat ∧ bs.length = m ∧
      1 ≤ m ∧ m ≤ s.operands.dlen.toNat ∧ s.operands.nlen.toNat ≤ s.lmax ∧ s.operands.dlen.toNat ≤ s.lmax) ∨
    (∃ j, j < s.operands.dlen.toNat ∧ Limbs.read s.operands.b j = none ∧ execDiv s = .fault (.unwrittenLimb .b j)) ∨
    (∃ j, j < s.operands.nlen.toNat ∧ Limbs.read s.operands.a j = none ∧ execDiv s = .fault (.unwrittenLimb .a j)) := by
  by_cases hrange : s.operands.nlen.toNat > s.lmax ∨ s.operands.dlen.toNat > s.lmax
  · exact .inl ⟨.precond, .inl rfl, by unfold execDiv; simp only; rw [if_pos hrange]⟩
  rw [not_or, not_lt, not_lt] at hrange
  obtain ⟨hn, hd⟩ := hrange
  by_cases hb : Limbs.Written s.operands.b s.operands.dlen.toNat
  swap
  · refine .inr (.inr (.inl ?_))
    rcases withLimbs_cases (buf := .b) s.operands.b s.operands.dlen.toNat
      (fun bs =>
        let m := effLength bs
        if m = 0 then .next (s.finish .divByZero)
        else if m = 1 then
          if s.operands.nlen.toNat < 1 then .next (s.finish .precond)
          else
            withLimbs .a s.operands.a 0 s.operands.nlen.toNat fun as =>
              let (q, r) := divideSingle (bs.getD 0 0) as.reverse 0 []
              .next (s.finishDiv q [r] m)
        else if s.operands.nlen.toNat < m + 2 then .next (s.finish .precond)
        else
          withLimb .a s.operands.a (s.operands.nlen.toNat - 1) fun guard =>
            if guard ≠ 0 then .next (s.finish .precond)
            else
              withLimbs .a s.operands.a 0 s.operands.nlen.toNat fun as =>
                match divideMulti as (bs.take m) with
                | .error defect => .fault (.internalDefect defect)
                | .ok (as', bs') => .next (s.finishDiv as' bs' m)) with ⟨h, _⟩ | ⟨u, h1, h2, h3⟩
    · exact absurd h hb
    · refine ⟨u, h1, h2, ?_⟩
      unfold execDiv
      simp only
      rw [if_neg (by omega)]
      exact h3
  obtain ⟨m, hm⟩ : ∃ m, effLength (Limbs.values s.operands.b s.operands.dlen.toNat) = m := ⟨_, rfl⟩
  have hle := effLength_le (Limbs.values s.operands.b s.operands.dlen.toNat)
  rw [hm, Limbs.length_values] at hle
  rcases Nat.lt_or_ge m 1 with h0 | h1
  · refine .inl ⟨.divByZero, .inr rfl, ?_⟩
    unfold execDiv
    simp only
    rw [if_neg (by omega), withLimbs_written hb]
    rw [hm, if_pos (by omega)]
  by_cases hshape : s.operands.nlen.toNat < 1 ∨ (2 ≤ m ∧ s.operands.nlen.toNat < m + 2)
  · refine .inl ⟨.precond, .inl rfl, ?_⟩
    unfold execDiv
    simp only
    rw [if_neg (by omega), withLimbs_written hb]
    rw [hm, if_neg (by omega)]
    by_cases h : m = 1
    · rw [if_pos h, if_pos (by omega)]
    · rw [if_neg h, if_pos (by omega)]
  rw [not_or, not_and_or, not_lt, not_lt, not_le] at hshape
  by_cases ha : Limbs.Written s.operands.a s.operands.nlen.toNat
  · rcases Nat.eq_or_lt_of_le h1 with h1 | h2
    · refine .inr (.inl ⟨_, _, _, execDiv_single hn hd ha hb (by omega) hshape.1, ?_, rfl, le_refl 1, ?_, hn, hd⟩)
      · exact length_toLimbs _ _
      · omega
    · by_cases hg : (Limbs.values s.operands.a s.operands.nlen.toNat).getD (s.operands.nlen.toNat - 1) 0 = 0
      · refine .inr (.inl ⟨_, _, m, execDiv_multi hn hd ha hb hm h2 (by omega) hg, ?_, length_toLimbs _ _, h1, hle, hn, hd⟩)
        rw [List.length_append, length_toLimbs, length_toLimbs]
        omega
      · refine .inl ⟨.precond, .inl rfl, ?_⟩
        obtain ⟨v, hv, hvn⟩ := ha.read (i := s.operands.nlen.toNat - 1) (by omega)
        unfold execDiv
        simp only
        rw [if_neg (by omega), withLimbs_written hb]
        rw [hm, if_neg (by omega), if_neg (by omega), if_neg (by omega), withLimb_written hv, hvn]
        rw [if_pos hg]
  · -- an unwritten limb of A: the guard limb or another
    simp only [Limbs.Written, not_forall] at ha
    obtain ⟨j, hj, hnone⟩ := ha
    have hnone : Limbs.read s.operands.a j = none := by simpa using hnone
    by_cases h : m = 1
    · obtain ⟨u, h1, h2, h3⟩ := withLimbs_unwritten (buf := .a) hj hnone
        (fun as =>
          let (q, r) := divideSingle ((Limbs.values s.operands.b s.operands.dlen.toNat).getD 0 0) as.reverse 0 []
          .next (s.finishDiv q [r] m))
      refine .inr (.inr (.inr ⟨u, h1, h2, ?_⟩))
      unfold execDiv
      simp only
      rw [if_neg (by omega), withLimbs_written hb]
      rw [hm, if_neg (by omega), if_pos h, if_neg (by omega)]
      exact h3
    · cases hv : Limbs.read s.operands.a (s.operands.nlen.toNat - 1) with
      | none =>
        refine .inr (.inr (.inr ⟨s.operands.nlen.toNat - 1, by omega, hv, ?_⟩))
        unfold execDiv
        simp only
        rw [if_neg (by omega), withLimbs_written hb]
        rw [hm, if_neg (by omega), if_neg h, if_neg (by omega), withLimb_unwritten hv]
      | some v =>
        by_cases hg : v.toNat = 0
        · obtain ⟨u, h1, h2, h3⟩ := withLimbs_unwritten (buf := .a) hj hnone
            (fun as =>
              match divideMulti as ((Limbs.values s.operands.b s.operands.dlen.toNat).take m) with
              | .error defect => .fault (.internalDefect defect)
              | .ok (as', bs') => .next (s.finishDiv as' bs' m))
          refine .inr (.inr (.inr ⟨u, h1, h2, ?_⟩))
          unfold execDiv
          simp only
          rw [if_neg (by omega), withLimbs_written hb]
          rw [hm, if_neg (by omega), if_neg h, if_neg (by omega), withLimb_written hv]
          rw [if_neg (by simpa using hg)]
          exact h3
        · refine .inl ⟨.precond, .inl rfl, ?_⟩
          unfold execDiv
          simp only
          rw [if_neg (by omega), withLimbs_written hb]
          rw [hm, if_neg (by omega), if_neg h, if_neg (by omega), withLimb_written hv]
          rw [if_pos hg]

/-! ## EST3X2 (40_division.md R120) -/

/-- Everything EST3X2 can do. -/
theorem execEst3x2_cases (s : State) :
    execEst3x2 s = .next (s.finish .precond) ∨
    (∃ q, execEst3x2 s = .next ((s.setEst q).finish .none)) ∨
    (∃ j, j < 2 ∧ Limbs.read s.operands.b j = none ∧ execEst3x2 s = .fault (.unwrittenLimb .b j)) ∨
    (∃ j, j < 3 ∧ Limbs.read s.operands.a j = none ∧ execEst3x2 s = .fault (.unwrittenLimb .a j)) := by
  simp only [execEst3x2]
  cases h1 : Limbs.read s.operands.b 1 with
  | none => exact .inr (.inr (.inl ⟨1, by omega, h1, withLimb_unwritten h1 _⟩))
  | some d1 =>
    rw [withLimb_written h1]
    split
    · exact .inl rfl
    · cases h2 : Limbs.read s.operands.a 2 with
      | none => exact .inr (.inr (.inr ⟨2, by omega, h2, withLimb_unwritten h2 _⟩))
      | some n2 =>
        rw [withLimb_written h2]
        cases h3 : Limbs.read s.operands.a 1 with
        | none => exact .inr (.inr (.inr ⟨1, by omega, h3, withLimb_unwritten h3 _⟩))
        | some n1 =>
          rw [withLimb_written h3]
          cases h4 : Limbs.read s.operands.b 0 with
          | none => exact .inr (.inr (.inl ⟨0, by omega, h4, withLimb_unwritten h4 _⟩))
          | some d0 =>
            rw [withLimb_written h4]
            split
            · exact .inl rfl
            · cases h5 : Limbs.read s.operands.a 0 with
              | none => exact .inr (.inr (.inr ⟨0, by omega, h5, withLimb_unwritten h5 _⟩))
              | some n0 => exact .inr (.inl ⟨_, withLimb_written h5 _⟩)

/-! ## F2U (41_float_to_fixed.md R143-R158) -/

/-- The payload of a classification is below 2^BITS (R158). -/
theorem classifyAndRound_lt (fmt : Format) (x width : Nat) : (classifyAndRound fmt x width).2 < 2 ^ width := by
  have hp : 0 < 2 ^ width := by positivity
  unfold classifyAndRound
  split
  · exact hp
  · split <;> exact hp
  · exact hp
  all_goals
    simp only
    split
    · exact Nat.mod_lt _ hp
    · split
      · exact Nat.mod_lt _ hp
      · rename_i h; exact not_le.1 h

/-- Every value a policy writes is below 2^BITS (R158). -/
theorem project_value_lt (pol : Policy) (fmt : Format) (x width : Nat) :
    (project pol width (classifyAndRound fmt x width)).value < 2 ^ width := by
  have h := classifyAndRound_lt fmt x width
  have hp : 0 < 2 ^ width := by positivity
  cases pol
  · exact h
  · simp only [project, projectSat]
    split <;> first | exact h | exact hp | omega
  · simp only [project, projectWrap]
    split <;> first | exact h | exact hp

/-- EWIDTH is 0 or the width in use (10_state.md R36). -/
theorem project_ewidth (pol : Policy) (fmt : Format) (x width : Nat) :
    (project pol width (classifyAndRound fmt x width)).ewidth = 0 ∨
      (project pol width (classifyAndRound fmt x width)).ewidth = width := by
  cases pol
  · simp only [project, projectTry]
    split <;> simp
  · exact .inl rfl
  · exact .inl rfl

/-- The codes a policy reports (R155 to R157). -/
theorem project_code (pol : Policy) (fmt : Format) (x width : Nat) :
    (project pol width (classifyAndRound fmt x width)).code = .none ∨
      (pol = .try_ ∧ ((project pol width (classifyAndRound fmt x width)).code = .valueTooLarge ∨
        (project pol width (classifyAndRound fmt x width)).code = .valueNegative ∨
        (project pol width (classifyAndRound fmt x width)).code = .notANumber)) := by
  cases pol
  · simp only [project, projectTry]
    cases (classifyAndRound fmt x width).1 <;> simp [Kind.code]
  · exact .inl rfl
  · exact .inl rfl

/-- Everything F2U can do. -/
theorem convertInbound_cases (fmt : Format) (x : Nat) (pol : Policy) (s : State) :
    (64 * s.lmax < s.operands.bits.toNat ∧ convertInbound fmt x pol s = .next (s.finish .precond)) ∨
    (s.operands.bits.toNat ≤ 64 * s.lmax ∧ convertInbound fmt x pol s =
      .next (s.finishInbound s.operands.bits.toNat
        (project pol s.operands.bits.toNat (classifyAndRound fmt x s.operands.bits.toNat)))) := by
  by_cases h : s.operands.bits.toNat > 64 * s.lmax
  · exact .inl ⟨h, by simp only [convertInbound]; rw [if_pos h]⟩
  · exact .inr ⟨not_lt.1 h, by simp only [convertInbound]; rw [if_neg h]⟩

/-- L limbs fit in the buffer where BITS passes the check (10_state.md R32). -/
theorem limbCount_le {width lmax : Nat} (h : width ≤ 64 * lmax) : limbCount width ≤ lmax := by
  simp only [limbCount]
  omega

/-! ## U2F (42_fixed_to_float.md R175-R177) -/

/-- Everything U2F can do. -/
theorem convertFixed_cases (fmt : Format) (s : State) :
    convertFixed fmt s = .next (s.finish .precond) ∨
    (s.operands.bits.toNat ≤ 64 * s.lmax ∧ ∃ x, convertFixed fmt s = .next ((s.setFres (convertOutbound fmt x)).finish .none)) ∨
    (∃ j, j < limbCount s.operands.bits.toNat ∧ Limbs.read s.operands.a j = none ∧
      convertFixed fmt s = .fault (.unwrittenLimb .a j)) := by
  simp only [convertFixed]
  split
  · exact .inl rfl
  · rename_i hw
    split
    · exact .inr (.inl ⟨not_lt.1 hw, 0, rfl⟩)
    · rename_i hl
      cases h1 : Limbs.read s.operands.a (limbCount s.operands.bits.toNat - 1) with
      | none => exact .inr (.inr ⟨_, by omega, h1, withLimb_unwritten h1 _⟩)
      | some top =>
        rw [withLimb_written h1]
        split
        · exact .inl rfl
        · rcases withLimbs_cases (buf := .a) s.operands.a (limbCount s.operands.bits.toNat)
            (fun as => .next ((s.setFres (convertOutbound fmt (limbsVal as))).finish .none)) with ⟨_, h⟩ | ⟨u, h2, h3, h4⟩
          · exact .inr (.inl ⟨not_lt.1 hw, _, h⟩)
          · exact .inr (.inr ⟨u, h2, h3, h4⟩)

end Sys2Proof.Machine
end

