-- ==== Sys2Proof/Laws/Float.lean ====
section
/-! SUPPORT. Laws of the bit-field, rounding and encoding operations of the two formats (00_scope.md R15, 41_float_to_fixed.md R141,
R142, 42_fixed_to_float.md R174). -/

namespace Sys2Proof.Machine

/-- A field is below 2 to its width. -/
theorem bitsOf_lt (v hi lo : Nat) : bitsOf v hi lo < 2 ^ (hi - lo + 1) := Nat.mod_lt _ (by positivity)

/-- bitlen is the k with 2^(k-1) ≤ v < 2^k. -/
theorem bitLen_eq {v k : Nat} (h1 : 2 ^ k ≤ v) (h2 : v < 2 ^ (k + 1)) : bitLen v = k + 1 := by
  have h3 := (bitLen_le_iff v (k + 1)).2 h2
  have h4 : ¬ bitLen v ≤ k := fun h => absurd ((bitLen_le_iff v k).1 h) (not_lt.2 h1)
  omega

/-- A left shift of a nonzero value adds to its bitlen. -/
theorem bitLen_mul_two_pow {v : Nat} (h : v ≠ 0) (k : Nat) : bitLen (v * 2 ^ k) = bitLen v + k := by
  have h1 := two_pow_bitLen_le h
  have h2 := lt_two_pow_bitLen v
  have h3 := bitLen_pos h
  obtain ⟨b, hb⟩ : ∃ b, bitLen v = b + 1 := ⟨bitLen v - 1, by omega⟩
  rw [hb, Nat.add_sub_cancel] at h1
  rw [hb] at h2 ⊢
  rw [bitLen_eq (k := b + k)]
  · omega
  · rw [pow_add]
    exact Nat.mul_le_mul_right _ h1
  · rw [show b + k + 1 = b + 1 + k by omega, pow_add]
    exact Nat.mul_lt_mul_of_pos_right h2 (by positivity)

/-- RNE leaves a value of at most p bits as it is (R15). -/
theorem rne_exact {p w : Nat} (h : bitLen w ≤ p) : rne p w = w := if_pos h

/-- RNE of a wider value: a multiple q' · 2^s of the discarded power, q' with p bits or exactly 2^p, at most half of 2^s away from
the value, and q' even where it is exactly half away (R15). -/
theorem rne_inexact {p w : Nat} (hp : 1 ≤ p) (h : p < bitLen w) :
    ∃ q, rne p w = q * 2 ^ (bitLen w - p) ∧ 2 ^ (p - 1) ≤ q ∧ q ≤ 2 ^ p ∧
      2 * rne p w ≤ 2 * w + 2 ^ (bitLen w - p) ∧ 2 * w ≤ 2 * rne p w + 2 ^ (bitLen w - p) ∧
      (2 * rne p w = 2 * w + 2 ^ (bitLen w - p) ∨ 2 * w = 2 * rne p w + 2 ^ (bitLen w - p) → q % 2 = 0) := by
  have hw : w ≠ 0 := by
    rintro rfl
    simp at h
  obtain ⟨s, hs⟩ : ∃ s, bitLen w - p = s + 1 := ⟨bitLen w - p - 1, by omega⟩
  have h1 := two_pow_bitLen_le hw
  have h2 := lt_two_pow_bitLen w
  have hpow : 2 ^ (s + 1) = 2 * 2 ^ s := by rw [pow_succ, Nat.mul_comm]
  have hpos : 0 < 2 ^ s := by positivity
  have hdm := Nat.div_add_mod w (2 ^ (s + 1))
  have hr := Nat.mod_lt w (show 0 < 2 ^ (s + 1) by positivity)
  have hq1 : 2 ^ (p - 1) ≤ w / 2 ^ (s + 1) := by
    rw [Nat.le_div_iff_mul_le (by positivity), ← pow_add, show p - 1 + (s + 1) = bitLen w - 1 by omega]
    exact h1
  have hq2 : w / 2 ^ (s + 1) < 2 ^ p := by
    rw [Nat.div_lt_iff_lt_mul (by positivity), ← pow_add, show p + (s + 1) = bitLen w by omega]
    exact h2
  generalize hq : w / 2 ^ (s + 1) = q at *
  generalize hrr : w % 2 ^ (s + 1) = r at *
  have hval : rne p w = if r > 2 ^ s ∨ (r = 2 ^ s ∧ q % 2 = 1) then (q + 1) * 2 ^ (s + 1) else q * 2 ^ (s + 1) := by
    unfold rne
    rw [if_neg (by omega), hs]
    simp only [hq, hrr, Nat.add_sub_cancel]
  rw [hs, hval, hpow]
  rw [hpow] at hdm hr
  split
  · rename_i hc
    refine ⟨q + 1, rfl, by omega, by omega, ?_, ?_, ?_⟩
    · rw [Nat.add_mul]
      have := Nat.mul_comm q (2 * 2 ^ s)
      omega
    · rw [Nat.add_mul]
      have := Nat.mul_comm q (2 * 2 ^ s)
      omega
    · rw [Nat.add_mul]
      have := Nat.mul_comm q (2 * 2 ^ s)
      omega
  · rename_i hc
    refine ⟨q, rfl, by omega, by omega, ?_, ?_, ?_⟩
    · have := Nat.mul_comm q (2 * 2 ^ s)
      omega
    · have := Nat.mul_comm q (2 * 2 ^ s)
      omega
    · have := Nat.mul_comm q (2 * 2 ^ s)
      omega

/-- The fields of a pattern put together from them. -/
theorem fields_of_pattern (fmt : Format) {e f : Nat} (hf : f < 2 ^ fmt.fracBits) (he : e < 2 ^ fmt.expBits) (h1 : 1 ≤ fmt.fracBits)
    (h2 : 1 ≤ fmt.expBits) :
    fmt.fraction (e * 2 ^ fmt.fracBits + f) = f ∧ fmt.exponent (e * 2 ^ fmt.fracBits + f) = e ∧
      fmt.sign (e * 2 ^ fmt.fracBits + f) = false ∧ e * 2 ^ fmt.fracBits + f < 2 ^ (fmt.fracBits + fmt.expBits) := by
  have hdiv : (e * 2 ^ fmt.fracBits + f) / 2 ^ fmt.fracBits = e := by
    rw [Nat.mul_comm, Nat.mul_add_div (by positivity), Nat.div_eq_of_lt hf, Nat.add_zero]
  have hlt : e * 2 ^ fmt.fracBits + f < 2 ^ (fmt.fracBits + fmt.expBits) := by
    rw [Nat.add_comm fmt.fracBits, pow_add]
    calc e * 2 ^ fmt.fracBits + f < e * 2 ^ fmt.fracBits + 2 ^ fmt.fracBits := by omega
      _ = (e + 1) * 2 ^ fmt.fracBits := by ring
      _ ≤ 2 ^ fmt.expBits * 2 ^ fmt.fracBits := Nat.mul_le_mul_right _ he
  refine ⟨?_, ?_, ?_, hlt⟩
  · rw [Format.fraction, bitsOf, pow_zero, Nat.div_one, show fmt.fracBits - 1 - 0 + 1 = fmt.fracBits by omega, Nat.mul_comm,
      Nat.mul_add_mod, Nat.mod_eq_of_lt hf]
  · rw [Format.exponent, bitsOf, hdiv, show fmt.fracBits + fmt.expBits - 1 - fmt.fracBits + 1 = fmt.expBits by omega,
      Nat.mod_eq_of_lt he]
  · rw [Format.sign, bitsOf, Nat.div_eq_of_lt hlt]
    simp

/-- The fields of the pattern of a finite V > 0 of at most p significant bits (R174): E = t + bias, and the mantissa with its
implicit bit is V aligned to f + 1 bits. -/
theorem encodeFinite_fields (fmt : Format) {v : Nat} (hv : v ≠ 0) (h1 : 1 ≤ fmt.fracBits) (h2 : 1 ≤ fmt.expBits)
    (he : bitLen v - 1 + fmt.bias < 2 ^ fmt.expBits) :
    fmt.exponent (fmt.encodeFinite v) = bitLen v - 1 + fmt.bias ∧ fmt.sign (fmt.encodeFinite v) = false ∧
      fmt.encodeFinite v < 2 ^ (fmt.fracBits + fmt.expBits) ∧
      2 ^ fmt.fracBits + fmt.fraction (fmt.encodeFinite v) =
        if bitLen v - 1 ≤ fmt.fracBits then v * 2 ^ (fmt.fracBits - (bitLen v - 1))
        else v / 2 ^ (bitLen v - 1 - fmt.fracBits) := by
  have hb := bitLen_pos hv
  have hlo := two_pow_bitLen_le hv
  have hhi := lt_two_pow_bitLen v
  obtain ⟨t, ht⟩ : ∃ t, bitLen v = t + 1 := ⟨bitLen v - 1, by omega⟩
  rw [ht, Nat.add_sub_cancel] at hlo he ⊢
  rw [ht] at hhi
  generalize hm : (if t ≤ fmt.fracBits then v * 2 ^ (fmt.fracBits - t) else v / 2 ^ (t - fmt.fracBits)) = m
  have hmlo : 2 ^ fmt.fracBits ≤ m := by
    rw [← hm]
    split
    · calc 2 ^ fmt.fracBits = 2 ^ t * 2 ^ (fmt.fracBits - t) := by rw [← pow_add]; congr 1; omega
        _ ≤ v * 2 ^ (fmt.fracBits - t) := Nat.mul_le_mul_right _ hlo
    · rw [Nat.le_div_iff_mul_le (by positivity), ← pow_add, show fmt.fracBits + (t - fmt.fracBits) = t by omega]
      exact hlo
  have hmhi : m < 2 * 2 ^ fmt.fracBits := by
    rw [← hm, ← pow_succ']
    split
    · calc v * 2 ^ (fmt.fracBits - t) < 2 ^ (t + 1) * 2 ^ (fmt.fracBits - t) :=
          Nat.mul_lt_mul_of_pos_right hhi (by positivity)
        _ = 2 ^ (fmt.fracBits + 1) := by rw [← pow_add]; congr 1; omega
    · rw [Nat.div_lt_iff_lt_mul (by positivity), ← pow_add, show fmt.fracBits + 1 + (t - fmt.fracBits) = t + 1 by omega]
      exact hhi
  have henc : fmt.encodeFinite v = (t + fmt.bias) * 2 ^ fmt.fracBits + m % 2 ^ fmt.fracBits := by
    simp only [Format.encodeFinite, ht, Nat.add_sub_cancel, hm]
  obtain ⟨hf, hE, hS, hlt⟩ := fields_of_pattern fmt (Nat.mod_lt m (show 0 < 2 ^ fmt.fracBits by positivity)) he h1 h2
  rw [henc]
  refine ⟨hE, hS, hlt, ?_⟩
  rw [hf, Nat.mod_eq_sub_mod hmlo, Nat.mod_eq_of_lt (by omega)]
  omega

end Sys2Proof.Machine
end

