-- ==== Sys2Proof/Laws/PerInstr.lean ====
section
/-! SUPPORT. Per-instruction statements, one lemma per constructor of `Instr`. -/

namespace Sys2Proof.Laws.RoundTrip

/-- The word the encoder gives a command is its opcode and policy and nothing else (30_encoding.md R80), passes the four field
checks (R81-R85), and decodes to the command (R86). -/
def Statement (i : Instr) : Prop :=
  decode (encode i) = .ok i ∧ wellFormedCmd (encode i) = true ∧
    (encode i).toNat = (policyBits i.policy).toNat * 0x100 + (opcodeBits i.opcode).toNat

theorem div : Statement .div := ⟨by decide, by decide, by decide⟩

theorem est3x2 : Statement .est3x2 := ⟨by decide, by decide, by decide⟩

theorem f2u64Try : Statement .f2u64Try := ⟨by decide, by decide, by decide⟩

theorem f2u64Sat : Statement .f2u64Sat := ⟨by decide, by decide, by decide⟩

theorem f2u64Wrap : Statement .f2u64Wrap := ⟨by decide, by decide, by decide⟩

theorem f2u32Try : Statement .f2u32Try := ⟨by decide, by decide, by decide⟩

theorem f2u32Sat : Statement .f2u32Sat := ⟨by decide, by decide, by decide⟩

theorem f2u32Wrap : Statement .f2u32Wrap := ⟨by decide, by decide, by decide⟩

theorem u2f64 : Statement .u2f64 := ⟨by decide, by decide, by decide⟩

theorem u2f32 : Statement .u2f32 := ⟨by decide, by decide, by decide⟩

end Sys2Proof.Laws.RoundTrip
end

