-- ==== Sys2Proof/Laws/Step.lean ====
section
/-! SUPPORT. Once for all commands, everything a completion can do; the port's map both ways; and everything a step can do. -/

namespace Sys2Proof.Machine

/-- Everything a completion can do: a fatal code and nothing else; the results of its command; or the fault of an unwritten limb.
No internal defect and no refusal (60_exceptions.md R200, R209, R211). -/
theorem exec_cases (i : Instr) (s : State) :
    (∃ c, (c = .precond ∨ c = .divByZero) ∧ exec i s = .next (s.finish c)) ∨
    (i = .div ∧ ∃ as bs m, exec i s = .next (s.finishDiv as bs m) ∧ as.length = s.operands.nlen.toNat ∧ bs.length = m ∧
      1 ≤ m ∧ m ≤ s.operands.dlen.toNat ∧ s.operands.nlen.toNat ≤ s.lmax ∧ s.operands.dlen.toNat ≤ s.lmax) ∨
    (i = .est3x2 ∧ ∃ q, exec i s = .next ((s.setEst q).finish .none)) ∨
    ((i.opcode = .f2u64 ∨ i.opcode = .f2u32) ∧ s.operands.bits.toNat ≤ 64 * s.lmax ∧
      ∃ r : Projected, exec i s = .next (s.finishInbound s.operands.bits.toNat r) ∧ r.value < 2 ^ s.operands.bits.toNat ∧
        (r.ewidth = 0 ∨ r.ewidth = s.operands.bits.toNat) ∧
        (r.code = .none ∨ (i.policy = .try_ ∧
          (r.code = .valueTooLarge ∨ r.code = .valueNegative ∨ r.code = .notANumber)))) ∨
    ((i.opcode = .u2f64 ∨ i.opcode = .u2f32) ∧ ∃ x, exec i s = .next ((s.setFres x).finish .none)) ∨
    s.stopsUnwritten i := by
  have inbound : ∀ fmt x pol, (i.opcode = .f2u64 ∨ i.opcode = .f2u32) → i.policy = pol →
      exec i s = convertInbound fmt x pol s →
      (∃ c, (c = .precond ∨ c = .divByZero) ∧ exec i s = .next (s.finish c)) ∨
      ((i.opcode = .f2u64 ∨ i.opcode = .f2u32) ∧ s.operands.bits.toNat ≤ 64 * s.lmax ∧
        ∃ r : Projected, exec i s = .next (s.finishInbound s.operands.bits.toNat r) ∧ r.value < 2 ^ s.operands.bits.toNat ∧
          (r.ewidth = 0 ∨ r.ewidth = s.operands.bits.toNat) ∧
          (r.code = .none ∨ (i.policy = .try_ ∧
            (r.code = .valueTooLarge ∨ r.code = .valueNegative ∨ r.code = .notANumber)))) := by
    intro fmt x pol hop hpol he
    rcases convertInbound_cases fmt x pol s with ⟨_, h⟩ | ⟨hw, h⟩
    · exact .inl ⟨.precond, .inl rfl, he.trans h⟩
    · refine .inr ⟨hop, hw, _, he.trans h, project_value_lt .., project_ewidth .., ?_⟩
      rw [hpol]
      exact project_code ..
  have outbound : ∀ fmt, (i.opcode = .u2f64 ∨ i.opcode = .u2f32) → exec i s = convertFixed fmt s →
      (∃ c, (c = .precond ∨ c = .divByZero) ∧ exec i s = .next (s.finish c)) ∨
      ((i.opcode = .u2f64 ∨ i.opcode = .u2f32) ∧ ∃ x, exec i s = .next ((s.setFres x).finish .none)) ∨ s.stopsUnwritten i := by
    intro fmt hop he
    rcases convertFixed_cases fmt s with h | ⟨_, x, h⟩ | ⟨j, hl, hj, h⟩
    · exact .inl ⟨.precond, .inl rfl, he.trans h⟩
    · exact .inr (.inl ⟨hop, _, he.trans h⟩)
    · refine .inr (.inr ⟨.a, j, he.trans h, ?_, hj⟩)
      cases i <;> simp [Instr.opcode] at hop <;> exact hl
  cases i with
  | div =>
    rcases execDiv_cases s with ⟨c, hc, h⟩ | ⟨as, bs, m, h⟩ | ⟨j, hl, hj, h⟩ | ⟨j, hl, hj, h⟩
    · exact .inl ⟨c, hc, h⟩
    · exact .inr (.inl ⟨rfl, as, bs, m, h⟩)
    · exact .inr (.inr (.inr (.inr (.inr ⟨.b, j, h, hl, hj⟩))))
    · exact .inr (.inr (.inr (.inr (.inr ⟨.a, j, h, hl, hj⟩))))
  | est3x2 =>
    rcases execEst3x2_cases s with h | ⟨q, h⟩ | ⟨j, hl, hj, h⟩ | ⟨j, hl, hj, h⟩
    · exact .inl ⟨.precond, .inl rfl, h⟩
    · exact .inr (.inr (.inl ⟨rfl, q, h⟩))
    · exact .inr (.inr (.inr (.inr (.inr ⟨.b, j, h, hl, hj⟩))))
    · exact .inr (.inr (.inr (.inr (.inr ⟨.a, j, h, hl, hj⟩))))
  | f2u64Try =>
    rcases inbound binary64 s.fin64 .try_ (.inl rfl) rfl rfl with h | h
    · exact .inl h
    · exact .inr (.inr (.inr (.inl h)))
  | f2u64Sat =>
    rcases inbound binary64 s.fin64 .sat (.inl rfl) rfl rfl with h | h
    · exact .inl h
    · exact .inr (.inr (.inr (.inl h)))
  | f2u64Wrap =>
    rcases inbound binary64 s.fin64 .wrap (.inl rfl) rfl rfl with h | h
    · exact .inl h
    · exact .inr (.inr (.inr (.inl h)))
  | f2u32Try =>
    rcases inbound binary32 s.fin32 .try_ (.inr rfl) rfl rfl with h | h
    · exact .inl h
    · exact .inr (.inr (.inr (.inl h)))
  | f2u32Sat =>
    rcases inbound binary32 s.fin32 .sat (.inr rfl) rfl rfl with h | h
    · exact .inl h
    · exact .inr (.inr (.inr (.inl h)))
  | f2u32Wrap =>
    rcases inbound binary32 s.fin32 .wrap (.inr rfl) rfl rfl with h | h
    · exact .inl h
    · exact .inr (.inr (.inr (.inl h)))
  | u2f64 =>
    rcases outbound binary64 (.inl rfl) rfl with h | h | h
    · exact .inl h
    · exact .inr (.inr (.inr (.inr (.inl h))))
    · exact .inr (.inr (.inr (.inr (.inr h))))
  | u2f32 =>
    rcases outbound binary32 (.inr rfl) rfl with h | h | h
    · exact .inl h
    · exact .inr (.inr (.inr (.inr (.inl h))))
    · exact .inr (.inr (.inr (.inr (.inr h))))

/-! ## The port (10_state.md R22, 20_memory.md R60, R62) -/

theorem Reg.offset_a (i : Nat) : Reg.offset (.limb .a i) = 0x10000 + 8 * i := rfl

theorem Reg.offset_b (i : Nat) : Reg.offset (.limb .b i) = 0x20000 + 8 * i := rfl

theorem lmax_bounds (p : Params) : 4 ≤ p.lmax ∧ p.lmax ≤ 8192 := by
  have := p.lmaxLess4.isLt
  simp only [Params.lmax]
  omega

/-- The offset of a mapped register is in the window and aligned, and the map gives it back. -/
theorem regAt_offset {lmax : Nat} (hl : lmax ≤ 8192) {r : Reg} (h : r.mapped lmax) :
    regAt lmax r.offset = some r ∧ r.offset < windowBytes ∧ r.offset % 8 = 0 := by
  cases r with
  | limb buf i =>
    have hi : i < lmax := h
    cases buf
    · rw [Reg.offset_a]
      refine ⟨?_, by unfold windowBytes; omega, by omega⟩
      unfold regAt
      rw [if_neg (by omega), if_neg (by omega), if_pos (by omega), show (0x10000 + 8 * i - 0x10000) / 8 = i by omega]
    · rw [Reg.offset_b]
      refine ⟨?_, by unfold windowBytes; omega, by omega⟩
      unfold regAt
      rw [if_neg (by omega), if_neg (by omega), if_neg (by omega), if_neg (by omega), if_pos (by omega),
        show (0x20000 + 8 * i - 0x20000) / 8 = i by omega]
  | _ => exact ⟨rfl, by decide, rfl⟩

theorem controlAt_some (lmax : Nat) {off : Nat} {r : Reg} (h : controlAt off = some r) :
    off = r.offset ∧ r.mapped lmax := by
  have h1 := List.find?_some h
  have h2 := List.mem_of_find?_eq_some h
  refine ⟨(beq_iff_eq.1 h1).symm, ?_⟩
  cases r with
  | limb buf i => simp [controlRegs] at h2
  | _ => trivial

/-- The map gives an offset a register only where it is that register's offset. -/
theorem regAt_some {lmax off : Nat} {r : Reg} (h : regAt lmax off = some r) : off = r.offset ∧ r.mapped lmax := by
  unfold regAt at h
  split at h
  · cases h
  · rename_i halign
    split at h
    · exact controlAt_some lmax h
    · split at h
      · cases h
        rw [Reg.offset_a]
        exact ⟨by omega, show _ < lmax by omega⟩
      · split at h
        · cases h
        · split at h
          · cases h
            rw [Reg.offset_b]
            exact ⟨by omega, show _ < lmax by omega⟩
          · cases h

/-- A legal access reaches its register. -/
theorem portTarget_reg (p : Params) {r : Reg} (h : r.mapped p.lmax) : portTarget p (p.base + r.offset) 8 = .ok r := by
  obtain ⟨h1, h2, _⟩ := regAt_offset (lmax_bounds p).2 h
  unfold portTarget
  rw [if_neg (by omega), if_neg (by omega), Nat.add_sub_cancel_left, h1]

/-- Only a legal access reaches a register. -/
theorem portTarget_ok {p : Params} {addr size : Nat} {r : Reg} (h : portTarget p addr size = .ok r) :
    size = 8 ∧ addr = p.base + r.offset ∧ r.mapped p.lmax := by
  unfold portTarget at h
  split at h
  · cases h
  · rename_i hw
    split at h
    · cases h
    · rename_i hs
      split at h
      · cases h
      · rename_i r' hr
        cases h
        obtain ⟨h1, h2⟩ := regAt_some hr
        exact ⟨by omega, by omega, h2⟩

/-- The byte lanes of a word rebuild it (20_memory.md R61). -/
@[simp] theorem ofByteLanes_byteLanes (v : Word) : ofByteLanes (byteLanes v) = v := by
  apply BitVec.eq_of_toNat_eq
  simp [ofByteLanes, byteLanes, byteLane, List.range_succ, Word.ofNat, BitVec.extractLsb'_toNat]
  have := v.isLt
  simp only [Nat.shiftRight_eq_div_pow]
  omega

@[simp] theorem length_byteLanes (v : Word) : (byteLanes v).length = 8 := by simp [byteLanes]

/-- Eight bytes are the byte lanes of the word they make (R61). -/
theorem byteLanes_ofByteLanes {bytes : List Byte} (h : bytes.length = 8) : byteLanes (ofByteLanes bytes) = bytes := by
  obtain ⟨b0, b1, b2, b3, b4, b5, b6, b7, rfl⟩ : ∃ b0 b1 b2 b3 b4 b5 b6 b7, bytes = [b0, b1, b2, b3, b4, b5, b6, b7] := by
    match bytes, h with
    | [b0, b1, b2, b3, b4, b5, b6, b7], _ => exact ⟨b0, b1, b2, b3, b4, b5, b6, b7, rfl⟩
  have h0 := b0.isLt
  have h1 := b1.isLt
  have h2 := b2.isLt
  have h3 := b3.isLt
  have h4 := b4.isLt
  have h5 := b5.isLt
  have h6 := b6.isLt
  have h7 := b7.isLt
  simp only [ofByteLanes, byteLanes, byteLane, List.range_succ, List.range_zero, List.nil_append, List.cons_append, List.map_cons,
    List.map_nil, List.foldr_cons, List.foldr_nil, List.cons.injEq, and_true]
  refine ⟨?_, ?_, ?_, ?_, ?_, ?_, ?_, ?_⟩ <;> apply BitVec.eq_of_toNat_eq <;>
    simp only [BitVec.extractLsb'_toNat, Word.ofNat, BitVec.toNat_ofNat, Nat.shiftRight_eq_div_pow] <;> omega

/-- Everything a host read can do. -/
theorem hostRead_cases (s : State) (r : Reg) :
    (s.status.busy = true ∧ r.anyWhileBusy = true ∧ hostRead s r = .next s.drawReply) ∨
    (∃ v, regValue s r = .ok v ∧ hostRead s r = .next (s.reply v)) ∨
    (∃ f, regValue s r = .error f ∧ hostRead s r = .fault f) := by
  unfold hostRead
  split
  · rename_i h
    simp only [Bool.and_eq_true] at h
    exact .inl ⟨h.1, h.2, rfl⟩
  · cases h : regValue s r with
    | ok v => exact .inr (.inl ⟨v, rfl, rfl⟩)
    | error f => exact .inr (.inr ⟨f, rfl, rfl⟩)

/-- A register with a value has one always but for an unwritten limb. -/
theorem regValue_error {s : State} {r : Reg} {f : Fault} (h : regValue s r = .error f) :
    ∃ buf i, r = .limb buf i ∧ f = .unwrittenLimb buf i ∧ Limbs.read (s.buffer buf) i = none := by
  cases r with
  | limb buf i =>
    simp only [regValue, readLimb] at h
    split at h
    · cases h
    · cases h
      rename_i h
      exact ⟨buf, i, rfl, rfl, h⟩
  | _ => simp [regValue] at h

/-! ## What a step can do -/

/-- Everything a step can do: a move of the host or a completion, by the turn. -/
theorem step_cases (s : State) :
    (s.inflight = none ∧ step s = hostMove s) ∨
    (∃ f ts, s.inflight = some f ∧ s.turns = .host :: ts ∧ step s = hostMove (s.setTurns ts)) ∨
    (∃ f, s.inflight = some f ∧ s.turns = [] ∧ step s = complete f s) ∨
    (∃ f ts, s.inflight = some f ∧ s.turns = .block :: ts ∧ step s = complete f (s.setTurns ts)) := by
  cases hf : s.inflight with
  | none => exact .inl ⟨rfl, by simp only [step, nextMove, hf]⟩
  | some f =>
    match ht : s.turns with
    | [] => exact .inr (.inr (.inl ⟨f, rfl, rfl, by simp only [step, nextMove, hf, ht]⟩))
    | .host :: ts => exact .inr (.inl ⟨f, ts, rfl, rfl, by simp only [step, nextMove, hf, ht]⟩)
    | .block :: ts => exact .inr (.inr (.inr ⟨f, ts, rfl, rfl, by simp only [step, nextMove, hf, ht]⟩))

/-- Everything a completion of an in-flight record can do: the command it decodes to, or `finish(ILLEGAL)`. -/
theorem complete_cases (f : InFlight) (s : State) :
    (∃ i, decode f.word = .ok i ∧ complete f s = exec i s) ∨
    (∃ e, decode f.word = .error e ∧ complete f s = .next (s.finish .illegal)) := by
  cases h : decode f.word with
  | ok i => exact .inl ⟨i, rfl, by simp only [complete, h]⟩
  | error e => exact .inr ⟨e, rfl, by simp only [complete, h]⟩

/-- A read transaction that answers a next state reads a mapped register. -/
theorem portRead_next {s t : State} {addr size : Nat} (h : portRead s addr size = .next t) :
    ∃ r, r.mapped s.lmax ∧ size = 8 ∧ addr = s.base + r.offset ∧ hostRead s r = .next t := by
  unfold portRead at h
  cases hp : portTarget s.params addr size with
  | error f => rw [hp] at h; cases h
  | ok r =>
    rw [hp] at h
    obtain ⟨h1, h2, h3⟩ := portTarget_ok hp
    exact ⟨r, h3, h1, h2, h⟩

/-- A write transaction that answers a next state writes a mapped register. -/
theorem portWrite_next {s t : State} {addr : Nat} {bytes : List Byte} (h : portWrite s addr bytes = .next t) :
    ∃ r v, r.mapped s.lmax ∧ bytes = byteLanes v ∧ addr = s.base + r.offset ∧ t = hostWrite s r v := by
  unfold portWrite at h
  cases hp : portTarget s.params addr bytes.length with
  | error f => rw [hp] at h; cases h
  | ok r =>
    rw [hp] at h
    obtain ⟨h1, h2, h3⟩ := portTarget_ok hp
    injection h with h
    exact ⟨r, _, h3, (byteLanes_ofByteLanes h1).symm, h2, h.symm⟩

/-- What a move of the host does to the state, its program's first transaction being `op` and `rest` what follows it. -/
inductive HostMoved (s : State) (rest : List HostOp) : HostOp → State → Prop where
  | ignoredRead (addr size : Nat) : s.rst = true → HostMoved s rest (.rd addr size) (s.setHostOps rest).noReply
  | ignoredWrite (addr : Nat) (bytes : List Byte) : s.rst = true → HostMoved s rest (.wr addr bytes) (s.setHostOps rest)
  | ignoredWait : s.rst = true → HostMoved s rest .wait (s.setHostOps rest).noReply
  | waitIrq : HostMoved s rest .waitIrq (pollIrq s rest)
  | assertReset : HostMoved s rest .assertReset (s.setHostOps rest).assertReset
  | releaseReset : HostMoved s rest .releaseReset (s.setHostOps rest).releaseReset
  | wait : s.rst = false → HostMoved s rest .wait (pollStatus s rest)
  | read (r : Reg) (t : State) : s.rst = false → r.mapped s.lmax → hostRead (s.setHostOps rest) r = .next t →
      HostMoved s rest (.rd (s.base + r.offset) 8) t
  | write (r : Reg) (v : Word) : s.rst = false → r.mapped s.lmax →
      HostMoved s rest (.wr (s.base + r.offset) (byteLanes v)) (hostWrite (s.setHostOps rest) r v)

/-- Everything a move of the host that answers a next state can do. -/
theorem hostMove_next {s t : State} (h : hostMove s = .next t) :
    (s.hostOps = [] ∧ t = s) ∨ ∃ op rest, s.hostOps = op :: rest ∧ HostMoved s rest op t := by
  unfold hostMove at h
  cases hops : s.hostOps with
  | nil =>
    rw [hops] at h
    injection h with h
    exact .inl ⟨rfl, h.symm⟩
  | cons op rest =>
    rw [hops] at h
    refine .inr ⟨op, rest, rfl, ?_⟩
    cases hr : s.rst with
    | true =>
      simp only [hr, if_true] at h
      cases op <;> injection h with h <;> subst h
      · exact .ignoredRead _ _ hr
      · exact .ignoredWrite _ _ hr
      · exact .ignoredWait hr
      · exact .waitIrq
      · exact .assertReset
      · exact .releaseReset
    | false =>
      simp only [hr, Bool.false_eq_true, if_false] at h
      cases op with
      | rd addr size =>
        obtain ⟨r, h1, rfl, rfl, h4⟩ := portRead_next h
        exact .read r t hr h1 h4
      | wr addr bytes =>
        obtain ⟨r, v, h1, rfl, rfl, rfl⟩ := portWrite_next h
        exact .write r v hr h1
      | wait => injection h with h; subst h; exact .wait hr
      | waitIrq => injection h with h; subst h; exact .waitIrq
      | assertReset => injection h with h; subst h; exact .assertReset
      | releaseReset => injection h with h; subst h; exact .releaseReset

/-- What a completion that answers a next state leaves of STATUS, CTRL and INFLIGHT, whatever the command. -/
theorem complete_next {f : InFlight} {s t : State} (h : complete f s = .next t) :
    ∃ code, t.status = s.status.finished code ∧ t.ie = s.ie ∧ t.rst = s.rst ∧ t.inflight = none := by
  rcases complete_cases f s with ⟨i, _, hi⟩ | ⟨e, _, he⟩
  · rw [hi] at h
    rcases exec_cases i s with ⟨c, _, he⟩ | ⟨_, as, bs, m, he, _⟩ | ⟨_, q, he⟩ | ⟨_, _, r, he, _⟩ | ⟨_, x, he⟩ | ⟨buf, j, he, _⟩
    all_goals
      rw [he] at h
      cases h
    all_goals exact ⟨_, rfl, rfl, rfl, rfl⟩
  · rw [he] at h
    cases h
    exact ⟨_, rfl, rfl, rfl, rfl⟩

/-- What a host read that answers a next state changes: the data returned and the count of draws. -/
theorem hostRead_next {s t : State} {r : Reg} (h : hostRead s r = .next t) : ∃ d n, t = { s with rdata := d, draws := n } := by
  rcases hostRead_cases s r with ⟨_, _, he⟩ | ⟨v, _, he⟩ | ⟨f, _, he⟩ <;> rw [h] at he <;> cases he
  · exact ⟨_, _, rfl⟩
  · exact ⟨_, s.draws, rfl⟩

/-- Everything a step that answers a next state can do, in the terms of the turns: no move of either agent but a turn used up; a
move of the host; or a completion. -/
theorem step_next {s t : State} (h : step s = .next t) :
    (∃ ts, t = s.setTurns ts) ∨
    (∃ op rest s1, (s1 = s ∨ ∃ ts, s1 = s.setTurns ts) ∧ s.hostTurn op (s1.setHostOps rest) ∧ HostMoved s1 rest op t) ∨
    (∃ f s0, s.blockTurn f s0 ∧ (s0 = s ∨ ∃ ts, s0 = s.setTurns ts) ∧ complete f s0 = .next t) := by
  rcases step_cases s with ⟨hf, he⟩ | ⟨f, ts, hf, ht, he⟩ | ⟨f, hf, ht, he⟩ | ⟨f, ts, hf, ht, he⟩ <;> rw [he] at h
  · rcases hostMove_next h with ⟨_, rfl⟩ | ⟨op, rest, ho, hm⟩
    · exact .inl ⟨t.turns, rfl⟩
    · exact .inr (.inl ⟨op, rest, s, .inl rfl, ⟨rest, ho, .inl ⟨hf, rfl⟩⟩, hm⟩)
  · rcases hostMove_next h with ⟨_, rfl⟩ | ⟨op, rest, ho, hm⟩
    · exact .inl ⟨ts, rfl⟩
    · exact .inr (.inl ⟨op, rest, s.setTurns ts, .inr ⟨_, rfl⟩, ⟨rest, ho, .inr ⟨f, ts, hf, ht, rfl⟩⟩, hm⟩)
  · exact .inr (.inr ⟨f, s, ⟨hf, .inl ⟨ht, rfl⟩⟩, .inl rfl, h⟩)
  · exact .inr (.inr ⟨f, s.setTurns ts, ⟨hf, .inr ⟨ts, ht, rfl⟩⟩, .inr ⟨_, rfl⟩, h⟩)

/-- A step at a turn of the host performs its transaction, on a state that differs from s in the turns alone. -/
theorem hostTurn_step {s s0 : State} {op : HostOp} (h : s.hostTurn op s0) :
    ∃ s1, (s1 = s ∨ ∃ ts, s1 = s.setTurns ts) ∧ s1.hostOps = op :: s0.hostOps ∧ s0 = s1.setHostOps s0.hostOps ∧
      step s = if s.rst then ignoredTransaction s1 s0.hostOps op else hostTransaction s1 s0.hostOps op := by
  obtain ⟨rest, ho, ⟨hf, rfl⟩ | ⟨f, ts, hf, ht, rfl⟩⟩ := h
  · exact ⟨s, .inl rfl, ho, rfl, by simp [step, nextMove, hf, hostMove, ho]⟩
  · refine ⟨s.setTurns ts, .inr ⟨ts, rfl⟩, ho, rfl, ?_⟩
    simp [step, nextMove, hf, ht, hostMove, ho]
    rfl

/-- A step at a turn of the host with a legal write. -/
theorem step_write {s s0 : State} {r : Reg} {v : Word} (hr : s.rst = false) (hm : r.mapped s.lmax)
    (h : s.hostTurn (wrReg s.params r v) s0) : step s = .next (hostWrite s0 r v) := by
  obtain ⟨s1, hs, _, h0, he⟩ := hostTurn_step h
  have hp : s0.params = s.params := by rw [h0]; rcases hs with rfl | ⟨ts, rfl⟩ <;> rfl
  have ht : portTarget s0.params (s.params.base + r.offset) 8 = .ok r := by rw [hp]; exact portTarget_reg _ hm
  rw [he, hr]
  simp only [Bool.false_eq_true, if_false, hostTransaction, wrReg, portWrite, ← h0, length_byteLanes, ht, ofByteLanes_byteLanes]

/-- A step at a turn of the host with a legal read. -/
theorem step_read {s s0 : State} {r : Reg} (hr : s.rst = false) (hm : r.mapped s.lmax)
    (h : s.hostTurn (rdReg s.params r) s0) : step s = hostRead s0 r := by
  obtain ⟨s1, hs, _, h0, he⟩ := hostTurn_step h
  have hp : s0.params = s.params := by rw [h0]; rcases hs with rfl | ⟨ts, rfl⟩ <;> rfl
  have ht : portTarget s0.params (s.params.base + r.offset) 8 = .ok r := by rw [hp]; exact portTarget_reg _ hm
  rw [he, hr]
  simp only [Bool.false_eq_true, if_false, hostTransaction, rdReg, portRead, ← h0, ht]

/-- A step at a turn of the block is the completion. -/
theorem blockTurn_step {s s0 : State} {f : InFlight} (h : s.blockTurn f s0) : step s = complete f s0 := by
  obtain ⟨hf, ⟨ht, rfl⟩ | ⟨ts, ht, rfl⟩⟩ := h <;> simp only [step, nextMove, hf, ht]

/-- Under the invariant a completion's operands are the live registers, in flight or not (70_reset_and_hazards.md R242). -/
theorem State.Inv.operands_eq {s : State} (h : s.Inv) : s.operands = s.live := by
  unfold State.operands
  cases hf : s.inflight with
  | none => rfl
  | some f => exact h.snapshot f hf

/-! ## Runs -/

theorem run_next {s t : State} (h : step s = .next t) (k : Nat) :
    Host.Core.run Sys2Proof.core (k + 1) s = Host.Core.run Sys2Proof.core k t := by
  have h' : Sys2Proof.core.step s = .next t := h
  simp only [Host.Core.run, h']

theorem run_one (s : State) : Host.Core.run Sys2Proof.core 1 s = step s := by
  have h' : ∀ o, Sys2Proof.core.step s = o → Host.Core.run Sys2Proof.core 1 s = o := by
    intro o h
    simp only [Host.Core.run, h]
    cases o <;> rfl
  exact h' _ rfl

/-- One more step of a run that answers a next state. -/
theorem run_succ {k : Nat} : ∀ {s t : State}, Host.Core.run Sys2Proof.core k s = .next t →
    Host.Core.run Sys2Proof.core (k + 1) s = step t := by
  induction k with
  | zero =>
    intro s t h
    cases h
    exact run_one s
  | succ k ih =>
    intro s t h
    cases hs : step s with
    | next u =>
      rw [run_next hs] at h ⊢
      exact ih h
    | fault r =>
      have h' : Sys2Proof.core.step s = .fault r := hs
      simp [Host.Core.run, h'] at h
    | refused r =>
      have h' : Sys2Proof.core.step s = .refused r := hs
      simp [Host.Core.run, h'] at h

end Sys2Proof.Machine
end

