-- ==== Sys2Proof/Tests/Slice0.lean ====
section
/-! SUPPORT. Tests of the model: command words written out bit by bit, one ill-formed term for each check, one or two vectors of
95_test_vectors.md for each command, the port vectors, and for every statement with hypotheses a state and operands that meet
them. Expected values are the spec's. -/

namespace Sys2Proof.Tests

open Sys2Proof Sys2Proof.Machine

/-! ## Helpers -/

/-- LMAX = 8, as the vectors have it, and BASE = 3 · 0x40000. -/
def params8 : Params where
  lmaxLess4 := 4
  window := 3

/-- The machine after reset with these parameters. -/
def m8 : State := State.resetWith params8

/-- Limbs 0, 1, ... written with these values. -/
def limbs (vs : List Nat) : Limbs := Limbs.writeFrom [] 0 (vs.map Word.ofNat)

/-- A machine ready for DIV or EST3X2. -/
def divState (nlen dlen : BitVec 16) (as bs : List Nat) : State :=
  { m8 with nlen := nlen, dlen := dlen, a := limbs as, b := limbs bs }

/-- A machine ready for F2U64 or F2U32. -/
def inState (fin : Word) (bits : BitVec 32) : State := { m8 with fin := fin, bits := bits }

/-- A machine ready for U2F64 or U2F32. -/
def outState (bits : BitVec 32) (as : List Nat) : State := { m8 with bits := bits, a := limbs as }

/-- The state after a command issued on s completes, or nothing where it stops. -/
def after (i : Instr) (s : State) : Option State := next? (exec i (s.issue (encode i)))

/-- Code, DEFF and the buffers' limbs that DIV left. -/
def divResult (s : State) : Option (ErrCode × Nat × Limbs × Limbs) :=
  (after .div s).map fun t => (t.status.err, t.deff.toNat, t.a, t.b)

/-- Code and EST. -/
def estResult (s : State) : Option (ErrCode × Word) := (after .est3x2 s).map fun t => (t.status.err, t.est)

/-- Code, EWIDTH and A. -/
def inResult (i : Instr) (s : State) : Option (ErrCode × Nat × Limbs) :=
  (after i s).map fun t => (t.status.err, t.ewidth.toNat, t.a)

/-- Code and FRES. -/
def outResult (i : Instr) (s : State) : Option (ErrCode × Word) := (after i s).map fun t => (t.status.err, t.fres)

/-- A command in flight, the block to move. -/
def busy8 (i : Instr) : State := m8.issue (encode i)

/-- A command in flight, the host to move with one transaction. -/
def busyHost (op : HostOp) : State := ((busy8 .div).setHostOps [op]).setTurns [.host]

/-- No command in flight, the host to move with one transaction. -/
def idleHost (op : HostOp) : State := m8.setHostOps [op]

theorem idleHost_turn (op : HostOp) : (idleHost op).hostTurn op m8 := ⟨[], rfl, .inl ⟨rfl, rfl⟩⟩

theorem busyHost_turn (op : HostOp) : (busyHost op).hostTurn op (busy8 .div) :=
  ⟨[], rfl, .inr ⟨_, [], rfl, rfl, rfl⟩⟩

theorem idle_write_answers (r : Reg) (v : Word) (h : r.mapped 8) : ∃ t, step (idleHost (wrReg params8 r v)) = .next t :=
  ⟨_, step_write (r := r) (v := v) rfl h (idleHost_turn _)⟩

theorem busy_write_answers (r : Reg) (v : Word) (h : r.mapped 8) : ∃ t, step (busyHost (wrReg params8 r v)) = .next t :=
  ⟨_, step_write (r := r) (v := v) rfl h (busyHost_turn _)⟩

/-! ## Decoding (30_encoding.md R80-R86): reserved 31:10, POL 9:8, OPC 7:0, upper half 0 -/

theorem test_decode_div : decode 0b0000000000000000000000_00_00000001 = .ok .div := by decide

theorem test_decode_est3x2 : decode 0b0000000000000000000000_00_00000010 = .ok .est3x2 := by decide

theorem test_decode_f2u64Try : decode 0b0000000000000000000000_00_00010000 = .ok .f2u64Try := by decide

theorem test_decode_f2u64Sat : decode 0b0000000000000000000000_01_00010000 = .ok .f2u64Sat := by decide

theorem test_decode_f2u64Wrap : decode 0b0000000000000000000000_10_00010000 = .ok .f2u64Wrap := by decide

theorem test_decode_f2u32Try : decode 0b0000000000000000000000_00_00010001 = .ok .f2u32Try := by decide

theorem test_decode_f2u32Sat : decode 0b0000000000000000000000_01_00010001 = .ok .f2u32Sat := by decide

theorem test_decode_f2u32Wrap : decode 0b0000000000000000000000_10_00010001 = .ok .f2u32Wrap := by decide

theorem test_decode_u2f64 : decode 0b0000000000000000000000_00_00100000 = .ok .u2f64 := by decide

theorem test_decode_u2f32 : decode 0b0000000000000000000000_00_00100001 = .ok .u2f32 := by decide

/-- The illegal values of 95_test_vectors.md section 6, each refused under its reason. -/
theorem test_decode_illegal :
    decode 0x0 = .error .opcode ∧ decode 0x101 = .error .policy ∧ decode 0x120 = .error .policy ∧
      decode 0x310 = .error .policy ∧ decode 0x410 = .error .reserved ∧ decode 0x80000001 = .error .reserved ∧
      decode 0x100000001 = .error .upperHalf ∧ decode 0x3 = .error .opcode ∧ decode 0xFF = .error .opcode := by decide

theorem test_decodeTableWord :
    decodeTableWord 32 0x211 = some .f2u32Wrap ∧ decodeTableWord 32 0x1 = some .div ∧ decodeTableWord 32 0x311 = none := by
  decide

/-! ## Well-formedness: an ill-formed term for each check -/

theorem test_upperZero_refuses : upperZero 0x100000001 = false ∧ wellFormedCmd 0x100000001 = false := by decide

theorem test_reservedZero_refuses : reservedZero 0x401 = false ∧ wellFormedCmd 0x401 = false := by decide

theorem test_opcodeAssigned_refuses : opcodeAssigned 0x03 = false ∧ wellFormedCmd 0x03 = false := by decide

theorem test_policyAdmitted_refuses :
    policyAdmitted 0x310 = false ∧ policyAdmitted 0x101 = false ∧ wellFormedCmd 0x310 = false := by decide

theorem test_hostOp_refuses_size : (HostOp.rd 0xC0000 4).wellFormed = false := by decide

theorem test_hostOp_refuses_alignment : (HostOp.wr 0xC0004 (byteLanes 0)).wellFormed = false := by decide

theorem test_wellFormed : WellFormed .div = true ∧ wellFormedCmd 0x210 = true ∧ (HostOp.rd 0xC0008 8).wellFormed = true := by
  decide

/-! ## Commands, one or two vectors each -/

/-- DV1, the source's golden vector (40_division.md R116). -/
theorem test_div_golden :
    divResult (divState 5 3 [40, 31, 79, 84, 0] [53, 12, 12]) =
      some (.none, 3, limbs [93, 0xFFFFFFFFFFFFFEB8, 6, 0xFFFFFFFFFFFFFFFF, 6], limbs [93, 0xFFFFFFFFFFFFFEB8, 6]) := by decide

/-- DV10: an add-back, then a window whose top two limbs equal the divisor's. -/
theorem test_div_addBack :
    divResult (divState 5 3 [0x1234, 0x4, 0x7, 0x8000000000000000, 0x0] [0x5, 0x7, 0x8000000000000000]) =
      some (.none, 3, limbs [0x1239, 0x6, 0x8000000000000000, 0xFFFFFFFFFFFFFFFF, 0x0],
        limbs [0x1239, 0x6, 0x8000000000000000]) := by decide

/-- EV10: two corrections. -/
theorem test_est3x2_twoCorrections :
    estResult (divState 0 0 [0, 0, 0x7FFFFFFFFFFFFFFF] [0xFFFFFFFFFFFFFFFE, 0x8000000000000000]) =
      some (.none, 0xFFFFFFFFFFFFFFFC) := by decide

/-- EV2: the special branch returning β - 2. -/
theorem test_est3x2_special :
    estResult (divState 0 0 [0, 0, 0x8000000000000000] [0xFFFFFFFFFFFFFFFF, 0x8000000000000000]) =
      some (.none, 0xFFFFFFFFFFFFFFFE) := by decide

/-- FV16: too large, with its payload. -/
theorem test_f2u64Try_tooLarge :
    inResult .f2u64Try (inState 0x43F0000000000001 64) = some (.valueTooLarge, 64, limbs [0x1000]) := by decide

/-- FV18: 2^52 + 1 is kept exactly. -/
theorem test_f2u64Try_exact :
    inResult .f2u64Try (inState 0x4330000000000001 64) = some (.none, 0, limbs [0x10000000000001]) := by decide

/-- FV30: 4.5 with BITS = 2 saturates. -/
theorem test_f2u64Sat : inResult .f2u64Sat (inState 0x4012000000000000 2) = some (.none, 0, limbs [3]) := by decide

/-- FV29: -2^64 with BITS = 128 wraps across two limbs. -/
theorem test_f2u64Wrap :
    inResult .f2u64Wrap (inState 0xC3F0000000000000 128) = some (.none, 0, limbs [0, 0xFFFFFFFFFFFFFFFF]) := by decide

/-- FW11: -2.5f with BITS = 8. -/
theorem test_f2u32Try_negative :
    inResult .f2u32Try (inState 0xC0200000 8) = some (.valueNegative, 8, limbs [0xFD]) := by decide

/-- FX4: FIN[63:32] is ignored. -/
theorem test_f2u32Try_upperIgnored :
    inResult .f2u32Try (inState 0xFFFFFFFF3F000000 64) = some (.none, 0, limbs [1]) := by decide

/-- FW5: the largest binary32 with BITS = 127. -/
theorem test_f2u32Sat :
    inResult .f2u32Sat (inState 0x7F7FFFFF 127) =
      some (.none, 0, limbs [0xFFFFFFFFFFFFFFFF, 0x7FFFFFFFFFFFFFFF]) := by decide

/-- FW5 again, wrapping. -/
theorem test_f2u32Wrap :
    inResult .f2u32Wrap (inState 0x7F7FFFFF 127) = some (.none, 0, limbs [0, 0x7FFFFF0000000000]) := by decide

/-- UV10: 2^64 + 2^11 + 1 rounds twice. -/
theorem test_u2f64_doubleRounding :
    outResult .u2f64 (outState 128 [0x801, 1]) = some (.none, 0x43F0000000000000) := by decide +kernel

/-- UX1: a bit at or above BITS. -/
theorem test_u2f64_refuses : outResult .u2f64 (outState 63 [0x8000000000000000]) = some (.precond, 0) := by decide

/-- UV22: rounds the window, not through binary64. -/
theorem test_u2f32_doubleRounding :
    outResult .u2f32 (outState 128 [0x10000000001, 1]) = some (.none, 0x5F800000) := by decide

/-- UV18: the largest binary32, FRES[63:32] zero. -/
theorem test_u2f32_largest :
    outResult .u2f32 (outState 128 [0, 0xFFFFFF0000000000]) = some (.none, 0x7F7FFFFF) := by decide

/-! ## The port (95_test_vectors.md section 6) -/

/-- The data a transaction returned from an idle machine. -/
def idleRead (r : Reg) (s : State) : Option (Option Word) := (next? (hostRead s r)).map fun t => t.rdata.map ofByteLanes

/-- PV1, PV2, PV9. -/
theorem test_port_reads_after_reset :
    idleRead .status m8 = some (some 0) ∧ idleRead .cap m8 = some (some 8) ∧ idleRead .cmd m8 = some (some 0) := by decide

/-- PV3, PV4. -/
theorem test_port_reserved :
    hostWrite m8 .cap 0xFFFF = m8 ∧ (hostWrite m8 .nlen 0xFFFFFFFFFFFFFFFF).nlen = 0xFFFF := by decide

/-- PV5 to PV8. -/
theorem test_port_busErrors :
    portTarget params8 0xC0020 4 = .error (.busError 0xC0020 4) ∧ portTarget params8 0xC0024 8 = .error (.busError 0xC0024 8) ∧
      portTarget params8 0xC0060 8 = .error (.busError 0xC0060 8) ∧
      portTarget params8 0xD0040 8 = .error (.busError 0xD0040 8) := by decide

/-- PV10: the acknowledgement keeps WERR. -/
theorem test_port_acknowledge :
    (hostWrite { m8 with status := { Status.reset with done := true, werr := true } } .status 2).status =
      { Status.reset with werr := true } := by decide

/-- PV11, PV12, PV13. -/
theorem test_port_writes_while_busy :
    hostWrite (busy8 .div) (.limb .a 0) 7 = (busy8 .div).drop ∧ hostWrite (busy8 .div) .cmd 2 = (busy8 .div).drop ∧
      (hostWrite (busy8 .div) .ctrl 1).ie = true ∧ (hostWrite (busy8 .div) .ctrl 1).status.werr = false := by decide

/-- PV14: two reads are two draws. -/
theorem test_port_busy_reads_draw (s : State) (h : s.status.busy = true) :
    hostRead s (.limb .a 0) = .next s.drawReply ∧
      hostRead s.drawReply (.limb .a 0) = .next { s with rdata := some (byteLanes (Config.busyRead (s.draws + 1))), draws := s.draws + 2 } := by
  simp [hostRead, h, Reg.anyWhileBusy, State.drawReply]

/-- PV16: an unwritten limb faults. -/
theorem test_port_unwritten : fault? (hostRead m8 (.limb .a 0)) = some (.unwrittenLimb .a 0) := by decide

/-! ## Reset and placing -/

theorem test_reset_buffers_wf : Limbs.wf State.reset.a State.reset.lmax ∧ Limbs.wf State.reset.b State.reset.lmax := by
  refine ⟨Limbs.wf_nil _, Limbs.wf_nil _⟩

/-- From reset with a DIV placed, the next step completes it: DLEN = 0 is DIV_BY_ZERO (40_division.md R115). -/
theorem test_withFetchWord_runs :
    (next? (step (State.reset.withFetchWord 32 0x1))).map (fun t => t.status) =
      some { busy := false, done := true, werr := false, err := .divByZero } := by decide

/-- From reset with an EST3X2 placed, B[1] is unwritten (70_reset_and_hazards.md R232). -/
theorem test_withFetchWord_unwritten :
    fault? (step (State.reset.withFetchWord 32 0x2)) = some (.unwrittenLimb .b 1) := by decide

/-- Every constructor's per-instruction lemma. -/
theorem test_roundTrip (i : Instr) : Laws.RoundTrip.Statement i := by
  cases i
  · exact Laws.RoundTrip.div
  · exact Laws.RoundTrip.est3x2
  · exact Laws.RoundTrip.f2u64Try
  · exact Laws.RoundTrip.f2u64Sat
  · exact Laws.RoundTrip.f2u64Wrap
  · exact Laws.RoundTrip.f2u32Try
  · exact Laws.RoundTrip.f2u32Sat
  · exact Laws.RoundTrip.f2u32Wrap
  · exact Laws.RoundTrip.u2f64
  · exact Laws.RoundTrip.u2f32

/-! ## Witnesses: for each statement with hypotheses, a state and operands that meet them, one for each clause -/

theorem witness_DecoderAcceptsExactlyTheTenWords : ∀ i, (InFlight.mk 0x3 m8.live).word ≠ encode i := by
  intro i
  cases i <;> decide

theorem witness_StepRunsTheDecodedCommand :
    (busy8 .div).blockTurn { word := 0x1, operands := m8.live } (busy8 .div) ∧ decode 0x1 = .ok .div := by
  exact ⟨⟨by decide, .inl ⟨rfl, rfl⟩⟩, by decide⟩

/-- The block's turn taken from `turns`. -/
theorem witness_StepRunsTheDecodedCommand_turn :
    ((busy8 .u2f32).setTurns [.block]).blockTurn { word := 0x21, operands := m8.live } (busy8 .u2f32) ∧
      decode 0x21 = .ok .u2f32 :=
  ⟨⟨by decide, .inr ⟨[], rfl, rfl⟩⟩, by decide⟩

theorem witness_IdleBlockKeepsAllState : m8.inflight = none ∧ m8.hostOps = [] := ⟨rfl, rfl⟩

theorem witness_IllegalWordIsIssuedAndFinishes :
    (idleHost (wrReg params8 .cmd 0x310)).rst = false ∧ (idleHost (wrReg params8 .cmd 0x310)).status.busy = false ∧
      decode 0x310 = .error .policy ∧ (idleHost (wrReg params8 .cmd 0x310)).hostTurn (wrReg params8 .cmd 0x310) m8 ∧
      (m8.issue 0x310).blockTurn { word := 0x310, operands := m8.live } (m8.issue 0x310) :=
  ⟨rfl, rfl, by decide, idleHost_turn _, rfl, .inl ⟨rfl, rfl⟩⟩

/-- Two turns of a host whose program has ended; and a poll, a legal read and a legal write in three turns before the block's, with a
reset only after them. -/
theorem witness_CommandInFlightCompletes :
    (((busy8 .div).setTurns [.host, .host]).inflight = some { word := encode .div, operands := m8.live } ∧
      ((busy8 .div).setTurns [.host, .host]).hostOps = []) ∧
    let s := ((busy8 .div).setTurns [.host, .host, .host, .block]).setHostOps
      [.wait, rdReg params8 (.limb .b 7), wrReg params8 .cmd 1, .assertReset]
    s.inflight = some { word := encode .div, operands := m8.live } ∧ s.status.busy = true ∧
      (s.turns.takeWhile (· == .host)).length = 3 ∧ ∀ op ∈ s.hostOps.take 3, LegalNoReset s.params op := by
  refine ⟨⟨rfl, rfl⟩, rfl, rfl, rfl, fun op hop => ?_⟩
  simp only [State.setHostOps_hostOps, List.take_succ_cons, List.take_zero, List.mem_cons, List.not_mem_nil, or_false] at hop
  rcases hop with rfl | rfl | rfl
  · exact .inl rfl
  · exact .inr (.inr (.inr ⟨.limb .b 7, show 7 < 8 by decide, .inl rfl⟩))
  · exact .inr (.inr (.inr ⟨.cmd, trivial, .inr ⟨1, rfl⟩⟩))

/-- The invariant with a command in flight and limbs written, up to the last. -/
theorem inv_busy : (({ m8 with a := [(0, 5), (7, 6)], nlen := 8 } : State).issue (encode .div)).Inv where
  a_wf := by decide
  b_wf := by decide
  busy_iff := rfl
  snapshot := by
    intro f hf
    cases hf
    rfl
  busy_clear := fun _ => ⟨rfl, rfl⟩
  deff_le := Nat.zero_le _
  ewidth_le := Nat.zero_le _
  held := by
    intro h
    cases h

theorem inv_m8 : m8.Inv where
  a_wf := by decide
  b_wf := by decide
  busy_iff := rfl
  snapshot := by
    intro f hf
    cases hf
  busy_clear := by
    intro h
    cases h
  deff_le := Nat.zero_le _
  ewidth_le := Nat.zero_le _
  held := by
    intro h
    cases h

theorem witness_EveryStepKeepsTheInvariant :
    ∃ t, (({ m8 with a := [(0, 5), (7, 6)], nlen := 8 } : State).issue (encode .div)).Inv ∧
      step (({ m8 with a := [(0, 5), (7, 6)], nlen := 8 } : State).issue (encode .div)) = .next t :=
  ⟨_, inv_busy, rfl⟩

theorem witness_NoStepChangesTheParameters : ∃ t, step (busy8 .div) = .next t := ⟨_, rfl⟩

theorem witness_SnapshotIsTheLiveOperands : (({ m8 with a := [(0, 5), (7, 6)], nlen := 8 } : State).issue (encode .div)).Inv :=
  inv_busy

/-- Reset is asserted while a command is in flight. -/
theorem witness_ResetEventAndHeldReset : (busyHost .assertReset).hostTurn .assertReset (busy8 .div) := busyHost_turn _

/-- Reset is held: a read, a wait and a write. -/
theorem witness_ResetEventAndHeldReset_held (op : HostOp) :
    (m8.assertReset.setHostOps [op]).rst = true ∧ (m8.assertReset.setHostOps [op]).hostTurn op m8.assertReset :=
  ⟨rfl, [], rfl, .inl ⟨rfl, rfl⟩⟩

/-- Each clause at its first and last offset: a narrow access, misaligned ones, 0x60, 0xFFF8, A[LMAX], the last below B, B[LMAX], the
last of the window. -/
theorem witness_IllegalAccessFaults :
    ∀ c ∈ [(0x20, 4), (0x20, 16), (0x24, 8), (0x3FFFF, 8), (0x60, 8), (0xFFF8, 8), (0x10040, 8), (0x1FFF8, 8), (0x20040, 8),
        (0x3FFF8, 8)],
      params8.base ≤ params8.base + c.1 ∧ params8.base + c.1 < params8.base + 0x40000 ∧
        (c.2 ≠ 8 ∨ c.1 % 8 ≠ 0 ∨ (0x60 ≤ c.1 ∧ c.1 < 0x10000) ∨ (0x10000 + 8 * params8.lmax ≤ c.1 ∧ c.1 < 0x20000) ∨
          0x20000 + 8 * params8.lmax ≤ c.1) := by decide

theorem witness_IllegalAccessFaults_turns (addr size : Nat) :
    (idleHost (.rd addr size)).rst = false ∧ (idleHost (.rd addr size)).hostTurn (.rd addr size) m8 ∧
      (idleHost (.wr addr (List.replicate size 0))).hostTurn (.wr addr (List.replicate size 0)) m8 ∧
      (List.replicate size (0 : Byte)).length = size :=
  ⟨rfl, idleHost_turn _, idleHost_turn _, List.length_replicate⟩

/-- Every register, and the first and last limb of both buffers. -/
theorem witness_mapped :
    (∀ r ∈ controlRegs, r.mapped m8.lmax) ∧ (Reg.limb .a 0).mapped m8.lmax ∧ (Reg.limb .a 7).mapped m8.lmax ∧
      (Reg.limb .b 0).mapped m8.lmax ∧ (Reg.limb .b 7).mapped m8.lmax := by
  refine ⟨fun r hr => ?_, ?_, ?_, ?_, ?_⟩
  · cases r with
    | limb buf i => exact absurd hr (by simp [controlRegs])
    | _ => trivial
  all_goals
    show _ < m8.lmax
    decide

theorem witness_IdleReadReturnsTheRegister (r : Reg) :
    (idleHost (rdReg params8 r)).rst = false ∧ (idleHost (rdReg params8 r)).status.busy = false ∧
      (idleHost (rdReg params8 r)).hostTurn (rdReg params8 r) m8 := ⟨rfl, rfl, idleHost_turn _⟩

theorem witness_BusyReadDrawsOrReturns (r : Reg) :
    (busyHost (rdReg params8 r)).rst = false ∧ (busyHost (rdReg params8 r)).status.busy = true ∧
      (busyHost (rdReg params8 r)).hostTurn (rdReg params8 r) (busy8 .div) := ⟨rfl, rfl, busyHost_turn _⟩

theorem witness_IdleWriteStores (r : Reg) (v : Word) :
    (idleHost (wrReg params8 r v)).rst = false ∧ (idleHost (wrReg params8 r v)).status.busy = false ∧
      (idleHost (wrReg params8 r v)).hostTurn (wrReg params8 r v) m8 := ⟨rfl, rfl, idleHost_turn _⟩

theorem witness_BusyWriteIsDropped (r : Reg) (v : Word) :
    (busyHost (wrReg params8 r v)).rst = false ∧ (busyHost (wrReg params8 r v)).status.busy = true ∧
      (busyHost (wrReg params8 r v)).hostTurn (wrReg params8 r v) (busy8 .div) := ⟨rfl, rfl, busyHost_turn _⟩

/-- An issue, a dropped write, a read, and a value with a bit of 63:32 set. -/
theorem witness_CmdPortIssues :
    ((idleHost (wrReg params8 .cmd 1)).hostTurn (wrReg params8 .cmd 1) m8 ∧
      (idleHost (wrReg params8 .cmd 1)).status.busy = false) ∧
    ((busyHost (wrReg params8 .cmd 1)).hostTurn (wrReg params8 .cmd 1) (busy8 .div) ∧
      (busyHost (wrReg params8 .cmd 1)).status.busy = true) ∧
    (busyHost (rdReg params8 .cmd)).hostTurn (rdReg params8 .cmd) (busy8 .div) ∧
    (0x100000001 : Word).extractLsb' 32 32 ≠ 0 :=
  ⟨⟨idleHost_turn _, rfl⟩, ⟨busyHost_turn _, rfl⟩, busyHost_turn _, by decide⟩

/-- The last limb of B. -/
theorem witness_WrittenLimbReadsBack :
    let s := m8.setHostOps [wrReg params8 (.limb .b 7) 9, rdReg params8 (.limb .b 7)]
    s.rst = false ∧ s.status.busy = false ∧ s.inflight = none ∧ 7 < s.lmax ∧
      s.hostOps = wrReg s.params (.limb .b 7) 9 :: rdReg s.params (.limb .b 7) :: [] :=
  ⟨rfl, rfl, rfl, by decide, rfl⟩

/-- Eight bytes written to the first limb of A and the last of B, and a read of NLEN. -/
theorem witness_ByteLanesAreLittleEndian :
    let bytes : List Byte := [0x88, 0x77, 0x66, 0x55, 0x44, 0x33, 0x22, 0x11]
    let p := params8
    bytes.length = 8 ∧ 0 < m8.lmax ∧ 7 < m8.lmax ∧
      (idleHost (.wr (p.base + 0x10000 + 8 * 0) bytes)).hostTurn (.wr (p.base + 0x10000 + 8 * 0) bytes) m8 ∧
      (idleHost (.wr (p.base + 0x20000 + 8 * 7) bytes)).hostTurn (.wr (p.base + 0x20000 + 8 * 7) bytes) m8 ∧
      (idleHost (rdReg p .nlen)).status.busy = false ∧ Reg.nlen.mapped m8.lmax ∧ regValue (idleHost (rdReg p .nlen)) .nlen = .ok 0 ∧
      (idleHost (rdReg p .nlen)).hostTurn (rdReg p .nlen) m8 :=
  ⟨rfl, by decide, by decide, idleHost_turn _, idleHost_turn _, rfl, trivial, rfl, idleHost_turn _⟩

/-- 20_memory.md R61: the byte at the lowest address is bits 7 to 0. -/
theorem test_byteOrder :
    ofByteLanes [0x88, 0x77, 0x66, 0x55, 0x44, 0x33, 0x22, 0x11] = 0x1122334455667788 ∧
      byteLanes 0x1122334455667788 = [0x88, 0x77, 0x66, 0x55, 0x44, 0x33, 0x22, 0x11] := by decide

theorem witness_WaitPollsBusy :
    (busyHost .wait).rst = false ∧ (busyHost .wait).hostTurn .wait (busy8 .div) ∧ (idleHost .wait).hostTurn .wait m8 :=
  ⟨rfl, busyHost_turn _, idleHost_turn _⟩

/-- Every event: an issue, a completion, an acknowledgement, dropped writes, reset. -/
theorem witness_OnlyFiveEventsChangeStatus :
    (∃ t, step (idleHost (wrReg params8 .cmd 1)) = .next t) ∧ (∃ t, step (busy8 .div) = .next t) ∧
      (busy8 .div).blockTurn { word := encode .div, operands := m8.live } (busy8 .div) ∧
      (∃ t, step (busyHost (wrReg params8 .status 6)) = .next t) ∧
      (∃ t, step (busyHost (wrReg params8 (.limb .a 7) 6)) = .next t) ∧
      (∃ t, step (busyHost .assertReset) = .next t) := by
  exact ⟨idle_write_answers .cmd 1 trivial, ⟨_, rfl⟩, ⟨rfl, .inl ⟨rfl, rfl⟩⟩, busy_write_answers .status 6 trivial,
    busy_write_answers (.limb .a 7) 6 (show 7 < 8 by decide), ⟨_, rfl⟩⟩

/-- IRQ rises in a completion with IE = 1. -/
theorem witness_IrqChangesOnlyWithDoneOrEnable_rise :
    ∃ t, step ({ busy8 .div with ie := true } : State) = .next t ∧ ({ busy8 .div with ie := true } : State).irq = false ∧
      t.irq = true := ⟨_, rfl, rfl, rfl⟩

/-- IRQ falls in the acknowledgement. -/
theorem witness_IrqChangesOnlyWithDoneOrEnable_fall :
    let s : State := { idleHost (wrReg params8 .status 2) with ie := true, status := { Status.reset with done := true } }
    ∃ t, step s = .next t ∧ s.irq = true ∧ t.irq = false := by
  exact ⟨_, step_write (r := .status) (v := 2) (s0 := { m8 with ie := true, status := { Status.reset with done := true } }) rfl
    trivial ⟨[], rfl, .inl ⟨rfl, rfl⟩⟩, rfl, rfl⟩

theorem witness_EveryCompletionEndsTheCommand :
    ∃ t, complete { word := encode .div, operands := m8.live } (busy8 .div) = .next t := ⟨_, rfl⟩

theorem witness_CompletionStopsOnlyOnUnwrittenLimbs :
    complete { word := encode .est3x2, operands := m8.live } (busy8 .est3x2) = .fault (.unwrittenLimb .b 1) ∧
      (busy8 .est3x2).operands.reads .est3x2 .b 1 := ⟨rfl, show 1 < 2 by decide⟩

/-- Each fatal code. -/
theorem witness_FatalOutcomesChangeOnlyStatus :
    ((next? (complete { word := 0x1, operands := m8.live } (busy8 .div))).map (·.status.err) = some .divByZero) ∧
    ((next? (complete { word := 0x20, operands := (outState 513 []).live } ((outState 513 []).issue 0x20))).map (·.status.err) =
      some .precond) ∧
    ((next? (complete { word := 0x310, operands := m8.live } (m8.issue 0x310))).map (·.status.err) = some .illegal) := by
  decide

/-- Each recoverable code (FV15, FV12, FW2). -/
theorem witness_RecoverableOutcomesCarryThePayload :
    ((next? (complete { word := 0x10, operands := (inState 0x43F0000000000000 64).live }
      ((inState 0x43F0000000000000 64).issue 0x10))).map (·.status.err) = some .valueTooLarge) ∧
    ((next? (complete { word := 0x10, operands := (inState 0xBFD3333333333333 64).live }
      ((inState 0xBFD3333333333333 64).issue 0x10))).map (·.status.err) = some .valueNegative) ∧
    ((next? (complete { word := 0x11, operands := (inState 0x7FC00000 64).live }
      ((inState 0x7FC00000 64).issue 0x11))).map (·.status.err) = some .notANumber) := by
  decide

/-- Each result register does change in its command: FRES, DEFF, EST, EWIDTH. -/
theorem witness_ResultRegistersHaveOneWriter :
    ((next? (step ((outState 64 [1]).issue 0x20))).map (·.fres) = some 0x3FF0000000000000) ∧
    ((next? (step ((divState 1 1 [5] [9]).issue 0x1))).map (·.deff) = some 1) ∧
    ((next? (step ((divState 0 0 [0, 0, 0x4000000000000000] [0, 0x8000000000000000]).issue 0x2))).map (·.est) =
      some 0x8000000000000000) ∧
    ((next? (step ((inState 0x7FF8000000000000 64).issue 0x10))).map (·.ewidth) = some 64) := by
  decide +kernel

theorem witness_HostCannotAlterACommandInFlight :
    let s := busyHost (wrReg params8 (.limb .a 0) 5)
    s.inflight = some { word := encode .div, operands := m8.live } ∧ s.status.busy = true ∧
      s.hostTurn (wrReg params8 (.limb .a 0) 5) (busy8 .div) ∧ wrReg params8 (.limb .a 0) 5 ≠ .assertReset ∧
      ∃ t, step s = .next t := by
  exact ⟨rfl, rfl, busyHost_turn _, by decide, busy_write_answers (.limb .a 0) 5 (show 0 < 8 by decide)⟩

/-- Operands that differ outside what DIV, EST3X2, F2U64, F2U32 and U2F64 read. -/
theorem witness_CommandsReadOnlyTheirOperands :
    let o := (divState 1 1 [5, 0, 7] [9, 3]).live
    ((∀ i < 1, Limbs.read (limbs [5, 8]) i = Limbs.read o.a i) ∧ (∀ i < 1, Limbs.read (limbs [9]) i = Limbs.read o.b i)) ∧
    ((∀ i < 3, Limbs.read (limbs [5, 0, 7, 1]) i = Limbs.read o.a i) ∧
      (∀ i < 2, Limbs.read (limbs [9, 3, 1]) i = Limbs.read o.b i)) ∧
    ({ o with nlen := 3 }.bits = o.bits ∧ { o with nlen := 3 }.fin = o.fin) ∧
    ({ o with fin := 0x100000000 }.fin.extractLsb' 0 32 = o.fin.extractLsb' 0 32) ∧
    (∀ i < limbCount 0, Limbs.read (limbs [1]) i = Limbs.read o.a i) := by decide

/-! ### DIV -/

/-- The length range, for both lengths. -/
theorem witness_DivChecksInOrder_range :
    (divState 9 0 [] []).lmax < (divState 9 0 [] []).operands.nlen.toNat ∧
      (divState 1 9 [] []).lmax < (divState 1 9 [] []).operands.dlen.toNat := by decide

/-- Effective lengths 0 (an empty and an all-zero divisor), 1 with NLEN = 0, 2 with NLEN = 3, 2 with a guard limb of 5. -/
theorem witness_DivChecksInOrder :
    (∀ c ∈ [(divState 2 0 [7, 7] [], 0), (divState 3 3 [0, 0, 0] [0, 0, 0], 0), (divState 0 1 [] [9], 1),
        (divState 3 2 [1, 2, 0] [1, 1], 2), (divState 5 2 [1, 2, 3, 4, 5] [1, 1], 2)],
      c.1.operands.nlen.toNat ≤ c.1.lmax ∧ c.1.operands.dlen.toNat ≤ c.1.lmax ∧
        Limbs.Written c.1.operands.b c.1.operands.dlen.toNat ∧
        effLength (Limbs.values c.1.operands.b c.1.operands.dlen.toNat) = c.2) ∧
    (∀ xs m, effLength xs = m → IsEffLength xs m) ∧
    Limbs.read (divState 5 2 [1, 2, 3, 4, 5] [1, 1]).operands.a 4 = some 5 :=
  ⟨by decide, fun xs m => (isEffLength_iff xs m).2, by decide⟩

/-- DV6: the shortest numerator and divisor. -/
theorem witness_DivSingleLimbResult :
    let s := divState 1 1 [5] [9]
    s.operands.nlen.toNat ≤ s.lmax ∧ s.operands.dlen.toNat ≤ s.lmax ∧ Limbs.Written s.operands.a 1 ∧
      Limbs.Written s.operands.b 1 ∧ IsEffLength (Limbs.values s.operands.b s.operands.dlen.toNat) 1 ∧
      1 ≤ s.operands.nlen.toNat :=
  ⟨by decide, by decide, by decide, by decide, (isEffLength_iff _ _).2 (by decide), by decide⟩

/-- DV7: the shortest numerator of the multi-limb path. -/
theorem witness_DivMultiLimbResult :
    let s := divState 4 2 [5, 0, 0, 0] [1, 1]
    s.operands.nlen.toNat ≤ s.lmax ∧ s.operands.dlen.toNat ≤ s.lmax ∧ Limbs.Written s.operands.a 4 ∧
      Limbs.Written s.operands.b 2 ∧ IsEffLength (Limbs.values s.operands.b s.operands.dlen.toNat) 2 ∧
      2 + 2 ≤ s.operands.nlen.toNat ∧ Limbs.read s.operands.a 3 = some 0 :=
  ⟨by decide, by decide, by decide, by decide, (isEffLength_iff _ _).2 (by decide), by decide, by decide⟩

/-- The invariant of an idle machine with DIV's operands. -/
theorem inv_divState {nlen dlen : BitVec 16} {as bs : List Nat} (ha : Limbs.wf (limbs as) 8) (hb : Limbs.wf (limbs bs) 8) :
    (divState nlen dlen as bs).Inv where
  a_wf := ha
  b_wf := hb
  busy_iff := rfl
  snapshot := by
    intro f hf
    cases hf
  busy_clear := by
    intro h
    cases h
  deff_le := Nat.zero_le _
  ewidth_le := Nat.zero_le _
  held := by
    intro h
    cases h

/-- An issue with reset released keeps the invariant. -/
theorem inv_issue {s : State} {v : Word} (h : s.Inv) (hr : s.rst = false) : (s.issue v).Inv where
  a_wf := h.a_wf
  b_wf := h.b_wf
  busy_iff := rfl
  snapshot := by
    intro f hf
    cases hf
    rfl
  busy_clear := fun _ => ⟨rfl, rfl⟩
  deff_le := h.deff_le
  ewidth_le := h.ewidth_le
  held := fun hs => by simp [State.issue, hr] at hs

/-- DV3, a padded single-limb divisor. -/
theorem witness_DivLeavesQuotientAndRemainder_single :
    let s := divState 2 3 [0x123456789ABCDEF, 0xFEDCBA9876543210] [7, 0, 0]
    s.Inv ∧ s.operands.nlen.toNat ≤ s.lmax ∧ s.operands.dlen.toNat ≤ s.lmax ∧ Limbs.Written s.operands.a 2 ∧
      Limbs.Written s.operands.b 3 ∧ IsEffLength (Limbs.values s.operands.b s.operands.dlen.toNat) 1 ∧
      1 ≤ s.operands.nlen.toNat :=
  ⟨inv_divState (by decide) (by decide), by decide, by decide, by decide, by decide, (isEffLength_iff _ _).2 (by decide), by decide⟩

/-- DV22, NLEN = LMAX. -/
theorem witness_DivLeavesQuotientAndRemainder_multi :
    let s := divState 8 2 [1, 2, 3, 4, 5, 6, 7, 0] [0, 1]
    s.Inv ∧ s.operands.nlen.toNat ≤ s.lmax ∧ s.operands.dlen.toNat ≤ s.lmax ∧ Limbs.Written s.operands.a 8 ∧
      Limbs.Written s.operands.b 2 ∧ IsEffLength (Limbs.values s.operands.b s.operands.dlen.toNat) 2 ∧
      2 + 2 ≤ s.operands.nlen.toNat ∧ Limbs.read s.operands.a 7 = some 0 :=
  ⟨inv_divState (by decide) (by decide), by decide, by decide, by decide, by decide, (isEffLength_iff _ _).2 (by decide),
    by decide, by decide⟩

/-- A division that completes, and one that ends with a fatal code. -/
theorem witness_DivFrame :
    (∃ t, exec .div (divState 1 1 [5] [9]) = .next t) ∧ ∃ t, exec .div m8 = .next t ∧ t.status.err ≠ .none :=
  ⟨⟨_, rfl⟩, _, rfl, by decide⟩

/-- One idle with DLEN = 1, another limb of B nonzero; one in flight with DLEN = LMAX (DV3). -/
theorem witness_DivPaddedDivisorAgrees :
    let s1 := divState 2 1 [0x123456789ABCDEF, 0xFEDCBA9876543210] [7, 5]
    let s2 := (divState 2 8 [0x123456789ABCDEF, 0xFEDCBA9876543210] [7, 0, 0, 0, 0, 0, 0, 0]).issue (encode .div)
    s1.Inv ∧ s2.Inv ∧ s1.operands.nlen = s2.operands.nlen ∧ s1.a = s2.a ∧ 1 ≤ s1.operands.nlen.toNat ∧ (7 : Word) ≠ 0 ∧
      ∀ s ∈ [s1, s2], s.operands.nlen.toNat ≤ s.lmax ∧ Limbs.Written s.operands.a s.operands.nlen.toNat ∧
        1 ≤ s.operands.dlen.toNat ∧ s.operands.dlen.toNat ≤ s.lmax ∧ Limbs.read s.operands.b 0 = some 7 ∧
        ∀ i, 1 ≤ i → i < s.operands.dlen.toNat → Limbs.read s.operands.b i = some 0 := by
  refine ⟨inv_divState (by decide) (by decide), inv_issue (inv_divState (by decide) (by decide)) rfl, rfl, rfl, by decide,
    by decide, fun s hs => ?_⟩
  simp only [List.mem_cons, List.not_mem_nil, or_false] at hs
  rcases hs with rfl | rfl
  · refine ⟨by decide, by decide, by decide, by decide, by decide, fun i h1 h2 => ?_⟩
    have h2 : i < 1 := h2
    omega
  · refine ⟨by decide, by decide, by decide, by decide, by decide, fun i h1 h2 => ?_⟩
    have h2 : i < 8 := h2
    interval_cases i <;> rfl

/-! ### EST3X2 -/

/-- EV10 passes the check; EV11 and EV12 fail it on each condition. -/
theorem witness_Est3x2Result :
    ∀ c ∈ [([0, 0, 0x7FFFFFFFFFFFFFFF], [0xFFFFFFFFFFFFFFFE, 0x8000000000000000]), ([0, 0, 1], [0, 0x7FFFFFFFFFFFFFFF]),
        ([0, 0xB, 0x8000000000000000], [0xA, 0x8000000000000000])],
      Limbs.Written (divState 0 0 c.1 c.2).operands.a 3 ∧ Limbs.Written (divState 0 0 c.1 c.2).operands.b 2 := by decide

/-- EV1, EV2 and the equal window EV4. -/
theorem witness_Est3x2SpecialBranch :
    ∀ c ∈ [(9, 10), (0, 0xFFFFFFFFFFFFFFFF), (10, 10)],
      let s := divState 0 0 [0, c.1, 0x8000000000000000] [c.2, 0x8000000000000000]
      Limbs.read s.operands.a 0 = some 0 ∧ Limbs.read s.operands.a 1 = some (Word.ofNat c.1) ∧
        Limbs.read s.operands.a 2 = some 0x8000000000000000 ∧ Limbs.read s.operands.b 0 = some (Word.ofNat c.2) ∧
        Limbs.read s.operands.b 1 = some 0x8000000000000000 ∧ 2 ^ 63 ≤ (0x8000000000000000 : Word).toNat ∧
        (Word.ofNat c.1).toNat ≤ (Word.ofNat c.2).toNat := by decide

/-- The residual of EV1 is at most D2, that of EV2 is not. -/
theorem witness_Est3x2SpecialBranch_residual :
    (10 * 2 ^ 64 : Int) - (9 * 2 ^ 64 + 0) ≤ 0x8000000000000000 * 2 ^ 64 + 10 ∧
      ¬ (0xFFFFFFFFFFFFFFFF * 2 ^ 64 : Int) - (0 * 2 ^ 64 + 0) ≤ 0x8000000000000000 * 2 ^ 64 + 0xFFFFFFFFFFFFFFFF := by decide

theorem witness_EstAndOutboundFrame :
    (∃ t, exec .est3x2 (divState 0 0 [0, 0, 1] [0, 0x7FFFFFFFFFFFFFFF]) = .next t ∧ t.status.err ≠ .none) ∧
      (∃ t, exec .u2f64 (outState 0 []) = .next t) ∧ ∃ t, exec .u2f32 (outState 64 [1]) = .next t :=
  ⟨⟨_, rfl, by decide⟩, ⟨_, rfl⟩, ⟨_, rfl⟩⟩

/-! ### The conversions -/

/-- FX1, UX3. -/
theorem witness_ConversionWidthCheck :
    ∀ i ∈ [Instr.f2u64Try, .f2u64Sat, .f2u64Wrap, .f2u32Try, .f2u32Sat, .f2u32Wrap, .u2f64, .u2f32],
      i ≠ .div ∧ i ≠ .est3x2 ∧
        64 * (inState 0x7FF8000000000000 513).lmax < (inState 0x7FF8000000000000 513).operands.bits.toNat := by
  decide

/-- BITS = 0 and BITS = 64·LMAX. -/
theorem width_bounds :
    (inState 1 0).operands.bits.toNat ≤ 64 * (inState 1 0).lmax ∧
      (inState 1 512).operands.bits.toNat ≤ 64 * (inState 1 512).lmax := by decide

theorem witness_InboundTryResult :
    (Instr.f2u64Try, binary64, (inState 1 512).operands.fin.toNat) ∈
      [(Instr.f2u64Try, binary64, (inState 1 512).operands.fin.toNat),
        (Instr.f2u32Try, binary32, ((inState 1 512).operands.fin.extractLsb' 0 32).toNat)] ∧
    (inState 1 512).operands.bits.toNat ≤ 64 * (inState 1 512).lmax ∧
    (inState 1 0).operands.bits.toNat ≤ 64 * (inState 1 0).lmax :=
  ⟨.head _, width_bounds.2, width_bounds.1⟩

theorem witness_InboundSatResult :
    (Instr.f2u32Sat, binary32, ((inState 1 512).operands.fin.extractLsb' 0 32).toNat) ∈
      [(Instr.f2u64Sat, binary64, (inState 1 512).operands.fin.toNat),
        (Instr.f2u32Sat, binary32, ((inState 1 512).operands.fin.extractLsb' 0 32).toNat)] ∧
    (inState 1 512).operands.bits.toNat ≤ 64 * (inState 1 512).lmax :=
  ⟨.tail _ (.head _), width_bounds.2⟩

theorem witness_InboundWrapResult :
    (Instr.f2u64Wrap, binary64, (inState 1 0).operands.fin.toNat) ∈
      [(Instr.f2u64Wrap, binary64, (inState 1 0).operands.fin.toNat),
        (Instr.f2u32Wrap, binary32, ((inState 1 0).operands.fin.extractLsb' 0 32).toNat)] ∧
    (inState 1 0).operands.bits.toNat ≤ 64 * (inState 1 0).lmax :=
  ⟨.head _, width_bounds.1⟩

/-- The class of each arm of the policies' results, for both formats and both signs. -/
theorem witness_Inbound_classes :
    binary64.classOf 0x7FF8000000000000 = .nan ∧ binary64.classOf 0x7FF0000000000000 = .infinity ∧
      binary64.classOf 0x8000000000000000 = .zero ∧ binary64.classOf 1 = .subnormal ∧
      binary64.classOf 0x3FF0000000000000 = .normal ∧ binary64.sign 0xBFF0000000000000 = true ∧
      binary32.classOf 0x7FC00000 = .nan ∧ binary32.classOf 0xFF800000 = .infinity ∧ binary32.classOf 0x80000000 = .zero ∧
      binary32.classOf 1 = .subnormal ∧ binary32.classOf 0xC0200000 = .normal ∧ binary32.sign 0xC0200000 = true := by decide

theorem magnitude_one : binary32.magnitude 0x3F800000 = 1 ∧ binary64.magnitude 0x3FF0000000000000 = 1 := by
  have h1 : binary32.mantissa 0x3F800000 = 2 ^ 23 ∧ binary32.scale 0x3F800000 = -23 := by decide
  have h2 : binary64.mantissa 0x3FF0000000000000 = 2 ^ 52 ∧ binary64.scale 0x3FF0000000000000 = -52 := by decide
  simp only [Format.magnitude, h1, h2]
  norm_num

/-- NaNs; infinities of one sign; 1.0f and 1.0. -/
theorem witness_Binary32AgreesWithBinary64 :
    (binary32.classOf 0x7FC00000 = .nan ∧ binary64.classOf 0xFFF8000000000000 = .nan) ∧
    (binary32.classOf 0xFF800000 = .infinity ∧ binary64.classOf 0xFFF0000000000000 = .infinity ∧
      binary32.sign 0xFF800000 = binary64.sign 0xFFF0000000000000) ∧
    (binary32.finite 0x3F800000 ∧ binary64.finite 0x3FF0000000000000 ∧
      binary32.sign 0x3F800000 = binary64.sign 0x3FF0000000000000 ∧
      binary32.magnitude 0x3F800000 = binary64.magnitude 0x3FF0000000000000) :=
  ⟨by decide, by decide, by unfold Format.finite; decide, by unfold Format.finite; decide, by decide,
    by rw [magnitude_one.1, magnitude_one.2]⟩

/-- FV29, with BITS = 128 and two limbs written. -/
theorem witness_InboundResultIsCanonical_InboundFrame :
    ∃ t, Instr.f2u64Wrap.opcode = .f2u64 ∧
      (inState 0xC3F0000000000000 128).operands.bits.toNat ≤ 64 * (inState 0xC3F0000000000000 128).lmax ∧
      exec .f2u64Wrap (inState 0xC3F0000000000000 128) = .next t := ⟨_, rfl, by decide, rfl⟩

/-- BITS = 0 with no limb written, and the largest operand below 2^65. -/
theorem witness_OutboundResult :
    (∀ c ∈ [(outState 0 [], 0), (outState 65 [0xFFFFFFFFFFFFFFFF, 1], 2)],
      limbCount c.1.operands.bits.toNat = c.2 ∧ c.1.operands.bits.toNat ≤ 64 * c.1.lmax ∧ Limbs.Written c.1.operands.a c.2 ∧
        Limbs.val c.1.operands.a c.2 < 2 ^ c.1.operands.bits.toNat) ∧
    (Instr.u2f64, binary64) ∈ [(Instr.u2f64, binary64), (Instr.u2f32, binary32)] ∧
    (Instr.u2f32, binary32) ∈ [(Instr.u2f64, binary64), (Instr.u2f32, binary32)] :=
  ⟨by decide, .head _, .tail _ (.head _)⟩

/-- UX1, and 2^65 with BITS = 65. -/
theorem witness_OutboundRefusesNonCanonical :
    ∀ c ∈ [(outState 63 [0x8000000000000000], 1), (outState 65 [0, 2], 2)],
      limbCount c.1.operands.bits.toNat = c.2 ∧ c.1.operands.bits.toNat ≤ 64 * c.1.lmax ∧ Limbs.Written c.1.operands.a c.2 ∧
        2 ^ c.1.operands.bits.toNat ≤ Limbs.val c.1.operands.a c.2 := by decide

/-- Both formats, and X = 1 for the last clause. -/
theorem witness_OutboundPatternClass :
    (binary64, 64) ∈ [(binary64, 64), (binary32, 32)] ∧ (binary32, 32) ∈ [(binary64, 64), (binary32, 32)] ∧ (1 : Nat) ≠ 0 := by
  decide

theorem witness_OutboundValueIsTheRoundedWindow :
    binary32 ∈ [binary64, binary32] ∧ (2 ^ 24 + 1 : Nat) ≠ 0 ∧ convertOutbound binary32 (2 ^ 24 + 1) ≠ binary32.infinity := by
  decide

/-- The threshold itself and one below it, in binary32. -/
theorem witness_OutboundOverflowThreshold :
    convertOutbound binary32 (2 ^ 128 - 2 ^ 103) = binary32.infinity ∧
      convertOutbound binary32 (2 ^ 128 - 2 ^ 103 - 1) ≠ binary32.infinity := by decide

/-- The largest X below 2^64, against 1.0; and a tie, 2^24 + 1, against the pattern above. -/
theorem witness_OutboundNarrowIsCorrectlyRounded :
    binary32 ∈ [binary64, binary32] ∧ 2 ^ 64 - 1 < 2 ^ 64 ∧ binary32.finite 0x3F800000 ∧ binary32.finite 0x4B800001 :=
  ⟨by decide, by decide, by unfold Format.finite; decide, by unfold Format.finite; decide⟩

/-! ### The register map and the unwritten limbs -/

/-- The last limb of LMAX = 8, and the first and last offset of each range the map gives nothing. -/
theorem witness_RegisterMapInNumerals :
    7 < params8.lmax ∧
      ∀ off ∈ [0x60, 0xFFFF, 0x10040, 0x1FFFF, 0x20040, 0x2FFFF, 0x30000, 0x3FFFF],
        (0x00060 ≤ off ∧ off ≤ 0x0FFFF) ∨ (0x10000 + 8 * params8.lmax ≤ off ∧ off ≤ 0x1FFFF) ∨
          (0x20000 + 8 * params8.lmax ≤ off ∧ off ≤ 0x2FFFF) ∨ (0x30000 ≤ off ∧ off ≤ 0x3FFFF) := by decide

/-- DIV: an unwritten limb of B; of A with m = 1; the guard limb, and another limb below a zero guard, with m = 2. -/
theorem witness_ReadingAnUnwrittenLimbFaults_div :
    (∀ s ∈ [divState 1 2 [5] [9], divState 2 1 [5] [9], divState 4 2 [1, 2, 3] [1, 1],
        { divState 4 2 [] [1, 1] with a := [(0, 1), (3, 0)] }],
      s.operands.nlen.toNat ≤ s.lmax ∧ s.operands.dlen.toNat ≤ s.lmax) ∧
    ¬ Limbs.Written (divState 1 2 [5] [9]).operands.b 2 ∧
    (Limbs.Written (limbs [9]) 1 ∧ IsEffLength (Limbs.values (limbs [9]) 1) 1 ∧ ¬ Limbs.Written (limbs [5]) 2) ∧
    (Limbs.Written (limbs [1, 1]) 2 ∧ IsEffLength (Limbs.values (limbs [1, 1]) 2) 2 ∧ ¬ Limbs.Written (limbs [1, 2, 3]) 4 ∧
      Limbs.read (limbs [1, 2, 3]) 3 = none) ∧
    (¬ Limbs.Written [(0, 1), (3, 0)] 4 ∧ Limbs.read [(0, 1), (3, 0)] 3 = some 0) :=
  ⟨by decide, by decide, ⟨by decide, (isEffLength_iff _ _).2 (by decide), by decide⟩,
    ⟨by decide, (isEffLength_iff _ _).2 (by decide), by decide, by decide⟩, by decide, by decide⟩

/-- EST3X2: B[1] unwritten; A[2], A[1] and B[0] unwritten in turn; A[0] unwritten with the check passed. -/
theorem witness_ReadingAnUnwrittenLimbFaults_est :
    Limbs.read (limbs [5]) 1 = none ∧ Limbs.read (limbs [5, 0x8000000000000000]) 1 = some 0x8000000000000000 ∧
      2 ^ 63 ≤ (0x8000000000000000 : Word).toNat ∧ Limbs.read (limbs [1, 2]) 2 = none ∧ Limbs.read [(0, 1), (2, 3)] 1 = none ∧
      Limbs.read [(1, 0x8000000000000000)] 0 = none ∧
      (Limbs.read [(1, 2), (2, 3)] 2 = some 3 ∧ Limbs.read [(1, 2), (2, 3)] 1 = some 2 ∧
        Limbs.read (limbs [5, 0x8000000000000000]) 0 = some 5 ∧ Limbs.read [(1, 2), (2, 3)] 0 = none ∧
        (3 : Word).toNat * 2 ^ 64 + (2 : Word).toNat ≤ (0x8000000000000000 : Word).toNat * 2 ^ 64 + (5 : Word).toNat) := by decide

/-- U2F: BITS = 65, 1 and 64·LMAX with A[L-1] unwritten; and BITS = 65 with A[1] canonical and A[0] unwritten. -/
theorem witness_ReadingAnUnwrittenLimbFaults_u2f :
    (∀ s ∈ [outState 65 [7], outState 1 [], outState 512 [1]],
      1 ≤ s.operands.bits.toNat ∧ s.operands.bits.toNat ≤ 64 * s.lmax ∧
        Limbs.read s.operands.a (limbCount s.operands.bits.toNat - 1) = none) ∧
    Limbs.read [(1, 1)] (limbCount 65 - 1) = some 1 ∧ (1 : Word).toNat < 2 ^ (65 - 64 * (limbCount 65 - 1)) ∧
      ¬ Limbs.Written [(1, 1)] (limbCount 65) := by decide

end Sys2Proof.Tests
end

section
/-! # What a step can do

Everything a step that answers a next state does to the block, as one case distinction (`step_effect`): the moves of the host
that leave the block alone, the two moves on the reset input, a legal write, and a completion. The obligations about STATUS, IRQ,
the result registers, the parameters and the invariant are case analyses over it. -/

namespace Sys2Proof.Machine

/-- t differs from s in what does not belong to the block alone: the host's program, the turns, the data returned, the count of
draws. -/
def SameBlock (s t : State) : Prop :=
  ∃ ops ts d n, t = { s with hostOps := ops, turns := ts, rdata := d, draws := n }

theorem SameBlock.refl (s : State) : SameBlock s s := ⟨_, _, _, _, rfl⟩

theorem SameBlock.trans {s t u : State} (h : SameBlock s t) (h' : SameBlock t u) : SameBlock s u := by
  obtain ⟨_, _, _, _, rfl⟩ := h
  obtain ⟨_, _, _, _, rfl⟩ := h'
  exact ⟨_, _, _, _, rfl⟩

section Fields
variable {s t : State} (h : SameBlock s t)
include h

theorem SameBlock.params : t.params = s.params := by
  obtain ⟨_, _, _, _, rfl⟩ := h
  rfl

theorem SameBlock.lmax : t.lmax = s.lmax := congrArg Params.lmax h.params

theorem SameBlock.rst : t.rst = s.rst := by
  obtain ⟨_, _, _, _, rfl⟩ := h
  rfl

theorem SameBlock.ie : t.ie = s.ie := by
  obtain ⟨_, _, _, _, rfl⟩ := h
  rfl

theorem SameBlock.status : t.status = s.status := by
  obtain ⟨_, _, _, _, rfl⟩ := h
  rfl

theorem SameBlock.irq : t.irq = s.irq := by simp only [State.irq, h.ie, h.status]

theorem SameBlock.live : t.live = s.live := by
  obtain ⟨_, _, _, _, rfl⟩ := h
  rfl

theorem SameBlock.buffer (buf : Buffer) : t.buffer buf = s.buffer buf := by
  obtain ⟨_, _, _, _, rfl⟩ := h
  cases buf <;> rfl

theorem SameBlock.results : t.fres = s.fres ∧ t.deff = s.deff ∧ t.est = s.est ∧ t.ewidth = s.ewidth := by
  obtain ⟨_, _, _, _, rfl⟩ := h
  exact ⟨rfl, rfl, rfl, rfl⟩

theorem SameBlock.regValue (r : Reg) : regValue t r = regValue s r := by
  obtain ⟨_, _, _, _, rfl⟩ := h
  cases r with
  | limb buf _ => cases buf <;> rfl
  | _ => rfl

end Fields

theorem sameBlock_setTurns (s : State) (ts : List Agent) : SameBlock s (s.setTurns ts) := ⟨_, _, _, _, rfl⟩

theorem sameBlock_setHostOps (s : State) (ops : List HostOp) : SameBlock s (s.setHostOps ops) := ⟨_, _, _, _, rfl⟩

theorem sameBlock_noReply (s : State) : SameBlock s s.noReply := ⟨_, _, _, _, rfl⟩

theorem sameBlock_reply (s : State) (v : Word) : SameBlock s (s.reply v) := ⟨_, _, _, _, rfl⟩

theorem sameBlock_pollIrq (s : State) (rest : List HostOp) : SameBlock s (pollIrq s rest) := by
  unfold pollIrq
  split
  · exact sameBlock_setHostOps s rest
  · exact .refl s

theorem sameBlock_pollStatus (s : State) (rest : List HostOp) : SameBlock s (pollStatus s rest) := by
  unfold pollStatus
  split
  · exact sameBlock_reply s _
  · exact (sameBlock_reply s _).trans (sameBlock_setHostOps _ rest)

theorem sameBlock_of_hostRead {s t : State} {r : Reg} (h : hostRead s r = .next t) : SameBlock s t := by
  obtain ⟨d, n, rfl⟩ := hostRead_next h
  exact ⟨_, _, d, n, rfl⟩

theorem sameBlock_of_turn {s s1 : State} (h : s1 = s ∨ ∃ ts, s1 = s.setTurns ts) : SameBlock s s1 := by
  obtain rfl | ⟨ts, rfl⟩ := h
  · exact .refl s1
  · exact sameBlock_setTurns s ts

/-- The state a host's transaction runs on is s with the transaction and the turn consumed. -/
theorem sameBlock_of_hostTurn {s s0 : State} {op : HostOp} (h : s.hostTurn op s0) : SameBlock s s0 := by
  obtain ⟨s1, hs, _, h0, _⟩ := hostTurn_step h
  rw [h0]
  exact (sameBlock_of_turn hs).trans (sameBlock_setHostOps s1 _)

/-- The state a completion runs on is s with the turn consumed. -/
theorem sameBlock_of_blockTurn {s s0 : State} {f : InFlight} (h : s.blockTurn f s0) : SameBlock s s0 := by
  obtain ⟨_, ⟨_, rfl⟩ | ⟨ts, _, rfl⟩⟩ := h
  · exact .refl s0
  · exact sameBlock_setTurns s ts

/-! ## Host writes (10_state.md R24 to R38, 70_reset_and_hazards.md R241) -/

@[simp] theorem unlessBusy_idle {s : State} (h : s.status.busy = false) (stored : State) : unlessBusy s stored = stored := by
  simp [unlessBusy, h]

@[simp] theorem unlessBusy_busy {s : State} (h : s.status.busy = true) (stored : State) : unlessBusy s stored = s.drop := by
  simp [unlessBusy, h]

/-- The registers and limbs a write to which is dropped while BUSY = 1 (R241). -/
def Reg.DroppedWhileBusy (r : Reg) : Prop :=
  r = .cmd ∨ r = .nlen ∨ r = .dlen ∨ r = .bits ∨ r = .fin ∨ ∃ buf i, r = .limb buf i

/-- While BUSY = 1 a write to CMD, an operand register or a limb sets WERR and does nothing else (R241). -/
theorem hostWrite_dropped {s : State} {r : Reg} (h : s.status.busy = true) (hr : r.DroppedWhileBusy) (v : Word) :
    hostWrite s r v = s.drop := by
  rcases hr with rfl | rfl | rfl | rfl | rfl | ⟨buf, i, rfl⟩ <;> exact unlessBusy_busy h _

/-- What a host write of v leaves, by the register it reaches. -/
inductive HostWritten (s : State) (v : Word) : Reg → State → Prop where
  | ctrl : HostWritten s v .ctrl { s with ie := v.getLsbD 0 }
  | status : HostWritten s v .status (s.acknowledge v)
  | issued : s.status.busy = false → HostWritten s v .cmd (s.issue v)
  | nlen : s.status.busy = false → HostWritten s v .nlen { s with nlen := v.setWidth 16 }
  | dlen : s.status.busy = false → HostWritten s v .dlen { s with dlen := v.setWidth 16 }
  | bits : s.status.busy = false → HostWritten s v .bits { s with bits := v.setWidth 32 }
  | fin : s.status.busy = false → HostWritten s v .fin { s with fin := v }
  | limb (buf : Buffer) (i : Nat) : s.status.busy = false → HostWritten s v (.limb buf i) (s.setLimb buf i v)
  | dropped (r : Reg) : s.status.busy = true → r.DroppedWhileBusy → HostWritten s v r s.drop
  | ignored (r : Reg) : r ∈ [Reg.cap, .fres, .deff, .ewidth, .est] → HostWritten s v r s

/-- Everything a host write can do. -/
theorem hostWrite_written (s : State) (r : Reg) (v : Word) : HostWritten s v r (hostWrite s r v) := by
  cases hb : s.status.busy with
  | true =>
    have drops (hr : r.DroppedWhileBusy) : HostWritten s v r (hostWrite s r v) := by
      rw [hostWrite_dropped hb hr]
      exact .dropped r hb hr
    cases r with
    | ctrl => exact .ctrl
    | status => exact .status
    | cap | fres | deff | ewidth | est => exact .ignored _ (by simp)
    | cmd | nlen | dlen | bits | fin | limb => exact drops (by simp [Reg.DroppedWhileBusy])
  | false =>
    cases r with
    | ctrl => exact .ctrl
    | status => exact .status
    | cap | fres | deff | ewidth | est => exact .ignored _ (by simp)
    | cmd => simpa [hostWrite, hb] using HostWritten.issued hb
    | nlen => simpa [hostWrite, hb] using HostWritten.nlen hb
    | dlen => simpa [hostWrite, hb] using HostWritten.dlen hb
    | bits => simpa [hostWrite, hb] using HostWritten.bits hb
    | fin => simpa [hostWrite, hb] using HostWritten.fin hb
    | limb buf i => simpa [hostWrite, hb] using HostWritten.limb buf i hb

/-! ## Completions (10_state.md R34 to R37, R42) -/

/-- A word in flight that decodes to a command completes as that command (R42). -/
theorem complete_of_decode {f : InFlight} {i : Instr} (h : decode f.word = .ok i) (s : State) : complete f s = exec i s := by
  simp [complete, h]

/-- What a completion of f leaves: STATUS and INFLIGHT alone, or the results of the command f decodes to, with the bounds its
checks give. -/
inductive Completed (f : InFlight) (s : State) : State → Prop where
  | statusOnly (c : ErrCode) : Completed f s (s.finish c)
  | div (as bs : List Nat) : decode f.word = .ok .div → as.length ≤ s.lmax → bs.length ≤ s.lmax →
      Completed f s (s.finishDiv as bs bs.length)
  | est3x2 (q : Nat) : decode f.word = .ok .est3x2 → Completed f s ((s.setEst q).finish .none)
  | inbound (i : Instr) (width : Nat) (r : Projected) : decode f.word = .ok i → (i.opcode = .f2u64 ∨ i.opcode = .f2u32) →
      width ≤ 64 * s.lmax → r.ewidth ≤ width → Completed f s (s.finishInbound width r)
  | outbound (x : Nat) : decode f.word = .ok .u2f64 ∨ decode f.word = .ok .u2f32 →
      Completed f s ((s.setFres x).finish .none)

theorem Instr.eq_u2f_of_opcode {i : Instr} (h : i.opcode = .u2f64 ∨ i.opcode = .u2f32) : i = .u2f64 ∨ i = .u2f32 := by
  cases i <;> simp_all [Instr.opcode]

/-- Everything a completion that answers a next state can do. -/
theorem complete_completed {f : InFlight} {s t : State} (h : complete f s = .next t) : Completed f s t := by
  rcases complete_cases f s with ⟨i, hd, hi⟩ | ⟨e, _, he⟩
  · rw [hi] at h
    rcases exec_cases i s with ⟨c, _, he⟩ | ⟨rfl, as, bs, m, he, ha, rfl, _, hm, hn, hl⟩ | ⟨rfl, q, he⟩ |
      ⟨hop, hw, r, he, _, hew, _⟩ | ⟨hop, x, he⟩ | ⟨buf, j, he, _⟩ <;> rw [he] at h <;> cases h
    · exact .statusOnly c
    · exact .div as bs hd (ha ▸ hn) (hm.trans hl)
    · exact .est3x2 q hd
    · exact .inbound i _ r hd hop hw (by omega)
    · exact .outbound x (by rcases Instr.eq_u2f_of_opcode hop with rfl | rfl <;> simp [hd])
  · rw [he] at h
    cases h
    exact .statusOnly _

/-! ## The step -/

/-- What a step does to the block. -/
inductive StepEffect (s : State) : State → Prop where
  | unchanged (t : State) : SameBlock s t → StepEffect s t
  | assertReset (s0 : State) : s.hostTurn .assertReset s0 → StepEffect s s0.assertReset
  | releaseReset (s0 : State) : s.hostTurn .releaseReset s0 → StepEffect s s0.releaseReset
  | write (r : Reg) (v : Word) (s0 t : State) : s.rst = false → r.mapped s.lmax → s.hostTurn (wrReg s.params r v) s0 →
      HostWritten s0 v r t → StepEffect s t
  | complete (f : InFlight) (s0 t : State) : s.blockTurn f s0 → Completed f s0 t → StepEffect s t

/-- Everything a step that answers a next state can do to the block. -/
theorem step_effect {s t : State} (h : step s = .next t) : StepEffect s t := by
  rcases step_next h with ⟨ts, rfl⟩ | ⟨op, rest, s1, hs, ht, hm⟩ | ⟨f, s0, ht, _, hc⟩
  · exact .unchanged _ (sameBlock_setTurns s ts)
  · have h1 := sameBlock_of_turn hs
    have h0 := sameBlock_of_hostTurn ht
    cases hm with
    | ignoredRead | ignoredWait => exact .unchanged _ (h0.trans (sameBlock_noReply _))
    | ignoredWrite => exact .unchanged _ h0
    | waitIrq => exact .unchanged _ (h1.trans (sameBlock_pollIrq s1 rest))
    | wait => exact .unchanged _ (h1.trans (sameBlock_pollStatus s1 rest))
    | assertReset => exact .assertReset _ ht
    | releaseReset => exact .releaseReset _ ht
    | read r t _ _ hr => exact .unchanged _ (h0.trans (sameBlock_of_hostRead hr))
    | write r v hr hmap =>
      obtain ⟨_, _, _, _, rfl⟩ := h1
      exact .write r v _ _ hr hmap ht (hostWrite_written _ r v)
  · exact .complete f s0 t ht (complete_completed hc)

end Sys2Proof.Machine
end

section
/-! # The invariant of the machine (10_state.md R40, 70_reset_and_hazards.md R230, R241, R242) -/

namespace Sys2Proof.Machine

/-- The invariant speaks of the block alone. -/
theorem State.Inv.sameBlock {s t : State} (h : s.Inv) (hs : SameBlock s t) : t.Inv := by
  obtain ⟨_, _, _, _, rfl⟩ := hs
  exact ⟨h.a_wf, h.b_wf, h.busy_iff, h.snapshot, h.busy_clear, h.deff_le, h.ewidth_le, h.held⟩

/-- With nothing in flight and reset released, the invariant is the form of the buffers and the two bounds. -/
theorem State.Inv.of_idle {s : State} (hbusy : s.status.busy = false) (hf : s.inflight = none) (hrst : s.rst = false)
    (ha : Limbs.wf s.a s.lmax) (hb : Limbs.wf s.b s.lmax) (hd : s.deff.toNat ≤ s.lmax) (hw : s.ewidth.toNat ≤ 64 * s.lmax) :
    s.Inv where
  a_wf := ha
  b_wf := hb
  busy_iff := by simp [hbusy, hf]
  snapshot := by simp [hf]
  busy_clear := by simp [hbusy]
  deff_le := hd
  ewidth_le := hw
  held := by simp [hrst]

theorem State.Inv.inflight_of_idle {s : State} (h : s.Inv) (hbusy : s.status.busy = false) : s.inflight = none := by
  simpa [hbusy] using h.busy_iff

/-- While a command is in flight reset is released: held reset leaves nothing in flight (R230). -/
theorem State.Inv.rst_of_inflight {s : State} {f : InFlight} (h : s.Inv) (hf : s.inflight = some f) : s.rst = false := by
  by_contra hr
  obtain ⟨hnone, _⟩ := h.held (by simpa using hr)
  simp [hf] at hnone

/-- The reset values meet the invariant, whether the reset input is still asserted or not (R230). -/
theorem State.heldInReset.inv {s : State} (h : s.heldInReset) : s.Inv := by
  have held := h
  obtain ⟨hf, _, hst, _, _, _, _, _, hd, hw, _, ha, hb⟩ := h
  exact
    { a_wf := ha ▸ Limbs.wf_nil _
      b_wf := hb ▸ Limbs.wf_nil _
      busy_iff := by simp [hst, hf, Status.reset]
      snapshot := by simp [hf]
      busy_clear := by simp [hst, Status.reset]
      deff_le := by simp [hd]
      ewidth_le := by simp [hw]
      held := fun _ => held }

theorem assertReset_heldInReset (s : State) : s.assertReset.heldInReset := by simp [State.heldInReset]

theorem resetWith_heldInReset (p : Params) : (State.resetWith p).heldInReset := by simp [State.heldInReset, State.resetWith]

theorem State.Inv.releaseReset {s : State} (h : s.Inv) : s.releaseReset.Inv :=
  ⟨h.a_wf, h.b_wf, h.busy_iff, h.snapshot, h.busy_clear, h.deff_le, h.ewidth_le, by simp⟩

/-- A host write keeps the invariant: while BUSY = 1 it cannot reach the operands, so the snapshot stays equal to them (R242). -/
theorem State.Inv.hostWritten {s t : State} {r : Reg} {v : Word} (h : s.Inv) (hrst : s.rst = false) (hm : r.mapped s.lmax)
    (hw : HostWritten s v r t) : t.Inv := by
  cases hw with
  | ctrl => exact ⟨h.a_wf, h.b_wf, h.busy_iff, h.snapshot, h.busy_clear, h.deff_le, h.ewidth_le, by simp [hrst]⟩
  | status =>
    have clear : s.status.busy = true → (s.status.acknowledged v).done = false ∧ (s.status.acknowledged v).err = .none :=
      fun hb => by simp [h.busy_clear hb]
    exact ⟨h.a_wf, h.b_wf, h.busy_iff, h.snapshot, clear, h.deff_le, h.ewidth_le, by simp [hrst]⟩
  | issued =>
    exact ⟨h.a_wf, h.b_wf, by simp, by simp, by simp, h.deff_le, h.ewidth_le, by simp [hrst]⟩
  | nlen hb | dlen hb | bits hb | fin hb =>
    exact .of_idle hb (h.inflight_of_idle hb) hrst h.a_wf h.b_wf h.deff_le h.ewidth_le
  | limb buf i hb =>
    cases buf with
    | a => exact .of_idle hb (h.inflight_of_idle hb) hrst (Limbs.wf_write v h.a_wf hm) h.b_wf h.deff_le h.ewidth_le
    | b => exact .of_idle hb (h.inflight_of_idle hb) hrst h.a_wf (Limbs.wf_write v h.b_wf hm) h.deff_le h.ewidth_le
  | dropped => exact ⟨h.a_wf, h.b_wf, h.busy_iff, h.snapshot, h.busy_clear, h.deff_le, h.ewidth_le, by simp [hrst]⟩
  | ignored => exact h

/-- A run of limbs written from index 0 that fits in the buffer keeps its form. -/
theorem Limbs.wf_writeFrom_zero {l : Limbs} {n : Nat} (h : Limbs.wf l n) (vs : List Nat) (hv : vs.length ≤ n) :
    Limbs.wf (Limbs.writeFrom l 0 (vs.map Word.ofNat)) n :=
  Limbs.wf_writeFrom _ h (by simpa using hv)

theorem toNat_ofNat_le (k n : Nat) : (BitVec.ofNat k n).toNat ≤ n := by
  rw [BitVec.toNat_ofNat]
  exact Nat.mod_le _ _

/-- A completion keeps the invariant: what it writes fits in the buffers, DEFF and EWIDTH by the checks of its command. -/
theorem State.Inv.completed {s t : State} {f : InFlight} (h : s.Inv) (hrst : s.rst = false) (hc : Completed f s t) : t.Inv := by
  cases hc with
  | statusOnly c => exact .of_idle rfl rfl hrst h.a_wf h.b_wf h.deff_le h.ewidth_le
  | div as bs _ ha hb =>
    exact .of_idle rfl rfl hrst (Limbs.wf_writeFrom_zero h.a_wf as ha) (Limbs.wf_writeFrom_zero h.b_wf bs hb)
      ((toNat_ofNat_le 16 _).trans hb) h.ewidth_le
  | est3x2 q _ => exact .of_idle rfl rfl hrst h.a_wf h.b_wf h.deff_le h.ewidth_le
  | inbound i width r _ _ hwidth hew =>
    have hlimbs : (toLimbs (limbCount width) r.value).length ≤ s.lmax := by
      rw [length_toLimbs]
      exact limbCount_le hwidth
    exact .of_idle rfl rfl hrst (Limbs.wf_writeFrom_zero h.a_wf _ hlimbs) h.b_wf h.deff_le
      ((toNat_ofNat_le 32 _).trans (hew.trans hwidth))
  | outbound x _ => exact .of_idle rfl rfl hrst h.a_wf h.b_wf h.deff_le h.ewidth_le

/-- Settles O10: the invariant is kept by each effect a step can have. -/
theorem everyStepKeepsTheInvariant : Obligations.EveryStepKeepsTheInvariant := by
  intro s t h hstep
  cases step_effect hstep with
  | unchanged _ hs => exact h.sameBlock hs
  | assertReset s0 _ => exact (assertReset_heldInReset s0).inv
  | releaseReset s0 ht => exact (h.sameBlock (sameBlock_of_hostTurn ht)).releaseReset
  | write r v s0 _ hrst hm ht hw =>
    have hs := sameBlock_of_hostTurn ht
    exact (h.sameBlock hs).hostWritten (hs.rst.trans hrst) (hs.lmax ▸ hm) hw
  | complete f s0 _ ht hc =>
    have hs := sameBlock_of_blockTurn ht
    obtain ⟨hf, _⟩ := ht
    exact (h.sameBlock hs).completed (hs.rst.trans (h.rst_of_inflight hf)) hc

/-- Settles O9: the reset values meet the invariant. -/
theorem invariantHoldsAtReset : Obligations.InvariantHoldsAtReset :=
  ⟨(resetWith_heldInReset _).inv, fun p => (resetWith_heldInReset p).inv⟩

end Sys2Proof.Machine
end

section
/-! # STATUS, IRQ, the result registers and the parameters (10_state.md R20, R24, R34 to R37, R41) -/

namespace Sys2Proof.Machine

theorem HostWritten.params_eq {s t : State} {r : Reg} {v : Word} (h : HostWritten s v r t) : t.params = s.params := by
  cases h <;> simp

/-- A host write to a result register is ignored (10_state.md R34 to R37). -/
theorem HostWritten.results_eq {s t : State} {r : Reg} {v : Word} (h : HostWritten s v r t) :
    t.fres = s.fres ∧ t.deff = s.deff ∧ t.est = s.est ∧ t.ewidth = s.ewidth := by
  cases h <;> simp

theorem Completed.params_eq {f : InFlight} {s t : State} (h : Completed f s t) : t.params = s.params := by
  cases h <;> rfl

/-- Settles O11: no effect of a step touches LMAX or BASE. -/
theorem noStepChangesTheParameters : Obligations.NoStepChangesTheParameters := by
  intro s t hstep
  cases step_effect hstep with
  | unchanged _ hs => exact hs.params
  | assertReset s0 ht => exact (sameBlock_of_hostTurn ht).params
  | releaseReset s0 ht => exact (sameBlock_of_hostTurn ht).params
  | write r v s0 _ _ _ ht hw => exact hw.params_eq.trans (sameBlock_of_hostTurn ht).params
  | complete f s0 _ ht hc => exact hc.params_eq.trans (sameBlock_of_blockTurn ht).params

/-- Each result register is written by the completion of its own commands alone (R34 to R37). -/
theorem Completed.result_writer {f : InFlight} {s t : State} (h : Completed f s t) :
    (t.fres ≠ s.fres → decode f.word = .ok .u2f64 ∨ decode f.word = .ok .u2f32) ∧
    (t.deff ≠ s.deff → decode f.word = .ok .div) ∧
    (t.est ≠ s.est → decode f.word = .ok .est3x2) ∧
    (t.ewidth ≠ s.ewidth → ∃ i, decode f.word = .ok i ∧ (i.opcode = .f2u64 ∨ i.opcode = .f2u32)) := by
  cases h with
  | statusOnly c => simp
  | div as bs hd => simp [State.finishDiv, hd]
  | est3x2 q hd => simp [hd]
  | inbound i width r hd hop => simp [State.finishInbound, hd, hop]
  | outbound x hd => simp [hd]

/-- A step that changes a result register is reset or a completion. -/
theorem results_changed_by {s t : State} (hstep : step s = .next t) :
    (t.fres = s.fres ∧ t.deff = s.deff ∧ t.est = s.est ∧ t.ewidth = s.ewidth) ∨ (∃ s0, s.hostTurn .assertReset s0) ∨
      ∃ f s0, s.blockTurn f s0 ∧ Completed f s0 t := by
  cases step_effect hstep with
  | unchanged _ hs => exact .inl hs.results
  | assertReset s0 ht => exact .inr (.inl ⟨s0, ht⟩)
  | releaseReset s0 ht => exact .inl (sameBlock_of_hostTurn ht).results
  | write r v s0 _ _ _ ht hw =>
    obtain ⟨hfres, hdeff, hest, hewidth⟩ := (sameBlock_of_hostTurn ht).results
    simp only [← hfres, ← hdeff, ← hest, ← hewidth]
    exact .inl hw.results_eq
  | complete f s0 _ ht hc => exact .inr (.inr ⟨f, s0, ht, hc⟩)

/-- Settles O30: besides reset only a completion reaches a result register, and each command writes its own. -/
theorem resultRegistersHaveOneWriter : Obligations.ResultRegistersHaveOneWriter := by
  intro s t hstep
  rcases results_changed_by hstep with ⟨hfres, hdeff, hest, hewidth⟩ | hreset | ⟨f, s0, ht, hc⟩
  · exact ⟨fun h => absurd hfres h, fun h => absurd hdeff h, fun h => absurd hest h, fun h => absurd hewidth h⟩
  · exact ⟨fun _ => .inl hreset, fun _ => .inl hreset, fun _ => .inl hreset, fun _ => .inl hreset⟩
  · have writer := hc.result_writer
    obtain ⟨hfres, hdeff, hest, hewidth⟩ := (sameBlock_of_blockTurn ht).results
    rw [hfres, hdeff, hest, hewidth] at writer
    obtain ⟨wfres, wdeff, west, wewidth⟩ := writer
    exact ⟨fun h => .inr ⟨f, s0, ht, wfres h⟩, fun h => .inr ⟨f, s0, ht, wdeff h⟩, fun h => .inr ⟨f, s0, ht, west h⟩,
      fun h => .inr ⟨f, s0, ht, wewidth h⟩⟩

/-- A completion leaves CTRL and ends with `finish` of its code (R24). -/
theorem Completed.ie_status {f : InFlight} {s t : State} (h : Completed f s t) :
    t.ie = s.ie ∧ ∃ code, t.status = s.status.finished code := by
  cases h <;> exact ⟨rfl, _, rfl⟩

/-! ## STATUS (R24) -/

/-- The layout STATUS is read in, for each code and each value of the three flags. -/
theorem Status.toWord_layout (st : Status) :
    st.toWord.getLsbD 0 = st.busy ∧ st.toWord.getLsbD 1 = st.done ∧ st.toWord.getLsbD 2 = st.werr ∧
      st.toWord.extractLsb' 3 5 = 0 ∧ st.toWord.extractLsb' 8 8 = BitVec.ofNat 8 st.err.toNat ∧
      st.toWord.extractLsb' 16 48 = 0 := by
  obtain ⟨busy, done, werr, err⟩ := st
  cases err <;> revert busy done werr <;> decide

/-- A step at a turn of the host that asserts reset is the reset event, whether reset is asserted already or not (R230). -/
theorem step_assertReset {s s0 : State} (h : s.hostTurn .assertReset s0) : step s = .next s0.assertReset := by
  obtain ⟨s1, _, _, h0, he⟩ := hostTurn_step h
  rw [he]
  split <;> simp [ignoredTransaction, hostTransaction, ← h0]

/-- What each of the five events sets STATUS to, reset released. -/
theorem status_after_event {s t s0 : State} (v : Word) (hrst : s.rst = false) (hstep : step s = .next t) :
    (s.hostTurn (wrReg s.params .cmd v) s0 → s.status.busy = false → t.status = s.status.issued) ∧
    (∀ f, s.blockTurn f s0 → ∃ code, t.status = s.status.finished code) ∧
    (s.hostTurn (wrReg s.params .status v) s0 → t.status = s.status.acknowledged v) ∧
    (∀ r : Reg, r.DroppedWhileBusy → r.mapped s.lmax → s.hostTurn (wrReg s.params r v) s0 → s.status.busy = true →
      t.status = s.status.dropped) ∧
    (s.hostTurn .assertReset s0 → t.status = .reset) := by
  refine ⟨fun ht hb => ?_, fun f ht => ?_, fun ht => ?_, fun r hr hm ht hb => ?_, fun ht => ?_⟩
  · have hs := (sameBlock_of_hostTurn ht).status
    cases hstep.symm.trans (step_write (r := .cmd) hrst trivial ht)
    simp [hostWrite, hs, hb]
  · obtain ⟨_, hst⟩ := (complete_completed ((blockTurn_step ht).symm.trans hstep)).ie_status
    rwa [(sameBlock_of_blockTurn ht).status] at hst
  · have hs := (sameBlock_of_hostTurn ht).status
    cases hstep.symm.trans (step_write (r := .status) hrst trivial ht)
    simp [hostWrite, hs]
  · have hs := (sameBlock_of_hostTurn ht).status
    cases hstep.symm.trans (step_write hrst hm ht)
    rw [hostWrite_dropped (by rw [hs, hb]) hr, State.drop_status, hs]
  · cases hstep.symm.trans (step_assertReset ht)
    rfl

/-- A step that changes STATUS is one of the five events. -/
theorem status_changed_by {s t : State} (hstep : step s = .next t) :
    t.status = s.status ∨
    (∃ v s0, s.hostTurn (wrReg s.params .cmd v) s0 ∧ s.status.busy = false ∧ t.status = s.status.issued) ∨
    (∃ f s0 code, s.blockTurn f s0 ∧ t.status = s.status.finished code) ∨
    (∃ v s0, s.hostTurn (wrReg s.params .status v) s0 ∧ t.status = s.status.acknowledged v) ∨
    (∃ r v s0, s.hostTurn (wrReg s.params r v) s0 ∧ s.status.busy = true ∧ r.DroppedWhileBusy ∧
      t.status = s.status.dropped) ∨
    (∃ s0, s.hostTurn .assertReset s0 ∧ t.status = .reset) := by
  cases step_effect hstep with
  | unchanged _ hs => exact .inl hs.status
  | assertReset s0 ht => exact .inr (.inr (.inr (.inr (.inr ⟨s0, ht, rfl⟩))))
  | releaseReset s0 ht => exact .inl (sameBlock_of_hostTurn ht).status
  | write r v s0 _ _ _ ht hw =>
    have hs := (sameBlock_of_hostTurn ht).status
    cases hw with
    | ctrl | nlen | dlen | bits | fin | limb | ignored => exact .inl (by simp [hs])
    | status => exact .inr (.inr (.inr (.inl ⟨v, s0, ht, by simp [hs]⟩)))
    | issued hb => exact .inr (.inl ⟨v, s0, ht, hs ▸ hb, by simp [hs]⟩)
    | dropped _ hb hr => exact .inr (.inr (.inr (.inr (.inl ⟨r, v, s0, ht, hs ▸ hb, hr, by simp [hs]⟩))))
  | complete f s0 _ ht hc =>
    obtain ⟨_, code, hst⟩ := hc.ie_status
    exact .inr (.inr (.inl ⟨f, s0, code, ht, (sameBlock_of_blockTurn ht).status ▸ hst⟩))

/-- Settles O24: the layout, the codes, the value after each event, and that no other event changes STATUS. -/
theorem onlyFiveEventsChangeStatus : Obligations.OnlyFiveEventsChangeStatus := by
  refine ⟨Status.toWord_layout, ⟨rfl, rfl, rfl, rfl, rfl, rfl, rfl⟩, fun s t s0 v hrst hstep => ?_,
    fun s t hstep => status_changed_by hstep⟩
  exact status_after_event v hrst hstep

/-! ## IRQ (R41, 60_exceptions.md R216) -/

/-- What a write by which IRQ rises or falls does: to CTRL, to DONE of STATUS, or an issue. -/
theorem HostWritten.irq_changes {s t : State} {r : Reg} {v : Word} (h : HostWritten s v r t) :
    t.irq = s.irq ∨ (r = .ctrl ∧ t.irq = (v.getLsbD 0 && s.status.done)) ∨
      (r = .status ∧ t.irq = (s.irq && !v.getLsbD 1)) ∨ (r = .cmd ∧ s.status.busy = false ∧ t.irq = false) := by
  cases h with
  | ctrl => exact .inr (.inl ⟨rfl, rfl⟩)
  | status => exact .inr (.inr (.inl ⟨rfl, by simp [State.irq, Bool.and_assoc]⟩))
  | issued hb => exact .inr (.inr (.inr ⟨rfl, hb, by simp [State.irq]⟩))
  | nlen | dlen | bits | fin | limb | dropped | ignored => exact .inl (by simp [State.irq])

/-- After a completion DONE is 1, so IRQ is IE (R24, R41). -/
theorem Completed.irq_eq_ie {f : InFlight} {s t : State} (h : Completed f s t) : t.irq = s.ie := by
  obtain ⟨hie, code, hst⟩ := h.ie_status
  simp [State.irq, hie, hst]

/-- Settles O25: IRQ is CTRL.IE and STATUS.DONE, so it changes with the events that change one of the two. -/
theorem irqChangesOnlyWithDoneOrEnable : Obligations.IrqChangesOnlyWithDoneOrEnable := by
  intro s t hstep
  cases step_effect hstep with
  | unchanged _ hs =>
    have same := hs.irq
    simp_all
  | assertReset s0 ht => exact ⟨by simp [State.irq], fun _ _ => .inr (.inr (.inr ⟨s0, ht⟩))⟩
  | releaseReset s0 ht =>
    have same : s0.releaseReset.irq = s.irq := (sameBlock_of_hostTurn ht).irq
    simp_all
  | write r v s0 _ _ _ ht hw =>
    have hs := sameBlock_of_hostTurn ht
    have changes := hw.irq_changes
    rw [hs.irq, hs.status] at changes
    rcases changes with same | ⟨rfl, heq⟩ | ⟨rfl, heq⟩ | ⟨rfl, hb, hlow⟩
    · simp_all
    · rw [heq, Bool.and_eq_true]
      refine ⟨fun _ hrise => .inr ⟨v, s0, ht, hrise⟩, fun hirq hfall => .inr (.inl ⟨v, s0, ht, ?_⟩)⟩
      have hdone : s.status.done = true := (Bool.and_eq_true _ _ ▸ hirq).2
      simpa [hdone] using hfall
    · rw [heq]
      refine ⟨fun hirq hrise => by simp [hirq] at hrise, fun hirq hfall => .inl ⟨v, s0, ht, ?_⟩⟩
      simpa [hirq] using hfall
    · exact ⟨fun _ hrise => by simp [hlow] at hrise, fun _ _ => .inr (.inr (.inl ⟨v, s0, ht, hb⟩))⟩
  | complete f s0 _ ht hc =>
    have hirq : t.irq = s.ie := hc.irq_eq_ie.trans (sameBlock_of_blockTurn ht).ie
    rw [hirq]
    refine ⟨fun _ hie => .inl ⟨f, s0, ht, hie⟩, fun hs hie => ?_⟩
    simp [State.irq, hie] at hs

end Sys2Proof.Machine
end

section
/-! # The port while idle, CMD, the reset values and the register map (10_state.md R22 to R38, R44,
70_reset_and_hazards.md R232) -/

namespace Sys2Proof.Machine

/-- A read that is not one of the any-value reads of the busy period returns the register's value (R240). -/
theorem hostRead_value {s : State} {r : Reg} {v : Word} (h : s.status.busy = false ∨ r.anyWhileBusy = false)
    (hv : regValue s r = .ok v) : hostRead s r = .next { s with rdata := some (byteLanes v) } := by
  rcases h with h | h <;> simp [hostRead, h, hv, State.reply]

/-- While BUSY = 0 a read of an unwritten limb faults (R232). -/
theorem hostRead_error {s : State} {r : Reg} {f : Fault} (h : s.status.busy = false) (hv : regValue s r = .error f) :
    hostRead s r = .fault f := by
  simp [hostRead, h, hv]

/-- CTRL reads IE in bit 0 (R25). -/
theorem regValue_ctrl (s : State) : regValue s .ctrl = .ok (if s.ie then 1 else 0) := by
  cases h : s.ie <;> simp [regValue, bit, h, Word.ofNat]

/-- A limb that is written reads its value. -/
theorem regValue_limb_some {s : State} {buf : Buffer} {i : Nat} {v : Word} (h : Limbs.read (s.buffer buf) i = some v) :
    regValue s (.limb buf i) = .ok v := by
  simp [regValue, readLimb, h]

theorem regValue_limb_none {s : State} {buf : Buffer} {i : Nat} (h : Limbs.read (s.buffer buf) i = none) :
    regValue s (.limb buf i) = .error (.unwrittenLimb buf i) := by
  simp [regValue, readLimb, h]

/-- Settles O16: each register's value is what its read returns while BUSY = 0. -/
theorem idleReadReturnsTheRegister : Obligations.IdleReadReturnsTheRegister := by
  intro s s0 r hrst hb hm ht
  rw [step_read hrst hm ht]
  have hs := sameBlock_of_hostTurn ht
  have hb0 : s0.status.busy = false := hs.status ▸ hb
  have hval := hs.regValue r
  cases r with
  | ctrl => exact hostRead_value (.inl hb0) (hval.trans (regValue_ctrl s))
  | limb buf i =>
    cases hl : Limbs.read (s.buffer buf) i with
    | some v => simpa [hl] using hostRead_value (.inl hb0) (hval.trans (regValue_limb_some hl))
    | none => simpa [hl] using hostRead_error hb0 (hval.trans (regValue_limb_none hl))
  | _ => exact hostRead_value (.inl hb0) hval

/-- A write to CMD while BUSY = 0 is an issue (R27). -/
theorem hostWrite_cmd_idle {s : State} (h : s.status.busy = false) (v : Word) : hostWrite s .cmd v = s.issue v :=
  unlessBusy_idle h _

/-- Settles O18: a write while BUSY = 0 is not dropped, so each register takes its own store. -/
theorem idleWriteStores : Obligations.IdleWriteStores := by
  intro s s0 r v hrst hb hm ht
  rw [step_write hrst hm ht]
  have hs := sameBlock_of_hostTurn ht
  have hb0 : s0.status.busy = false := hs.status ▸ hb
  cases r with
  | cmd =>
    rw [hostWrite_cmd_idle hb0, State.issue, Status.issued, hs.status, hs.live]
  | status => simp [hostWrite, State.acknowledge, Status.acknowledged, hs.status]
  | nlen | dlen | bits | fin => simp [hostWrite, hb0]
  | limb buf i =>
    have hbuf := hs.buffer buf
    cases buf <;> simp_all [hostWrite, State.setLimb, State.buffer]
  | _ => rfl

/-- A value with a bit of 63:32 set is no command word (30_encoding.md R81). -/
theorem decode_upperHalf {v : Word} (h : v.extractLsb' 32 32 ≠ 0) : decode v = .error .upperHalf := if_pos h

/-- Settles O20: an issue, a dropped write, a read of CMD, and the check of the upper half. -/
theorem cmdPortIssues : Obligations.CmdPortIssues := by
  intro s s0 v hrst
  refine ⟨fun ht hb => ?_, fun ht hb => ?_, fun ht => ?_, fun h => ⟨_, decode_upperHalf h⟩⟩
  · exact idleWriteStores s s0 .cmd v hrst hb trivial ht
  · have hs := (sameBlock_of_hostTurn ht).status
    rw [step_write (r := .cmd) hrst trivial ht, hostWrite_dropped (hs ▸ hb) (.inl rfl) v, State.drop, hs]
    rfl
  · rw [step_read (r := .cmd) hrst trivial ht]
    exact hostRead_value (.inr rfl) rfl

/-- Settles O4: the step at a turn of the block is the completion, which runs the decoded command. -/
theorem stepRunsTheDecodedCommand : Obligations.StepRunsTheDecodedCommand := by
  intro s s0 f i ht hd
  rw [blockTurn_step ht, complete_of_decode hd]

theorem Status.toWord_reset : Status.reset.toWord = 0 := rfl

/-- Settles O13: the values `State.resetWith` gives, register by register. -/
theorem resetValues : Obligations.ResetValues := by
  refine ⟨⟨_, rfl⟩, fun p => ⟨rfl, fun r hr => ?_, fun buf i => ?_, rfl, rfl⟩⟩
  · cases r with
    | cap | limb => simp at hr
    | status => exact congrArg Except.ok Status.toWord_reset
    | _ => rfl
  · exact regValue_limb_none (by cases buf <;> rfl)

/-! ## The register map (R22, 20_memory.md R62) -/

/-- Where the offset of a mapped register lies. -/
theorem Reg.offset_range {lmax : Nat} {r : Reg} (h : r.mapped lmax) :
    r.offset ≤ 0x58 ∨ (0x10000 ≤ r.offset ∧ r.offset < 0x10000 + 8 * lmax) ∨
      (0x20000 ≤ r.offset ∧ r.offset < 0x20000 + 8 * lmax) := by
  cases r with
  | limb buf i =>
    have hi : i < lmax := h
    cases buf
    · rw [Reg.offset_a]; omega
    · rw [Reg.offset_b]; omega
  | _ => exact .inl (by decide)

/-- An offset of the window where no mapped register lies is a bus error (R62). -/
theorem portTarget_unmapped {p : Params} {off : Nat} (hw : off < windowBytes)
    (h : ∀ r : Reg, r.mapped p.lmax → off ≠ r.offset) :
    portTarget p (p.base + off) 8 = .error (.busError (p.base + off) 8) := by
  have hnone : regAt p.lmax off = none := by
    cases hr : regAt p.lmax off with
    | none => rfl
    | some r =>
      obtain ⟨ho, hm⟩ := regAt_some hr
      exact absurd ho (h r hm)
  unfold portTarget
  rw [if_neg (by omega), if_neg (by omega), Nat.add_sub_cancel_left, hnone]

/-- The access at a mapped register's offset reaches it, and is what its read and write by name are (R22, R93). -/
theorem access_at_offset (p : Params) {r : Reg} (h : r.mapped p.lmax) :
    portTarget p (p.base + r.offset) 8 = .ok r ∧ rdReg p r = .rd (p.base + r.offset) 8 ∧
      ∀ v, wrReg p r v = .wr (p.base + r.offset) (byteLanes v) :=
  ⟨portTarget_reg p h, rfl, fun _ => rfl⟩

/-- Settles O56: every offset in numerals is its register's offset, and the other ranges lie between the mapped ones. -/
theorem registerMapInNumerals : Obligations.RegisterMapInNumerals := by
  intro p
  have control (r : Reg) (h : r.mapped p.lmax) := access_at_offset p h
  refine ⟨control .cap trivial, control .ctrl trivial, control .status trivial, control .cmd trivial, control .nlen trivial,
    control .dlen trivial, control .bits trivial, control .fin trivial, control .fres trivial, control .deff trivial,
    control .ewidth trivial, control .est trivial, fun i hi => ⟨control (.limb .a i) hi, control (.limb .b i) hi⟩,
    fun off hoff => ?_⟩
  obtain ⟨_, hlmax⟩ := lmax_bounds p
  refine portTarget_unmapped (by unfold windowBytes; omega) fun r hm => ?_
  have := Reg.offset_range hm
  omega

end Sys2Proof.Machine
end

section
/-! # Host accesses at the port (20_memory.md R60 to R63, 10_state.md R30, R31) -/

namespace Sys2Proof.Machine

/-- With reset released a step at a turn of the host with a read is that access at the port. -/
theorem step_rd {s s0 : State} {addr size : Nat} (hrst : s.rst = false) (h : s.hostTurn (.rd addr size) s0) :
    step s = portRead s0 addr size := by
  obtain ⟨s1, _, _, h0, he⟩ := hostTurn_step h
  simp [he, hrst, hostTransaction, ← h0]

/-- With reset released a step at a turn of the host with a write is that access at the port. -/
theorem step_wr {s s0 : State} {addr : Nat} {bytes : List Byte} (hrst : s.rst = false)
    (h : s.hostTurn (.wr addr bytes) s0) : step s = portWrite s0 addr bytes := by
  obtain ⟨s1, _, _, h0, he⟩ := hostTurn_step h
  simp [he, hrst, hostTransaction, ← h0]

theorem portRead_error {s : State} {addr size : Nat} {f : Fault} (h : portTarget s.params addr size = .error f) :
    portRead s addr size = .fault f := by
  simp [portRead, h]

theorem portWrite_error {s : State} {addr : Nat} {bytes : List Byte} {f : Fault}
    (h : portTarget s.params addr bytes.length = .error f) : portWrite s addr bytes = .fault f := by
  simp [portWrite, h]

/-- Inside the window an access of another size than 8 is a bus error, wherever it lies (R62). -/
theorem portTarget_size {p : Params} {addr size : Nat} (hlow : p.base ≤ addr) (hhigh : addr < p.base + windowBytes)
    (hsize : size ≠ 8) : portTarget p addr size = .error (.busError addr size) := by
  unfold portTarget
  rw [if_neg (by omega), if_pos hsize]

/-- The accesses inside the window that R60 does not allow, in the numerals of the map (10_state.md R22). -/
def IllegalAccess (lmax off size : Nat) : Prop :=
  size ≠ 8 ∨ off % 8 ≠ 0 ∨ (0x60 ≤ off ∧ off < 0x10000) ∨ (0x10000 + 8 * lmax ≤ off ∧ off < 0x20000) ∨
    0x20000 + 8 * lmax ≤ off

/-- An illegal access inside the window is a bus error: no mapped register has that offset, or the size is wrong (R62). -/
theorem portTarget_illegal {p : Params} {addr size : Nat} (hlow : p.base ≤ addr) (hhigh : addr < p.base + windowBytes)
    (h : IllegalAccess p.lmax (addr - p.base) size) : portTarget p addr size = .error (.busError addr size) := by
  by_cases hsize : size = 8
  · subst hsize
    obtain ⟨_, hlmax⟩ := lmax_bounds p
    obtain ⟨off, rfl⟩ := Nat.exists_eq_add_of_le hlow
    rw [Nat.add_sub_cancel_left] at h
    refine portTarget_unmapped (by omega) fun r hm => ?_
    obtain ⟨_, _, halign⟩ := regAt_offset hlmax hm
    have := Reg.offset_range hm
    unfold IllegalAccess at h
    omega
  · exact portTarget_size hlow hhigh hsize

/-- Settles O15: an illegal access reaches no register, whether it is a read or a write. -/
theorem illegalAccessFaults : Obligations.IllegalAccessFaults := by
  intro s s0 addr size bytes hrst hlen hlow hhigh hillegal hturn
  have target {op : HostOp} (ht : s.hostTurn op s0) : portTarget s0.params addr size = .error (.busError addr size) := by
    rw [(sameBlock_of_hostTurn ht).params]
    exact portTarget_illegal hlow hhigh hillegal
  rcases hturn with ht | ht
  · rw [step_rd hrst ht, portRead_error (target ht)]
  · subst hlen
    rw [step_wr hrst ht, portWrite_error (target ht)]

/-! ## A limb written and read back (R63, 70_reset_and_hazards.md R232) -/

/-- A store to a limb changes that limb of that buffer alone: A and B are distinct storage (10_state.md R43). -/
theorem read_setLimb (s : State) (buf buf' : Buffer) (i j : Nat) (v : Word) :
    Limbs.read ((s.setLimb buf i v).buffer buf') j =
      if buf' = buf ∧ j = i then some v else Limbs.read (s.buffer buf') j := by
  cases buf <;> cases buf' <;> simp [State.buffer, Limbs.read_write]

/-- While BUSY = 0 a write to a limb is a store. -/
theorem hostWrite_limb_idle {s : State} (h : s.status.busy = false) (buf : Buffer) (i : Nat) (v : Word) :
    hostWrite s (.limb buf i) v = s.setLimb buf i v :=
  unlessBusy_idle h _

/-- With reset released and BUSY = 0 a step at a turn of the host with a write to a limb is a store. -/
theorem step_write_limb {s s0 : State} {buf : Buffer} {i : Nat} {v : Word} (hrst : s.rst = false)
    (hb : s.status.busy = false) (hi : i < s.lmax) (h : s.hostTurn (wrReg s.params (.limb buf i) v) s0) :
    step s = .next (s0.setLimb buf i v) := by
  rw [step_write (r := .limb buf i) hrst hi h, hostWrite_limb_idle ((sameBlock_of_hostTurn h).status ▸ hb)]

/-- With reset released and BUSY = 0 a step at a turn of the host with a read of a register returns the register's value. -/
theorem step_read_idle {s s0 : State} {r : Reg} {v : Word} (hrst : s.rst = false) (hb : s.status.busy = false)
    (hm : r.mapped s.lmax) (hv : regValue s r = .ok v) (h : s.hostTurn (rdReg s.params r) s0) :
    step s = .next (s0.reply v) := by
  have hs := sameBlock_of_hostTurn h
  rw [step_read hrst hm h, hostRead_value (.inl (hs.status ▸ hb)) ((hs.regValue r).trans hv), State.reply]

/-- Settles O21: the first step stores the limb, and the second returns it and changes no limb. -/
theorem writtenLimbReadsBack : Obligations.WrittenLimbReadsBack := by
  intro s buf i v rest hrst hb hf hi hops
  let s0 := s.setHostOps (rdReg s.params (.limb buf i) :: rest)
  let t := s0.setLimb buf i v
  have hlimb (buf' : Buffer) (j : Nat) : Limbs.read (t.buffer buf') j =
      if buf' = buf ∧ j = i then some v else Limbs.read (s.buffer buf') j := by
    rw [read_setLimb, (sameBlock_setHostOps s _).buffer]
  have hread : regValue t (.limb buf i) = .ok v := regValue_limb_some (by simp [hlimb])
  have hturn : t.hostTurn (rdReg t.params (.limb buf i)) (t.setHostOps rest) :=
    ⟨rest, by simp [t, s0], .inl ⟨by simp [t, s0, hf], rfl⟩⟩
  refine ⟨t, (t.setHostOps rest).reply v, step_write_limb hrst hb hi ⟨_, hops, .inl ⟨hf, rfl⟩⟩,
    step_read_idle (by simp [t, s0, hrst]) (by simp [t, s0, hb]) ?_ hread hturn, rfl, fun buf' j hother => ?_⟩
  · simpa [Reg.mapped, t, s0] using hi
  · rw [((sameBlock_setHostOps t rest).trans (sameBlock_reply _ v)).buffer, hlimb, if_neg (by tauto)]

/-! ## Byte lanes (R61) -/

/-- Lane k of the eight byte lanes of a word is its bits 8k+7 to 8k. -/
theorem getD_byteLanes (v : Word) {k : Nat} (hk : k < 8) : (byteLanes v).getD k 0 = v.extractLsb' (8 * k) 8 := by
  simp [byteLanes, byteLane, hk]

/-- Byte k of eight bytes is bits 8k+7 to 8k of the word they make. -/
theorem extractLsb'_ofByteLanes {bytes : List Byte} (h : bytes.length = 8) {k : Nat} (hk : k < 8) :
    (ofByteLanes bytes).extractLsb' (8 * k) 8 = bytes.getD k 0 := by
  rw [← getD_byteLanes _ hk, byteLanes_ofByteLanes h]

/-- A write of eight bytes at a register's address is the write of the word they make (R61, 30_encoding.md R93). -/
theorem wr_eq_wrReg (p : Params) (r : Reg) {bytes : List Byte} (h : bytes.length = 8) :
    HostOp.wr (p.base + r.offset) bytes = wrReg p r (ofByteLanes bytes) := by
  rw [wrReg, byteLanes_ofByteLanes h]

/-- The address of a limb in numerals (10_state.md R22). -/
theorem limb_address (base : Nat) (buf : Buffer) (i : Nat) :
    base + (if buf = .a then 0x10000 else 0x20000) + 8 * i = base + Reg.offset (.limb buf i) := by
  cases buf <;> simp [Reg.offset, Nat.add_assoc]

/-- Settles O22: a write of eight bytes is the write of the word they make, and a read returns the register's byte lanes. -/
theorem byteLanesAreLittleEndian : Obligations.ByteLanesAreLittleEndian := by
  refine ⟨fun s s0 buf i bytes hrst hb hi hlen hturn => ?_, fun p r bytes hlen => ?_, fun s s0 r v hrst hb hm hv hturn => ?_⟩
  · rw [limb_address, State.base, wr_eq_wrReg _ _ hlen] at hturn
    exact ⟨_, ofByteLanes bytes, step_write_limb hrst hb hi hturn, by simp,
      fun k hk => extractLsb'_ofByteLanes hlen hk⟩
  · exact ⟨_, wr_eq_wrReg p r hlen, fun k hk => extractLsb'_ofByteLanes hlen hk⟩
  · exact ⟨_, byteLanes v, step_read_idle hrst hb hm hv hturn, rfl, length_byteLanes v, fun k hk => getD_byteLanes v hk⟩

end Sys2Proof.Machine
end

section
/-! # The command in flight: what the host can do to it, its operands, and the word placed (20_memory.md R67, R70, R72) -/

namespace Sys2Proof.Machine

/-! ## The host's moves while BUSY = 1 (10_state.md R40, 70_reset_and_hazards.md R241) -/

theorem SameBlock.inflight {s t : State} (h : SameBlock s t) : t.inflight = s.inflight := by
  obtain ⟨_, _, _, _, rfl⟩ := h
  rfl

/-- Only one transaction is the host's next. -/
theorem hostTurn_op_unique {s s0 s1 : State} {op op' : HostOp} (h : s.hostTurn op s0) (h' : s.hostTurn op' s1) : op = op' := by
  obtain ⟨_, hops, _⟩ := h
  obtain ⟨_, hops', _⟩ := h'
  cases hops.symm.trans hops'
  rfl

/-- A turn of the host is no turn of the block. -/
theorem hostTurn_not_blockTurn {s s0 s1 : State} {op : HostOp} {f : InFlight} (h : s.hostTurn op s0) : ¬ s.blockTurn f s1 := by
  rintro ⟨hf, hblock⟩
  obtain ⟨_, _, ⟨hnone, _⟩ | ⟨_, ts, _, hturns, _⟩⟩ := h
  · simp [hf] at hnone
  · simp [hturns] at hblock

/-- While BUSY = 1 a host write changes neither the command in flight nor the live operands. -/
theorem HostWritten.keeps_inflight {s t : State} {r : Reg} {v : Word} (h : HostWritten s v r t) (hb : s.status.busy = true) :
    t.inflight = s.inflight ∧ t.live = s.live := by
  cases h with
  | ctrl | status | dropped | ignored => exact ⟨rfl, rfl⟩
  | issued hidle | nlen hidle | dlen hidle | bits hidle | fin hidle | limb _ _ hidle => simp [hb] at hidle

/-- Settles O31: of the effects a step can have only reset and a completion touch INFLIGHT or the operands while BUSY = 1. -/
theorem hostCannotAlterACommandInFlight : Obligations.HostCannotAlterACommandInFlight := by
  intro s t s0 op f hf hb hturn hop hstep
  rw [← hf]
  cases step_effect hstep with
  | unchanged _ hs => exact ⟨hs.inflight, hs.live⟩
  | assertReset s1 ht => exact absurd (hostTurn_op_unique hturn ht) hop
  | releaseReset s1 ht =>
    have hs := sameBlock_of_hostTurn ht
    exact ⟨hs.inflight, hs.live⟩
  | write r v s1 _ _ _ ht hw =>
    have hs := sameBlock_of_hostTurn ht
    rw [← hs.inflight, ← hs.live]
    exact hw.keeps_inflight (hs.status ▸ hb)
  | complete g s1 _ ht _ => exact absurd ht (hostTurn_not_blockTurn hturn)

/-! ## The operands a completion depends on (R72)

Each command's meaning is followed through its tests and limb reads: both sides take the same branch, and what they answer
has INFLIGHT cleared, so that the record it held does not show. -/

section Operands
variable (s : State) {f f' : InFlight}

/-- DIV depends on NLEN, DLEN, A[0..NLEN-1] and B[0..DLEN-1] (40_division.md R101; both ends counted, log entry 22). -/
theorem execDiv_congr (hn : f'.operands.nlen = f.operands.nlen) (hd : f'.operands.dlen = f.operands.dlen)
    (ha : ∀ i < f.operands.nlen.toNat, Limbs.read f'.operands.a i = Limbs.read f.operands.a i)
    (hb : ∀ i < f.operands.dlen.toNat, Limbs.read f'.operands.b i = Limbs.read f.operands.b i) :
    execDiv { s with inflight := some f' } = execDiv { s with inflight := some f } := by
  simp only [execDiv, State.operands, hn, hd]
  refine ite_congr rfl (fun _ => rfl) fun _ => withLimbs_congr hb fun bs => ?_
  refine ite_congr rfl (fun _ => rfl) fun _ => ite_congr rfl (fun _ => ?_) fun _ => ?_
  · exact ite_congr rfl (fun _ => rfl) fun _ => withLimbs_congr ha fun as => rfl
  · refine ite_congr rfl (fun _ => rfl) fun hshape => withLimb_congr (ha _ (by omega)) fun guard => ?_
    exact ite_congr rfl (fun _ => rfl) fun _ => withLimbs_congr ha fun as => rfl

/-- EST3X2 depends on A[0..2] and B[0..1] (40_division.md R120). -/
theorem execEst3x2_congr (ha : ∀ i < 3, Limbs.read f'.operands.a i = Limbs.read f.operands.a i)
    (hb : ∀ i < 2, Limbs.read f'.operands.b i = Limbs.read f.operands.b i) :
    execEst3x2 { s with inflight := some f' } = execEst3x2 { s with inflight := some f } := by
  simp only [execEst3x2, State.operands]
  refine withLimb_congr (hb 1 (by omega)) fun d1 => ite_congr rfl (fun _ => rfl) fun _ => ?_
  refine withLimb_congr (ha 2 (by omega)) fun n2 => withLimb_congr (ha 1 (by omega)) fun n1 => ?_
  refine withLimb_congr (hb 0 (by omega)) fun d0 => ite_congr rfl (fun _ => rfl) fun _ => ?_
  exact withLimb_congr (ha 0 (by omega)) fun n0 => rfl

/-- F2U depends on BITS and the pattern it is given (41_float_to_fixed.md R143). -/
theorem convertInbound_congr (fmt : Format) {x x' : Nat} (pol : Policy) (hx : x' = x)
    (hw : f'.operands.bits = f.operands.bits) :
    convertInbound fmt x' pol { s with inflight := some f' } = convertInbound fmt x pol { s with inflight := some f } := by
  simp only [convertInbound, State.operands, hx, hw]
  exact ite_congr rfl (fun _ => rfl) fun _ => rfl

/-- U2F depends on BITS and A[0..L-1] (42_fixed_to_float.md R177; both ends counted, log entry 22). -/
theorem convertFixed_congr (fmt : Format) (hw : f'.operands.bits = f.operands.bits)
    (ha : ∀ i < limbCount f.operands.bits.toNat, Limbs.read f'.operands.a i = Limbs.read f.operands.a i) :
    convertFixed fmt { s with inflight := some f' } = convertFixed fmt { s with inflight := some f } := by
  simp only [convertFixed, State.operands, hw]
  refine ite_congr rfl (fun _ => rfl) fun _ => ite_congr rfl (fun _ => rfl) fun hl => ?_
  refine withLimb_congr (ha _ (by omega)) fun top => ite_congr rfl (fun _ => rfl) fun _ => ?_
  exact withLimbs_congr ha fun as => rfl

end Operands

/-- FIN[31:0] as a number is the field of bits 31 to 0 (41_float_to_fixed.md R144). -/
theorem bitsOf_low32 (v : Word) : bitsOf v.toNat 31 0 = (v.extractLsb' 0 32).toNat := by
  simp [bitsOf]

/-- Settles O32: each command's meaning depends on its operands as its congruence lemma says. -/
theorem commandsReadOnlyTheirOperands : Obligations.CommandsReadOnlyTheirOperands := by
  intro s w w' o o'
  refine ⟨fun hn hd ha hb => execDiv_congr s hn hd ha hb, fun ha hb => execEst3x2_congr s ha hb, fun hw hfin => ?_,
    fun hw hfin => ?_, fun hw ha => ⟨convertFixed_congr s binary64 hw ha, convertFixed_congr s binary32 hw ha⟩⟩
  · have hx : o'.fin.toNat = o.fin.toNat := by rw [hfin]
    exact ⟨convertInbound_congr s binary64 .try_ hx hw, convertInbound_congr s binary64 .sat hx hw,
      convertInbound_congr s binary64 .wrap hx hw⟩
  · have hx : bitsOf o'.fin.toNat 31 0 = bitsOf o.fin.toNat 31 0 := by rw [bitsOf_low32, bitsOf_low32, hfin]
    exact ⟨convertInbound_congr s binary32 .try_ hx hw, convertInbound_congr s binary32 .sat hx hw,
      convertInbound_congr s binary32 .wrap hx hw⟩

/-! ## The word placed (R70, 10_state.md R27; log entry 4) -/

/-- The decoder gives back the command of each word the encoder makes (30_encoding.md R92). -/
theorem decode_encode : ∀ i, decode (encode i) = .ok i
  | .div => Laws.RoundTrip.div.1
  | .est3x2 => Laws.RoundTrip.est3x2.1
  | .f2u64Try => Laws.RoundTrip.f2u64Try.1
  | .f2u64Sat => Laws.RoundTrip.f2u64Sat.1
  | .f2u64Wrap => Laws.RoundTrip.f2u64Wrap.1
  | .f2u32Try => Laws.RoundTrip.f2u32Try.1
  | .f2u32Sat => Laws.RoundTrip.f2u32Sat.1
  | .f2u32Wrap => Laws.RoundTrip.f2u32Wrap.1
  | .u2f64 => Laws.RoundTrip.u2f64.1
  | .u2f32 => Laws.RoundTrip.u2f32.1

/-- The 32-bit word of a command, placed, is the command's value issued with the block next to move. -/
theorem withFetchWord_encodeWord (s : State) (i : Instr) :
    s.withFetchWord 32 (encodeWord i).toNat = s.placeCommand (encode i) := by
  rw [State.withFetchWord, Nat.mod_eq_of_lt (encodeWord i).isLt, Word.ofNat, BitVec.ofNat_toNat, encode]

/-- After a value is placed the block moves next, on the state in which it has just been issued. -/
theorem placeCommand_blockTurn (s : State) (v : Word) :
    (s.placeCommand v).blockTurn { word := v, operands := s.live } (s.issue v) :=
  ⟨rfl, .inr ⟨s.turns, rfl, rfl⟩⟩

/-- Settles O5: the block's turn is first, and the word placed decodes to its command. -/
theorem placedWordRunsNext : Obligations.PlacedWordRunsNext := by
  intro s i
  rw [withFetchWord_encodeWord, blockTurn_step (placeCommand_blockTurn s _)]
  exact complete_of_decode (f := ⟨encode i, s.live⟩) (decode_encode i) _

end Sys2Proof.Machine
end

section
/-! # The encoding of the commands, and the poll of STATUS (30_encoding.md R80 to R93) -/

namespace Sys2Proof.Machine

/-! ## The fields of a CMD value (R80 to R85) -/

/-- The opcode map inverts the numbers of R82. -/
theorem opcodeOf_eq_some_iff {c : BitVec 8} {o : Opcode} : opcodeOf c = some o ↔ c = opcodeBits o := by
  constructor
  · intro h
    unfold opcodeOf at h
    split_ifs at h with hc hc hc hc hc hc <;> exact hc.trans (congrArg opcodeBits (Option.some.inj h))
  · rintro rfl
    cases o <;> rfl

/-- The policy map inverts the numbers of R83. -/
theorem policyOf_eq_some_iff {c : BitVec 2} {p : Policy} : policyOf c = some p ↔ c = policyBits p := by
  constructor
  · intro h
    unfold policyOf at h
    split_ifs at h with hc hc hc <;> exact hc.trans (congrArg policyBits (Option.some.inj h))
  · rintro rfl
    cases p <;> rfl

/-- A value decodes to a command exactly if its fields are those of the command's word. -/
theorem decode_eq_ok_iff {v : Word} {i : Instr} :
    decode v = .ok i ↔
      cmdUpper v = 0 ∧ cmdReserved v = 0 ∧ cmdOpc v = opcodeBits i.opcode ∧ cmdPol v = policyBits i.policy := by
  rw [← opcodeOf_eq_some_iff, ← policyOf_eq_some_iff]
  constructor
  · intro h
    unfold decode at h
    split_ifs at h with hupper hreserved
    split at h
    · contradiction
    next opc hopc =>
      split at h
      · contradiction
      next pol hpol =>
        rw [hopc, hpol]
        split at h <;> cases h <;> exact ⟨not_not.1 hupper, not_not.1 hreserved, rfl, rfl⟩
  · rintro ⟨hupper, hreserved, hopc, hpol⟩
    cases i <;> simp [decode, hupper, hreserved, hopc, hpol, Instr.opcode, Instr.policy]

theorem toNat_cmdUpper (v : Word) : (cmdUpper v).toNat = v.toNat / 2 ^ 32 := by
  have := v.isLt
  rw [cmdUpper, BitVec.extractLsb'_toNat, Nat.shiftRight_eq_div_pow]
  omega

theorem toNat_cmdReserved (v : Word) : (cmdReserved v).toNat = v.toNat / 2 ^ 10 % 2 ^ 22 := by
  rw [cmdReserved, BitVec.extractLsb'_toNat, Nat.shiftRight_eq_div_pow]

theorem toNat_cmdPol (v : Word) : (cmdPol v).toNat = v.toNat / 2 ^ 8 % 2 ^ 2 := by
  rw [cmdPol, BitVec.extractLsb'_toNat, Nat.shiftRight_eq_div_pow]

theorem toNat_cmdOpc (v : Word) : (cmdOpc v).toNat = v.toNat % 2 ^ 8 := by
  rw [cmdOpc, BitVec.extractLsb'_toNat, Nat.shiftRight_zero]

/-- The four fields are all of a CMD value (R80). -/
theorem cmd_ext {v w : Word} (hupper : cmdUpper v = cmdUpper w) (hreserved : cmdReserved v = cmdReserved w)
    (hpol : cmdPol v = cmdPol w) (hopc : cmdOpc v = cmdOpc w) : v = w := by
  apply BitVec.eq_of_toNat_eq
  have hu := congrArg BitVec.toNat hupper
  have hr := congrArg BitVec.toNat hreserved
  have hp := congrArg BitVec.toNat hpol
  have ho := congrArg BitVec.toNat hopc
  simp only [toNat_cmdUpper, toNat_cmdReserved, toNat_cmdPol, toNat_cmdOpc] at hu hr hp ho
  omega

/-! ## The ten command words (R86, R92) -/

/-- The decoder accepts the encodings of the commands and nothing else: two values that decode to one command have the same
fields. -/
theorem decode_eq_ok_iff_eq_encode {v : Word} {i : Instr} : decode v = .ok i ↔ v = encode i := by
  constructor
  · intro h
    obtain ⟨hupper, hreserved, hopc, hpol⟩ := decode_eq_ok_iff.1 h
    obtain ⟨hupper', hreserved', hopc', hpol'⟩ := decode_eq_ok_iff.1 (decode_encode i)
    exact cmd_ext (hupper.trans hupper'.symm) (hreserved.trans hreserved'.symm) (hpol.trans hpol'.symm)
      (hopc.trans hopc'.symm)
  · rintro rfl
    exact decode_encode i

/-- A word in flight that is no command word completes with ILLEGAL (60_exceptions.md R204). -/
theorem complete_of_ne_encode {f : InFlight} (h : ∀ i, f.word ≠ encode i) (s : State) :
    complete f s = .next (s.finish .illegal) := by
  obtain ⟨i, hi, _⟩ | ⟨_, _, hc⟩ := complete_cases f s
  · exact absurd (decode_eq_ok_iff_eq_encode.1 hi) (h i)
  · exact hc

/-- Settles O2: a value decodes to a command exactly if it is the command's encoding; the encodings are computed, and what is
none of them is illegal. -/
theorem decoderAcceptsExactlyTheTenWords : Obligations.DecoderAcceptsExactlyTheTenWords :=
  ⟨fun _ _ => decode_eq_ok_iff_eq_encode, by decide, fun _ s h => complete_of_ne_encode h s⟩

/-- Settles O1: the ten words are the encodings of the commands. -/
theorem specWordsDecode : Obligations.SpecWordsDecode :=
  ⟨decode_encode .div, decode_encode .est3x2, decode_encode .f2u64Try, decode_encode .f2u64Sat, decode_encode .f2u64Wrap,
    decode_encode .f2u32Try, decode_encode .f2u32Sat, decode_encode .f2u32Wrap, decode_encode .u2f64, decode_encode .u2f32⟩

/-! ## The field checks by integer arithmetic (R81 to R86) -/

theorem roundTrip (i : Instr) : Laws.RoundTrip.Statement i := by
  cases i
  exacts [Laws.RoundTrip.div, Laws.RoundTrip.est3x2, Laws.RoundTrip.f2u64Try, Laws.RoundTrip.f2u64Sat,
    Laws.RoundTrip.f2u64Wrap, Laws.RoundTrip.f2u32Try, Laws.RoundTrip.f2u32Sat, Laws.RoundTrip.f2u32Wrap,
    Laws.RoundTrip.u2f64, Laws.RoundTrip.u2f32]

theorem cmdUpper_of_upperZero {v : Word} (h : upperZero v = true) : cmdUpper v = 0 :=
  BitVec.eq_of_toNat_eq ((toNat_cmdUpper v).trans (eq_of_beq h))

theorem cmdReserved_of_reservedZero {v : Word} (h : reservedZero v = true) : cmdReserved v = 0 :=
  BitVec.eq_of_toNat_eq ((toNat_cmdReserved v).trans (eq_of_beq h))

/-- A value that passes the check on bits 7:0 has the number of an opcode there (R82). -/
theorem cmdOpc_of_opcodeAssigned {v : Word} (h : opcodeAssigned v = true) : ∃ o, cmdOpc v = opcodeBits o := by
  rw [opcodeAssigned, ← toNat_cmdOpc] at h
  simp only [List.contains_cons, List.contains_nil, Bool.or_eq_true, beq_iff_eq, Bool.false_eq_true, or_false] at h
  obtain h | h | h | h | h | h := h
  exacts [⟨.div, BitVec.eq_of_toNat_eq h⟩, ⟨.est3x2, BitVec.eq_of_toNat_eq h⟩, ⟨.f2u64, BitVec.eq_of_toNat_eq h⟩,
    ⟨.f2u32, BitVec.eq_of_toNat_eq h⟩, ⟨.u2f64, BitVec.eq_of_toNat_eq h⟩, ⟨.u2f32, BitVec.eq_of_toNat_eq h⟩]

/-- A POL that is not 3 is the number of a policy (R83). -/
theorem eq_policyBits_of_ne_three : ∀ c : BitVec 2, (c.toNat != 3) = true →
    c = policyBits .try_ ∨ c = policyBits .sat ∨ c = policyBits .wrap := by
  decide

/-- An opcode with a policy the check on bits 9:8 admits is that of a command: the two float-to-fixed opcodes have all three
policies (R83), every other has POL = 0 alone (R84). -/
theorem command_of_policyAdmitted {v : Word} {o : Opcode} (ho : cmdOpc v = opcodeBits o) (h : policyAdmitted v = true) :
    ∃ i : Instr, i.opcode = o ∧ cmdPol v = policyBits i.policy := by
  rw [policyAdmitted, ← toNat_cmdOpc, ← toNat_cmdPol, ho] at h
  cases o with
  | f2u64 =>
    obtain hpol | hpol | hpol := eq_policyBits_of_ne_three _ h
    exacts [⟨.f2u64Try, rfl, hpol⟩, ⟨.f2u64Sat, rfl, hpol⟩, ⟨.f2u64Wrap, rfl, hpol⟩]
  | f2u32 =>
    obtain hpol | hpol | hpol := eq_policyBits_of_ne_three _ h
    exacts [⟨.f2u32Try, rfl, hpol⟩, ⟨.f2u32Sat, rfl, hpol⟩, ⟨.f2u32Wrap, rfl, hpol⟩]
  | div => exact ⟨.div, rfl, BitVec.eq_of_toNat_eq (eq_of_beq h)⟩
  | est3x2 => exact ⟨.est3x2, rfl, BitVec.eq_of_toNat_eq (eq_of_beq h)⟩
  | u2f64 => exact ⟨.u2f64, rfl, BitVec.eq_of_toNat_eq (eq_of_beq h)⟩
  | u2f32 => exact ⟨.u2f32, rfl, BitVec.eq_of_toNat_eq (eq_of_beq h)⟩

/-- Settles O3: the checks give the fields of a command, and the word of each command passes them. -/
theorem fieldChecksAgreeWithDecoder : Obligations.FieldChecksAgreeWithDecoder := by
  intro v
  constructor
  · intro h
    simp only [wellFormedCmd, Bool.and_eq_true] at h
    obtain ⟨⟨⟨hupper, hreserved⟩, hopc⟩, hpol⟩ := h
    obtain ⟨o, ho⟩ := cmdOpc_of_opcodeAssigned hopc
    obtain ⟨i, rfl, hi⟩ := command_of_policyAdmitted ho hpol
    exact ⟨i, decode_eq_ok_iff.2 ⟨cmdUpper_of_upperZero hupper, cmdReserved_of_reservedZero hreserved, ho, hi⟩⟩
  · rintro ⟨i, h⟩
    obtain ⟨_, hwf, _⟩ := roundTrip i
    rw [decode_eq_ok_iff_eq_encode.1 h, hwf]

/-! ## The poll of STATUS (R93) -/

/-- One poll of `wait` returns STATUS and leaves the host's program as it was or past the `wait`. -/
theorem pollStatus_eq (s : State) (rest : List HostOp) :
    pollStatus s rest = { s with
      rdata := some (byteLanes s.status.toWord),
      hostOps := if s.status.busy then s.hostOps else rest } := by
  cases h : s.status.busy <;> simp [pollStatus, h, State.reply, State.setHostOps]

/-- Settles O23: the step is one poll, made on a state that differs from s in the turns alone. -/
theorem waitPollsBusy : Obligations.WaitPollsBusy := by
  intro s s0 hrst hturn
  obtain ⟨s1, hs, hops, h0, hstep⟩ := hostTurn_step hturn
  rw [hstep, if_neg (by simp [hrst]), hostTransaction, pollStatus_eq, hops, ← (sameBlock_of_turn hs).status, h0]
  rfl

end Sys2Proof.Machine
end

section
/-! # DIV: its checks and its results (40_division.md R101 to R119) -/

namespace Sys2Proof.Machine

theorem exec_div (s : State) : exec .div s = execDiv s := rfl

/-! ## The checks (R102) -/

/-- A length above LMAX is refused before any limb is read. -/
theorem execDiv_range {s : State} (h : s.lmax < s.operands.nlen.toNat ∨ s.lmax < s.operands.dlen.toNat) :
    execDiv s = .next (s.finish .precond) :=
  if_pos h

section Checks
variable {s : State} {m : Nat} (hn : s.operands.nlen.toNat ≤ s.lmax) (hd : s.operands.dlen.toNat ≤ s.lmax)
  (hb : Limbs.Written s.operands.b s.operands.dlen.toNat)
  (hm : IsEffLength (Limbs.values s.operands.b s.operands.dlen.toNat) m)
include hn hd hb hm

/-- A divisor with no nonzero limb is DIV_BY_ZERO, whatever A holds. -/
theorem execDiv_divByZero (h0 : m = 0) : execDiv s = .next (s.finish .divByZero) := by
  rw [isEffLength_iff] at hm
  simp [execDiv, not_lt.2 hn, not_lt.2 hd, withLimbs_written hb, hm, h0]

/-- A numerator too short for its path is PRECOND, before any limb of A is read. -/
theorem execDiv_numerator_short
    (h : m = 1 ∧ s.operands.nlen.toNat < 1 ∨ 2 ≤ m ∧ s.operands.nlen.toNat < m + 2) :
    execDiv s = .next (s.finish .precond) := by
  rw [isEffLength_iff] at hm
  rcases h with ⟨h1, hshort⟩ | ⟨h2, hshort⟩
  · simp [execDiv, not_lt.2 hn, not_lt.2 hd, withLimbs_written hb, hm, h1, hshort]
  · have hm0 : m ≠ 0 := by omega
    have hm1 : m ≠ 1 := by omega
    simp [execDiv, not_lt.2 hn, not_lt.2 hd, withLimbs_written hb, hm, hm0, hm1, hshort]

/-- On the multi-limb path a nonzero guard limb is PRECOND whether the numerator is long enough or not, and no other limb of A
is read. -/
theorem execDiv_guard_nonzero {g : Word} (h2 : 2 ≤ m)
    (hg : Limbs.read s.operands.a (s.operands.nlen.toNat - 1) = some g) (hg0 : g ≠ 0) :
    execDiv s = .next (s.finish .precond) := by
  rw [isEffLength_iff] at hm
  have hm0 : m ≠ 0 := by omega
  have hm1 : m ≠ 1 := by omega
  have hgn : g.toNat ≠ 0 := fun h => hg0 (BitVec.eq_of_toNat_eq h)
  simp [execDiv, not_lt.2 hn, not_lt.2 hd, withLimbs_written hb, hm, hm0, hm1, withLimb_written hg, hgn]

end Checks

/-- Settles O33: one lemma for each check. -/
theorem divChecksInOrder : Obligations.DivChecksInOrder := by
  intro s n d
  refine ⟨execDiv_range, fun m hn hd hb hm => ⟨execDiv_divByZero hn hd hb hm, fun h1 hshort => ?_, fun h2 hshort => ?_,
    fun h2 _ g => execDiv_guard_nonzero hn hd hb hm h2⟩⟩
  · exact execDiv_numerator_short hn hd hb hm (.inl ⟨h1, hshort⟩)
  · exact execDiv_numerator_short hn hd hb hm (.inr ⟨h2, hshort⟩)

/-! ## The values of limb runs (00_scope.md R12, R17) -/

/-- The limbs at and above the effective length are worth nothing. -/
theorem limbsVal_drop_effLength (xs : List Nat) : limbsVal (xs.drop (effLength xs)) = 0 := by
  have hsplit := limbsVal_take_drop (effLength_le xs)
  rw [limbsVal_take_effLength, left_eq_add, mul_eq_zero] at hsplit
  exact hsplit.resolve_left (pow_pos radix_pos _).ne'

theorem limbsVal_lt_radix_pow_effLength {xs : List Nat} (h : AllLimbs xs) : limbsVal xs < radix ^ effLength xs := by
  rw [← limbsVal_take_effLength]
  exact limbsVal_take_lt h (effLength_le xs)

theorem limbsVal_of_effLength_one {xs : List Nat} (h : effLength xs = 1) : limbsVal xs = xs.getD 0 0 := by
  rw [← limbsVal_take_effLength, h]
  cases xs with
  | nil => rfl
  | cons x xs => simp

theorem radix_pow_le_limbsVal {xs : List Nat} : ∀ {i : Nat}, xs.getD i 0 ≠ 0 → radix ^ i ≤ limbsVal xs := by
  induction xs with
  | nil => simp
  | cons x xs ih =>
    intro i hi
    rw [limbsVal_cons]
    cases i with
    | zero =>
      have hx : x ≠ 0 := hi
      rw [pow_zero]
      omega
    | succ i =>
      rw [pow_succ']
      exact (Nat.mul_le_mul_left _ (ih hi)).trans (Nat.le_add_left _ _)

/-- A nonzero divisor is at least its highest nonzero limb's weight. -/
theorem radix_pow_effLength_le {xs : List Nat} (h : effLength xs ≠ 0) : radix ^ (effLength xs - 1) ≤ limbsVal xs :=
  radix_pow_le_limbsVal (getD_effLength_ne_zero xs h)

theorem limbsVal_pos_of_effLength {xs : List Nat} (h : effLength xs ≠ 0) : 0 < limbsVal xs :=
  Nat.pos_of_ne_zero ((effLength_eq_zero_iff xs).not.1 h)

/-- A remainder fits in the divisor's effective limbs (R112). -/
theorem mod_lt_radix_pow_effLength {bs : List Nat} (h : AllLimbs bs) (hm : effLength bs ≠ 0) (n : Nat) :
    n % limbsVal bs < radix ^ effLength bs :=
  (Nat.mod_lt n (limbsVal_pos_of_effLength hm)).trans (limbsVal_lt_radix_pow_effLength h)

/-- A sequence whose top limb is 0 is worth less than that limb's weight. -/
theorem limbsVal_lt_of_top_zero {xs : List Nat} (h : AllLimbs xs) (htop : xs.getD (xs.length - 1) 0 = 0) :
    limbsVal xs < radix ^ (xs.length - 1) := by
  have hle : effLength xs ≤ xs.length - 1 := by
    by_contra hgt
    have htopIndex : effLength xs - 1 = xs.length - 1 := by have := effLength_le xs; omega
    exact getD_effLength_ne_zero xs (by omega) (htopIndex ▸ htop)
  exact (limbsVal_lt_radix_pow_effLength h).trans_le (Nat.pow_le_pow_right radix_pos hle)

/-- With its guard limb 0 the numerator's quotient fits in the n - m limbs above the remainder (R112). -/
theorem quotient_lt {as bs : List Nat} (has : AllLimbs as) (hbs : effLength bs ≠ 0) (hlen : effLength bs ≤ as.length)
    (hguard : as.getD (as.length - 1) 0 = 0) :
    limbsVal as / limbsVal bs < radix ^ (as.length - effLength bs) := by
  apply Nat.div_lt_of_lt_mul
  calc limbsVal as < radix ^ (as.length - 1) := limbsVal_lt_of_top_zero has hguard
    _ = radix ^ (effLength bs - 1) * radix ^ (as.length - effLength bs) := by rw [← pow_add]; congr 1; omega
    _ ≤ limbsVal bs * radix ^ (as.length - effLength bs) := Nat.mul_le_mul_right _ (radix_pow_effLength_le hbs)

/-- A written limb of a run is the one the run's values list. -/
theorem Limbs.getD_values_of_read {l : Limbs} {k i : Nat} {v : Word} (hi : i < k) (h : Limbs.read l i = some v) :
    (l.values k).getD i 0 = v.toNat := by
  rw [Limbs.getD_values l hi, h, Option.getD_some]

/-- Limbs written from index 0 stand below what the buffer held above them. -/
theorem Limbs.values_writeFrom_append (l : Limbs) {vs : List Nat} (hv : AllLimbs vs) {k : Nat} (hk : vs.length ≤ k) :
    (Limbs.writeFrom l 0 (vs.map Word.ofNat)).values k = vs ++ (l.values k).drop vs.length := by
  apply List.ext_getElem
  · simp [hk]
  · intro i h1 _
    rcases Nat.lt_or_ge i vs.length with hi | hi
    · have hbelow := Limbs.read_writeFrom_below l (vs.map Word.ofNat) (j := i) (by simpa using hi)
      have hlimb : vs[i] < 2 ^ 64 := hv _ (List.getElem_mem hi)
      simpa [Limbs.values, hbelow, List.getElem_append_left hi, Word.ofNat] using hlimb
    · have habove := Limbs.read_writeFrom_above l (vs.map Word.ofNat) (j := i) (by simpa using hi)
      simp [Limbs.values, habove, List.getElem_append_right hi, hi]

/-- A value written over all the limbs of a run that were not 0 is what the run is then worth. -/
theorem Limbs.val_writeFrom_toLimbs (l : Limbs) {k m v : Nat} (hk : effLength (l.values k) = m) (hv : v < radix ^ m) :
    (Limbs.writeFrom l 0 ((toLimbs m v).map Word.ofNat)).val k = v := by
  have hle := effLength_le (l.values k)
  rw [hk, Limbs.length_values] at hle
  rw [Limbs.val, Limbs.values_writeFrom_append l (allLimbs_toLimbs m v) (by rwa [length_toLimbs]), limbsVal_append,
    length_toLimbs, ← hk, limbsVal_drop_effLength, hk, limbsVal_toLimbs_of_lt hv, mul_zero, add_zero]

/-- Of a run written from index 0, the lower limbs are worth what they were written with. -/
theorem Limbs.val_writeFrom_low (l : Limbs) {k v : Nat} {ws : List Nat} (hws : AllLimbs ws) (hv : v < radix ^ k) :
    (Limbs.writeFrom l 0 ((toLimbs k v ++ ws).map Word.ofNat)).val k = v := by
  rw [Limbs.val, Limbs.values_writeFrom l (AllLimbs.append.2 ⟨allLimbs_toLimbs k v, hws⟩) (by simp),
    List.take_left' (length_toLimbs k v), limbsVal_toLimbs_of_lt hv]

/-- The whole of a run written from index 0 is worth what it was written with. -/
theorem Limbs.val_writeFrom (l : Limbs) {k v : Nat} (hv : v < radix ^ k) :
    (Limbs.writeFrom l 0 ((toLimbs k v).map Word.ofNat)).val k = v := by
  simpa using Limbs.val_writeFrom_low l (ws := []) (by simp [AllLimbs]) hv

/-- Of a run written from index 0, the upper limbs are worth what they were written with. -/
theorem Limbs.limbsVal_drop_writeFrom (l : Limbs) {n m v : Nat} {us : List Nat} (hus : AllLimbs us) (hm : us.length = m)
    (hmn : m ≤ n) (hv : v < radix ^ (n - m)) :
    limbsVal (((Limbs.writeFrom l 0 ((us ++ toLimbs (n - m) v).map Word.ofNat)).values n).drop m) = v := by
  have hlen : (us ++ toLimbs (n - m) v).length = n := by simp [hm, hmn]
  rw [Limbs.values_writeFrom l (AllLimbs.append.2 ⟨hus, allLimbs_toLimbs _ v⟩) hlen.ge,
    List.take_of_length_le hlen.le, List.drop_left' hm, limbsVal_toLimbs_of_lt hv]

theorem toLimbs_one {v : Nat} (h : v < radix) : toLimbs 1 v = [v] := by simp [toLimbs, Nat.mod_eq_of_lt h]

/-! ## The two paths (R103 to R113) -/

/-- Settles O34: the single-limb path past its checks. -/
theorem divSingleLimbResult : Obligations.DivSingleLimbResult := by
  intro s n d N D hn hd ha hb hm h1
  exact execDiv_single hn hd ha hb ((isEffLength_iff _ _).1 hm) h1

/-- Settles O35: the multi-limb path past its checks, the guard limb read as 0. -/
theorem divMultiLimbResult : Obligations.DivMultiLimbResult := by
  intro s m n d N D hn hd ha hb hm h2 hlong hguard
  exact execDiv_multi hn hd ha hb ((isEffLength_iff _ _).1 hm) h2 hlong (Limbs.getD_values_of_read (by omega) hguard)

/-! ## The values DIV leaves (R112, R119) -/

theorem State.Inv.operands_a {s : State} (h : s.Inv) : s.operands.a = s.a := congrArg Operands.a h.operands_eq_live

theorem State.Inv.operands_b {s : State} (h : s.Inv) : s.operands.b = s.b := congrArg Operands.b h.operands_eq_live

/-- DEFF holds the effective length of a divisor of DLEN limbs. -/
theorem toNat_finishDiv_deff (s : State) (as bs : List Nat) {m : Nat} (h : m ≤ s.operands.dlen.toNat) :
    (s.finishDiv as bs m).deff.toNat = m :=
  Nat.mod_eq_of_lt (h.trans_lt s.operands.dlen.isLt)

/-- Settles O36: the limbs each path writes, valued. -/
theorem divLeavesQuotientAndRemainder : Obligations.DivLeavesQuotientAndRemainder := by
  intro s m hinv n d N D hn hd ha hb hm h1 hn1 hshape
  rw [isEffLength_iff] at hm
  have hm0 : effLength (Limbs.values s.operands.b d) ≠ 0 := by omega
  have has : AllLimbs (Limbs.values s.operands.a n) := Limbs.values_lt _ _
  have hmd : m ≤ d := by simpa [hm] using effLength_le (Limbs.values s.operands.b d)
  have hR : N % D < radix ^ m := hm ▸ mod_lt_radix_pow_effLength (Limbs.values_lt _ _) hm0 N
  have hRD : N % D < D := Nat.mod_lt N (limbsVal_pos_of_effLength hm0)
  have hBd : Limbs.val (Limbs.writeFrom s.b 0 ((toLimbs m (N % D)).map Word.ofNat)) d = N % D :=
    Limbs.val_writeFrom_toLimbs s.b (hinv.operands_b ▸ hm) hR
  rcases h1.eq_or_lt with rfl | h2
  · have hQ : N / D < radix ^ n := (Nat.div_le_self N D).trans_lt ((limbsVal_lt has).trans_eq (by rw [Limbs.length_values]))
    have hB := Limbs.val_writeFrom s.b hR
    rw [toLimbs_one (pow_one radix ▸ hR)] at hB hBd
    refine ⟨_, execDiv_single hn hd ha hb hm hn1, rfl, toNat_finishDiv_deff _ _ _ hmd,
      fun _ => ⟨Limbs.val_writeFrom s.a hQ, hB⟩, fun h => absurd h (by omega), hBd, Nat.div_add_mod' N D, hRD⟩
  · obtain ⟨hlong, hg⟩ := hshape h2
    have hguard : (Limbs.values s.operands.a n).getD (n - 1) 0 = 0 := Limbs.getD_values_of_read (by omega) hg
    have hQ : N / D < radix ^ (n - m) := by
      have := quotient_lt has hm0 (by rw [hm, Limbs.length_values]; omega) (by rwa [Limbs.length_values])
      rwa [hm, Limbs.length_values] at this
    refine ⟨_, execDiv_multi hn hd ha hb hm h2 hlong hguard, rfl, toNat_finishDiv_deff _ _ _ hmd,
      fun h => absurd h (by omega), fun _ => ⟨?_, ?_, ?_⟩, hBd, Nat.div_add_mod' N D, hRD⟩
    · exact Limbs.limbsVal_drop_writeFrom s.a (allLimbs_toLimbs m (N % D)) (length_toLimbs _ _) (by omega) hQ
    · exact Limbs.val_writeFrom_low s.a (allLimbs_toLimbs _ _) hR
    · exact Limbs.val_writeFrom s.b hR

/-- A divisor whose only nonzero limb is B[0] has effective length 1 and the value of that limb, whatever its DLEN (R119). -/
theorem effLength_val_of_padded {l : Limbs} {d : Nat} {b0 : Word} (hd : 1 ≤ d) (hb0 : b0 ≠ 0)
    (hlow : Limbs.read l 0 = some b0) (hpad : ∀ i, 1 ≤ i → i < d → Limbs.read l i = some 0) :
    effLength (l.values d) = 1 ∧ l.val d = b0.toNat := by
  have hbot : (l.values d).getD 0 0 = b0.toNat := Limbs.getD_values_of_read hd hlow
  have hm : effLength (l.values d) = 1 := by
    refine (isEffLength_iff _ _).1 ⟨by simpa using hd, fun i hi => ?_, .inr ?_⟩
    · rcases Nat.lt_or_ge i d with hlt | hge
      · exact Limbs.getD_values_of_read hlt (hpad i hi hlt)
      · exact List.getD_eq_default _ _ (by simpa using hge)
    · rw [hbot]
      exact fun h => hb0 (BitVec.eq_of_toNat_eq h)
  exact ⟨hm, (limbsVal_of_effLength_one hm).trans hbot⟩

/-- DIV on a padded single-limb divisor b0: its answer depends on N and b0 alone (R119). -/
theorem exec_div_padded {s : State} {b0 : Word} (hinv : s.Inv) (hn1 : 1 ≤ s.operands.nlen.toNat) (hb0 : b0 ≠ 0)
    (hn : s.operands.nlen.toNat ≤ s.lmax) (ha : Limbs.Written s.operands.a s.operands.nlen.toNat)
    (hd1 : 1 ≤ s.operands.dlen.toNat) (hd : s.operands.dlen.toNat ≤ s.lmax) (hlow : Limbs.read s.operands.b 0 = some b0)
    (hpad : ∀ i, 1 ≤ i → i < s.operands.dlen.toNat → Limbs.read s.operands.b i = some 0) :
    ∃ t, exec .div s = .next t ∧ t.status.err = .none ∧ t.deff = 1 ∧
      t.a = Limbs.writeFrom s.a 0
        ((toLimbs s.operands.nlen.toNat (Limbs.val s.a s.operands.nlen.toNat / b0.toNat)).map Word.ofNat) ∧
      Limbs.val t.b s.operands.dlen.toNat = Limbs.val s.a s.operands.nlen.toNat % b0.toNat := by
  obtain ⟨hm, hD⟩ := effLength_val_of_padded hd1 hb0 hlow hpad
  have hb : Limbs.Written s.operands.b s.operands.dlen.toNat := fun i hi => by
    rcases Nat.eq_zero_or_pos i with rfl | hpos
    · simp [hlow]
    · simp [hpad i hpos hi]
  have hR : Limbs.val s.operands.a s.operands.nlen.toNat % b0.toNat < radix ^ 1 := by
    rw [pow_one]
    exact (Nat.mod_lt _ (hD ▸ limbsVal_pos_of_effLength (by omega))).trans b0.isLt
  have hB := Limbs.val_writeFrom_toLimbs s.b (hinv.operands_b ▸ hm) hR
  have hexec := execDiv_single hn hd ha hb hm hn1
  rw [toLimbs_one (pow_one radix ▸ hR)] at hB
  rw [hD] at hexec
  rw [hinv.operands_a] at hB hexec
  exact ⟨_, hexec, rfl, rfl, rfl, hB⟩

/-- Settles O38: both states answer what N and b0 give. -/
theorem divPaddedDivisorAgrees : Obligations.DivPaddedDivisorAgrees := by
  intro s1 s2 b0 hinv1 hinv2 hnlen ha hn1 hb0 h
  obtain ⟨hn, hw, hd1, hd, hlow, hpad⟩ := h s1 (by simp)
  obtain ⟨hn', hw', hd1', hd', hlow', hpad'⟩ := h s2 (by simp)
  obtain ⟨t1, he1, herr1, hdeff1, hA1, hB1⟩ := exec_div_padded hinv1 hn1 hb0 hn hw hd1 hd hlow hpad
  obtain ⟨t2, he2, herr2, hdeff2, hA2, hB2⟩ := exec_div_padded hinv2 (hnlen ▸ hn1) hb0 hn' hw' hd1' hd' hlow' hpad'
  rw [← hnlen, ← ha] at hA2 hB2
  exact ⟨t1, t2, he1, he2, herr1, herr2, hA1.trans hA2.symm, hB1.trans hB2.symm, hdeff1, hdeff2⟩

/-! ## What DIV leaves unchanged (R101, R113) -/

theorem sameButResults_finish (s : State) (c : ErrCode) : s.sameButResults (s.finish c) := by simp [State.sameButResults]

theorem sameButResults_finishDiv (s : State) (as bs : List Nat) (m : Nat) : s.sameButResults (s.finishDiv as bs m) := by
  simp [State.sameButResults, State.finishDiv]

/-- Settles O37: a failed check changes STATUS and INFLIGHT alone, and the results reach NLEN limbs of A and at most DLEN of B. -/
theorem divFrame : Obligations.DivFrame := by
  intro s t h
  rw [exec_div] at h
  rcases execDiv_cases s with ⟨c, _, he⟩ | ⟨as, bs, m, he, has, hbs, _, hmd, _⟩ | ⟨_, _, _, he⟩ | ⟨_, _, _, he⟩ <;>
    rw [he] at h <;> cases h
  case inl => exact ⟨sameButResults_finish s c, rfl, rfl, rfl, rfl, fun _ _ => rfl, fun _ _ => rfl, fun _ => ⟨rfl, rfl, rfl⟩⟩
  case inr.inl =>
    refine ⟨sameButResults_finishDiv s as bs m, rfl, rfl, rfl, rfl, fun i hi => ?_, fun i hi => ?_, fun herr => absurd rfl herr⟩
    · exact Limbs.read_writeFrom_above _ _ (by simpa [has] using hi)
    · exact Limbs.read_writeFrom_above _ _ (by simp; omega)

end Sys2Proof.Machine
end

section
/-! # EST3X2, and what it and the U2F commands leave unchanged (40_division.md R106, R120, 42_fixed_to_float.md R175, R176) -/

namespace Sys2Proof.Machine

theorem exec_est3x2 (s : State) : exec .est3x2 s = execEst3x2 s := rfl

/-- The check of R120 fails where the estimator's precondition (R106) does. -/
theorem not_estPre_iff (n2 n1 d1 d0 : Nat) :
    ¬ EstPre n2 n1 d1 d0 ↔ d1 < 2 ^ 63 ∨ n2 * 2 ^ 64 + n1 > d1 * 2 ^ 64 + d0 := by
  rw [EstPre, not_and_or, not_le, not_le]
  rfl

/-- EST3X2 with its five limbs written: the check, and the estimator's digit. -/
theorem execEst3x2_written {s : State} {n0 n1 n2 d0 d1 : Word} (h0 : Limbs.read s.operands.a 0 = some n0)
    (h1 : Limbs.read s.operands.a 1 = some n1) (h2 : Limbs.read s.operands.a 2 = some n2)
    (hd0 : Limbs.read s.operands.b 0 = some d0) (hd1 : Limbs.read s.operands.b 1 = some d1) :
    execEst3x2 s =
      if EstPre n2.toNat n1.toNat d1.toNat d0.toNat then
        .next ((s.setEst (est3x2 n2.toNat n1.toNat n0.toNat d1.toNat d0.toNat)).finish .none)
      else .next (s.finish .precond) := by
  simp only [execEst3x2, withLimb_written h0, withLimb_written h1, withLimb_written h2, withLimb_written hd0,
    withLimb_written hd1]
  by_cases hnorm : d1.toNat < 2 ^ 63
  · rw [if_pos hnorm, if_neg fun h => not_lt.2 h.1 hnorm]
  · rw [if_neg hnorm]
    by_cases hle : n2.toNat * radix + n1.toNat ≤ d1.toNat * radix + d0.toNat
    · rw [if_neg (not_lt.2 hle), if_pos ⟨not_lt.1 hnorm, hle⟩]
    · rw [if_pos (not_le.1 hle), if_neg fun h => hle h.2]

/-- Settles O39: the check is the estimator's precondition, and under it the estimator is min(β - 1, floor(N3 / D2)). -/
theorem est3x2Result : Obligations.Est3x2Result := by
  intro s n0 n1 n2 d0 d1 h0 h1 h2 hd0 hd1
  rw [exec_est3x2, execEst3x2_written h0 h1 h2 hd0 hd1]
  by_cases hpre : EstPre n2.toNat n1.toNat d1.toNat d0.toNat
  · have hradix : radix ^ 2 = 2 ^ 128 := by norm_num [radix]
    rw [if_pos hpre, if_neg (mt (not_estPre_iff ..).2 (not_not.2 hpre)), est3x2_spec hpre n1.isLt n0.isLt d0.isLt, hradix]
    rfl
  · rw [if_neg hpre, if_pos ((not_estPre_iff ..).1 hpre)]

/-- The estimator's special branch (R106). -/
theorem est3x2_special (n1 n0 d1 d0 : Nat) :
    est3x2 d1 n1 n0 d1 d0 =
      if ((d0 * radix : Nat) : Int) - (n1 * radix + n0 : Nat) ≤ (d1 * radix + d0 : Nat) then radix - 1 else radix - 2 :=
  if_pos rfl

/-- Settles O40: with equal top limbs the precondition is n1 ≤ d0, and the digit is that of the special branch. -/
theorem est3x2SpecialBranch : Obligations.Est3x2SpecialBranch := by
  intro s n0 n1 d0 d1 h0 h1 h2 hd0 hd1 hnorm hle
  have hpre : EstPre d1.toNat n1.toNat d1.toNat d0.toNat := ⟨hnorm, Nat.add_le_add_left hle _⟩
  rw [exec_est3x2, execEst3x2_written h0 h1 h2 hd0 hd1, if_pos hpre, est3x2_special]
  refine ⟨_, rfl, rfl, fun hres => ?_, fun hres => ?_⟩
  · rw [if_pos (by simpa [radix] using hres)]
    rfl
  · rw [if_neg (by simpa [radix] using hres)]
    rfl

/-- Everything EST3X2 and the U2F commands can answer: a failed check, or the one result register and code NONE. -/
theorem exec_est_outbound_next {s t : State} {i : Instr} (hi : i ∈ [Instr.est3x2, .u2f64, .u2f32])
    (h : exec i s = .next t) :
    (∃ c, t = s.finish c) ∨ (i = .est3x2 ∧ ∃ q, t = (s.setEst q).finish .none) ∨
      (i ≠ .est3x2 ∧ ∃ x, t = (s.setFres x).finish .none) := by
  rcases exec_cases i s with ⟨c, _, he⟩ | ⟨rfl, _⟩ | ⟨rfl, q, he⟩ | ⟨hop, _⟩ | ⟨hop, x, he⟩ | ⟨buf, j, he, _⟩
  · exact .inl ⟨c, by simpa [he] using h.symm⟩
  · simp at hi
  · exact .inr (.inl ⟨rfl, q, by simpa [he] using h.symm⟩)
  · simp only [List.mem_cons, List.not_mem_nil, or_false] at hi
    rcases hi with rfl | rfl | rfl <;> simp [Instr.opcode] at hop
  · have hne : i ≠ .est3x2 := by rintro rfl; simp [Instr.opcode] at hop
    exact .inr (.inr ⟨hne, x, by simpa [he] using h.symm⟩)
  · simp [he] at h

/-- Settles O41: each answer differs from s in STATUS, INFLIGHT and the one result register. -/
theorem estAndOutboundFrame : Obligations.EstAndOutboundFrame := by
  intro s t i hi h
  rcases exec_est_outbound_next hi h with ⟨c, rfl⟩ | ⟨rfl, q, rfl⟩ | ⟨hne, x, rfl⟩
  · exact ⟨sameButResults_finish s c, rfl, rfl, rfl, rfl, rfl, fun _ => rfl, fun _ => rfl, fun _ => ⟨rfl, rfl⟩⟩
  · exact ⟨sameButResults_finish (s.setEst q) .none, rfl, rfl, rfl, rfl, rfl, fun _ => rfl, fun hne => absurd rfl hne,
      fun herr => absurd rfl herr⟩
  · exact ⟨sameButResults_finish (s.setFres x) .none, rfl, rfl, rfl, rfl, rfl, fun heq => absurd heq hne, fun _ => rfl,
      fun herr => absurd rfl herr⟩

end Sys2Proof.Machine
end

section
/-! # The rounding of the float-to-fixed converter and its outcome, class by class (41_float_to_fixed.md R146 to R154) -/

namespace Sys2Proof.Machine

/-! ## Exact rounding (R149, R150) -/

/-- Shifting the mantissa by k bits, to the left or discarding bits to the right, is floor(M · 2^k) over the rationals. -/
theorem shift_eq_floor (m : Nat) (k : Int) :
    (if 0 ≤ k then m * 2 ^ k.toNat else m / 2 ^ (-k).toNat) = ⌊(m : ℚ) * (2 : ℚ) ^ k⌋₊ := by
  rcases le_or_gt 0 k with hk | hk
  · obtain ⟨n, rfl⟩ := Int.eq_ofNat_of_zero_le hk
    have hcast : (m : ℚ) * (2 : ℚ) ^ (n : Int) = (m * 2 ^ n : Nat) := by push_cast; rfl
    rw [if_pos hk, hcast, Nat.floor_natCast, Int.toNat_natCast]
  · obtain ⟨n, hn⟩ := Int.eq_ofNat_of_zero_le (neg_nonneg.2 hk.le)
    have hcast : (m : ℚ) * (2 : ℚ) ^ k = (m : ℚ) / (2 ^ n : Nat) := by
      rw [← neg_neg k, hn, zpow_neg, zpow_natCast, ← div_eq_mul_inv]
      push_cast
      rfl
    rw [if_neg (not_le.2 hk), hcast, Nat.floor_div_eq_div, hn, Int.toNat_natCast]

/-- Rounding half up is the floor of twice the value, halved upwards: floor(x + 1/2) = (floor(2x) + 1) div 2. -/
theorem floor_add_half {x : ℚ} (hx : 0 ≤ x) : ⌊x + 1 / 2⌋₊ = (⌊x * 2⌋₊ + 1) / 2 := by
  have hhalf : x + 1 / 2 = (x * 2 + 1) / (2 : Nat) := by push_cast; ring
  rw [hhalf, Nat.floor_div_natCast, Nat.floor_add_one (by positivity)]

/-- Settles O43: the datapath aligns 2|x| = M · 2^(e+1), and halves its floor upwards. -/
theorem roundingIsExactHalfUp : Obligations.RoundingIsExactHalfUp := by
  intro m e
  have hdouble : (m : ℚ) * (2 : ℚ) ^ (e + 1) = (m : ℚ) * (2 : ℚ) ^ e * 2 := by
    rw [zpow_add_one₀ two_ne_zero, mul_assoc]
  rw [roundHalfUp, shift_eq_floor, hdouble, floor_add_half (by positivity)]

/-- The datapath on the magnitude decomposition of a pattern gives its converted magnitude (R149). -/
theorem roundHalfUp_eq_rounded (fmt : Format) (x : Nat) :
    roundHalfUp (fmt.mantissa x) (fmt.scale x) = fmt.rounded x :=
  roundingIsExactHalfUp _ _

/-! ## The outcome of each class (R147, R148, R151 to R154) -/

/-- The outcome of a finite nonzero operand with the given sign and converted magnitude r (R148, R151, R152). -/
def finiteOutcome (negative : Bool) (r width : Nat) : Kind × Nat :=
  if negative then (.valueNegative, (2 ^ width - r % 2 ^ width) % 2 ^ width)
  else if 2 ^ width ≤ r then (.valueTooLarge, r % 2 ^ width)
  else (.ok, r)

/-- The outcome of an operand of the given class and sign, r being its converted magnitude where it is finite and nonzero (R146). -/
def classOutcome (c : FloatClass) (negative : Bool) (r width : Nat) : Kind × Nat :=
  match c with
  | .nan => (.notANumber, 0)
  | .infinity => if negative then (.valueNegative, 0) else (.valueTooLarge, 0)
  | .zero => (.ok, 0)
  | .subnormal | .normal => finiteOutcome negative r width

/-- The classification gives the outcome of the operand's class, with the exact rounding of R149. -/
theorem classifyAndRound_eq (fmt : Format) (x width : Nat) :
    classifyAndRound fmt x width = classOutcome (fmt.classOf x) (fmt.sign x) (fmt.rounded x) width := by
  rw [← roundHalfUp_eq_rounded, classifyAndRound]
  cases fmt.classOf x <;> rfl

/-! ## Operands with the same value (R144) -/

/-- A finite pattern is a zero, or its mantissa is not 0 (R142). -/
theorem Format.classOf_finite {fmt : Format} {x : Nat} (h : fmt.finite x) :
    (fmt.classOf x = .zero ∧ fmt.mantissa x = 0) ∨
      ((fmt.classOf x = .subnormal ∨ fmt.classOf x = .normal) ∧ fmt.mantissa x ≠ 0) := by
  have hexp : fmt.exponent x ≠ fmt.expOnes := h
  by_cases h0 : fmt.exponent x = 0
  · by_cases hf : fmt.fraction x = 0
    · exact .inl ⟨by rw [classOf, if_neg hexp, if_pos h0, if_pos hf], by rw [mantissa, if_pos h0, hf]⟩
    · exact .inr ⟨.inl (by rw [classOf, if_neg hexp, if_pos h0, if_neg hf]), by rwa [mantissa, if_pos h0]⟩
  · refine .inr ⟨.inr (by rw [classOf, if_neg hexp, if_neg h0]), ?_⟩
    rw [mantissa, if_neg h0]
    positivity

theorem Format.magnitude_eq_zero_iff (fmt : Format) (x : Nat) : fmt.magnitude x = 0 ↔ fmt.mantissa x = 0 := by
  simp [magnitude, zpow_ne_zero]

/-- The outcome of a finite pattern is a function of its sign and its exact magnitude. -/
theorem classifyAndRound_finite {fmt : Format} {x : Nat} (h : fmt.finite x) (width : Nat) :
    classifyAndRound fmt x width =
      if fmt.magnitude x = 0 then (.ok, 0) else finiteOutcome (fmt.sign x) ⌊fmt.magnitude x + 1 / 2⌋₊ width := by
  rw [classifyAndRound_eq]
  rcases Format.classOf_finite h with ⟨hclass, hm⟩ | ⟨hclass | hclass, hm⟩
  · rw [hclass, if_pos ((fmt.magnitude_eq_zero_iff x).2 hm), classOutcome]
  all_goals rw [hclass, if_neg (mt (fmt.magnitude_eq_zero_iff x).1 hm), classOutcome, Format.rounded]

/-- Settles O47: the outcome depends on the class alone, on the sign of an infinity, or on a finite operand's sign and magnitude. -/
theorem binary32AgreesWithBinary64 : Obligations.Binary32AgreesWithBinary64 := by
  rintro x y width (⟨hx, hy⟩ | ⟨hx, hy, hsign⟩ | ⟨hx, hy, hsign, hmag⟩)
  · rw [classifyAndRound_eq, classifyAndRound_eq, hx, hy, classOutcome, classOutcome]
  · rw [classifyAndRound_eq, classifyAndRound_eq, hx, hy, hsign, classOutcome, classOutcome]
  · rw [classifyAndRound_finite hx, classifyAndRound_finite hy, hsign, hmag]

end Sys2Proof.Machine
end

section
/-! # The completions of F2U64 and F2U32 (41_float_to_fixed.md R143 to R145, R155 to R158) -/

namespace Sys2Proof.Machine

/-! ## The BITS check (R145) -/

theorem exec_f2u64 {i : Instr} (h : i.opcode = .f2u64) (s : State) :
    exec i s = convertInbound binary64 s.operands.fin.toNat i.policy s := by
  cases i with
  | f2u64Try | f2u64Sat | f2u64Wrap => rfl
  | _ => cases h

theorem exec_f2u32 {i : Instr} (h : i.opcode = .f2u32) (s : State) :
    exec i s = convertInbound binary32 (s.operands.fin.extractLsb' 0 32).toNat i.policy s := by
  rw [← bitsOf_low32]
  cases i with
  | f2u32Try | f2u32Sat | f2u32Wrap => rfl
  | _ => cases h

/-- The six F2U commands are the conversion of one pattern under their policy. -/
theorem exec_inbound {i : Instr} (h : i.opcode = .f2u64 ∨ i.opcode = .f2u32) (s : State) :
    ∃ fmt x, exec i s = convertInbound fmt x i.policy s := by
  rcases h with h | h
  · exact ⟨_, _, exec_f2u64 h s⟩
  · exact ⟨_, _, exec_f2u32 h s⟩

theorem exec_outbound {i : Instr} (h : i.opcode = .u2f64 ∨ i.opcode = .u2f32) (s : State) :
    ∃ fmt, exec i s = convertFixed fmt s := by
  rcases Instr.eq_u2f_of_opcode h with rfl | rfl
  · exact ⟨binary64, rfl⟩
  · exact ⟨binary32, rfl⟩

theorem convertInbound_tooWide {s : State} (h : 64 * s.lmax < s.operands.bits.toNat) (fmt : Format) (x : Nat) (pol : Policy) :
    convertInbound fmt x pol s = .next (s.finish .precond) := if_pos h

theorem convertInbound_inRange {s : State} (h : s.operands.bits.toNat ≤ 64 * s.lmax) (fmt : Format) (x : Nat) (pol : Policy) :
    convertInbound fmt x pol s = .next (s.finishInbound s.operands.bits.toNat
      (project pol s.operands.bits.toNat (classifyAndRound fmt x s.operands.bits.toNat))) := if_neg (not_lt.2 h)

theorem convertFixed_tooWide {s : State} (h : 64 * s.lmax < s.operands.bits.toNat) (fmt : Format) :
    convertFixed fmt s = .next (s.finish .precond) := if_pos h

/-- Settles O42: the check comes first in both converters. -/
theorem conversionWidthCheck : Obligations.ConversionWidthCheck := by
  intro s i hdiv hest hwide
  have inbound (h : i.opcode = .f2u64 ∨ i.opcode = .f2u32) : exec i s = .next (s.finish .precond) := by
    obtain ⟨fmt, x, he⟩ := exec_inbound h s
    rw [he, convertInbound_tooWide hwide]
  have outbound (h : i.opcode = .u2f64 ∨ i.opcode = .u2f32) : exec i s = .next (s.finish .precond) := by
    obtain ⟨fmt, he⟩ := exec_outbound h s
    rw [he, convertFixed_tooWide hwide]
  cases i with
  | div => exact absurd rfl hdiv
  | est3x2 => exact absurd rfl hest
  | f2u64Try | f2u64Sat | f2u64Wrap => exact inbound (.inl rfl)
  | f2u32Try | f2u32Sat | f2u32Wrap => exact inbound (.inr rfl)
  | u2f64 => exact outbound (.inl rfl)
  | u2f32 => exact outbound (.inr rfl)

/-! ## The results under each policy (R155 to R157) -/

/-- A pair of F2U64 and F2U32 commands under one policy, with BITS in range: the outcome of the operand's pattern, projected. -/
theorem exec_inbound_inRange {s : State} {i i64 i32 : Instr} {fmt : Format} {x : Nat} {pol : Policy}
    (hi : (i, fmt, x) ∈ [(i64, binary64, s.operands.fin.toNat), (i32, binary32, (s.operands.fin.extractLsb' 0 32).toNat)])
    (h64 : i64.opcode = .f2u64 ∧ i64.policy = pol) (h32 : i32.opcode = .f2u32 ∧ i32.policy = pol)
    (hw : s.operands.bits.toNat ≤ 64 * s.lmax) :
    exec i s = .next (s.finishInbound s.operands.bits.toNat
      (project pol s.operands.bits.toNat (classifyAndRound fmt x s.operands.bits.toNat))) := by
  simp only [List.mem_cons, List.not_mem_nil, or_false, Prod.mk.injEq] at hi
  rcases hi with ⟨rfl, rfl, rfl⟩ | ⟨rfl, rfl, rfl⟩
  · rw [exec_f2u64 h64.1, h64.2, convertInbound_inRange hw]
  · rw [exec_f2u32 h32.1, h32.2, convertInbound_inRange hw]

/-- Settles O44: `.TRY` reports the outcome of the operand's class as it stands. -/
theorem inboundTryResult : Obligations.InboundTryResult := by
  intro s i fmt x hi hw
  rw [exec_inbound_inRange (pol := .try_) hi ⟨rfl, rfl⟩ ⟨rfl, rfl⟩ hw, classifyAndRound_eq]
  congr 1
  cases fmt.classOf x with
  | nan | zero => rfl
  | infinity => cases fmt.sign x <;> rfl
  | subnormal | normal =>
    rw [classOutcome, finiteOutcome]
    split_ifs <;> rfl

/-- `.SAT` clamps a finite nonzero operand to 0 below and to 2^BITS - 1 above (R156). -/
theorem project_sat_finiteOutcome (negative : Bool) (r width : Nat) :
    project .sat width (finiteOutcome negative r width) =
      { value := if negative then 0 else min r (2 ^ width - 1), ewidth := 0, code := .none } := by
  have hpos : 0 < 2 ^ width := by positivity
  cases negative with
  | true => rfl
  | false =>
    by_cases hr : 2 ^ width ≤ r
    · have hmin : min r (2 ^ width - 1) = 2 ^ width - 1 := by omega
      simp [project, projectSat, finiteOutcome, hr, hmin]
    · have hmin : min r (2 ^ width - 1) = r := by omega
      simp [project, projectSat, finiteOutcome, hr, hmin]

/-- Settles O45: the classes without a magnitude clamp to a constant, and a finite nonzero operand to the range of the type. -/
theorem inboundSatResult : Obligations.InboundSatResult := by
  intro s i fmt x hi hw
  rw [exec_inbound_inRange (pol := .sat) hi ⟨rfl, rfl⟩ ⟨rfl, rfl⟩ hw, classifyAndRound_eq]
  congr 1
  cases fmt.classOf x with
  | nan | zero => rfl
  | infinity => cases fmt.sign x <;> rfl
  | subnormal | normal =>
    rw [classOutcome, project_sat_finiteOutcome]
    cases fmt.sign x <;> rfl

/-- The wrapped negation of R148 is the negation over the integers, mod 2^BITS. -/
theorem wrapped_neg_eq (r : Nat) {n : Nat} (hn : 0 < n) : (n - r % n) % n = (-(r : Int) % n).toNat := by
  have hle : r % n ≤ n := (Nat.mod_lt r hn).le
  have hcast : (((n - r % n) % n : Nat) : Int) = -(r : Int) % n := by
    push_cast [Nat.cast_sub hle]
    rw [Int.sub_emod_emod, sub_eq_add_neg, Int.add_emod_left]
  rw [← hcast, Int.toNat_natCast]

/-- `.WRAP` leaves the signed value of a finite nonzero operand mod 2^BITS (R157). -/
theorem project_wrap_finiteOutcome (negative : Bool) (r width : Nat) :
    project .wrap width (finiteOutcome negative r width) =
      { value := if negative then (-(r : Int) % (2 ^ width : Nat)).toNat else r % 2 ^ width, ewidth := 0, code := .none } := by
  cases negative with
  | true =>
    rw [← wrapped_neg_eq r (by positivity)]
    rfl
  | false =>
    by_cases hr : 2 ^ width ≤ r
    · simp [project, projectWrap, finiteOutcome, hr]
    · simp [project, projectWrap, finiteOutcome, hr, Nat.mod_eq_of_lt (not_le.1 hr)]

/-- Settles O46: the classes without a magnitude leave 0, and a finite nonzero operand its value mod 2^BITS. -/
theorem inboundWrapResult : Obligations.InboundWrapResult := by
  intro s i fmt x hi hw
  rw [exec_inbound_inRange (pol := .wrap) hi ⟨rfl, rfl⟩ ⟨rfl, rfl⟩ hw, classifyAndRound_eq]
  congr 1
  cases fmt.classOf x with
  | nan | zero => rfl
  | infinity => cases fmt.sign x <;> rfl
  | subnormal | normal =>
    rw [classOutcome, project_wrap_finiteOutcome]
    cases fmt.sign x <;> rfl

/-! ## What the commands write and leave unchanged (R158) -/

/-- A value of BITS bits fits in L limbs (10_state.md R45). -/
theorem two_pow_le_radix_pow_limbCount (width : Nat) : 2 ^ width ≤ radix ^ limbCount width := by
  rw [radix, ← pow_mul]
  exact Nat.pow_le_pow_right two_pos (by simp only [limbCount]; omega)

/-- A run written from index 0 is written. -/
theorem Limbs.written_writeFrom (l : Limbs) (k v : Nat) :
    Limbs.Written (Limbs.writeFrom l 0 ((toLimbs k v).map Word.ofNat)) k := by
  intro j hj
  rw [Limbs.read_writeFrom_below l _ (by simpa using hj), Option.isSome_some]

/-- Settles O48: the projected value is below 2^BITS, so L limbs hold it whole. -/
theorem inboundResultIsCanonical : Obligations.InboundResultIsCanonical := by
  intro s t i hop hw h
  obtain ⟨fmt, x, he⟩ := exec_inbound hop s
  rw [he, convertInbound_inRange hw] at h
  cases h
  have hlt := project_value_lt i.policy fmt x s.operands.bits.toNat
  refine ⟨Limbs.written_writeFrom s.a _ _, ?_⟩
  calc Limbs.val (Limbs.writeFrom s.a 0 _) (limbCount s.operands.bits.toNat)
      = (project i.policy s.operands.bits.toNat (classifyAndRound fmt x s.operands.bits.toNat)).value :=
        Limbs.val_writeFrom s.a (hlt.trans_le (two_pow_le_radix_pow_limbCount _))
    _ < 2 ^ s.operands.bits.toNat := hlt

theorem sameButResults_finishInbound (s : State) (width : Nat) (r : Projected) : s.sameButResults (s.finishInbound width r) := by
  simp [State.sameButResults, State.finishInbound]

/-- Settles O49: a failed check changes STATUS and INFLIGHT alone, and the results reach EWIDTH and L limbs of A. -/
theorem inboundFrame : Obligations.InboundFrame := by
  intro s t i hop h
  obtain ⟨fmt, x, hexec⟩ := exec_inbound hop s
  rw [hexec] at h
  rcases convertInbound_cases fmt x i.policy s with ⟨_, he⟩ | ⟨_, he⟩ <;> rw [he] at h <;> cases h
  case inl => exact ⟨sameButResults_finish s .precond, rfl, rfl, rfl, rfl, rfl, fun _ _ => rfl⟩
  case inr =>
    refine ⟨sameButResults_finishInbound s _ _, rfl, rfl, rfl, rfl, rfl, fun j hj => ?_⟩
    exact Limbs.read_writeFrom_above _ _ (by simpa using hj)

end Sys2Proof.Machine
end

section
/-! # The completions of U2F64 and U2F32 (42_fixed_to_float.md R175 to R178) -/

namespace Sys2Proof.Machine

/-- The canonical check of R177 on the top limb alone: with BITS - 64·(L-1) bits of it in use, it passes exactly where X < 2^BITS. -/
theorem limbsVal_lt_two_pow_iff {xs : List Nat} (h : AllLimbs xs) {k : Nat} (hk : xs.length = k + 1) (b : Nat) :
    limbsVal xs < 2 ^ (64 * k + b) ↔ xs.getD k 0 / 2 ^ b = 0 := by
  have htop : limbsVal (xs.drop k) = xs.getD k 0 := by
    rw [List.drop_eq_getElem_cons (by omega), List.drop_eq_nil_of_le (by omega), List.getD_eq_getElem _ _ (by omega)]
    rfl
  have hlow : limbsVal (xs.take k) < radix ^ k := limbsVal_take_lt h (by omega)
  have hpow : 2 ^ (64 * k + b) = 2 ^ b * radix ^ k := by rw [radix, ← pow_mul, pow_add, Nat.mul_comm]
  rw [limbsVal_take_drop (by omega : k ≤ xs.length), htop, hpow, ← Nat.div_lt_iff_lt_mul (pow_pos radix_pos k),
    Nat.add_mul_div_left _ _ (pow_pos radix_pos k), Nat.div_eq_of_lt hlow, zero_add, Nat.div_eq_zero_iff_lt (by positivity)]

/-- U2F with BITS in range and A[0..L-1] written: the conversion of X where X < 2^BITS, else PRECOND. -/
theorem convertFixed_written {s : State} (fmt : Format) (hw : s.operands.bits.toNat ≤ 64 * s.lmax)
    (hA : Limbs.Written s.operands.a (limbCount s.operands.bits.toNat)) :
    convertFixed fmt s =
      if Limbs.val s.operands.a (limbCount s.operands.bits.toNat) < 2 ^ s.operands.bits.toNat then
        .next ((s.setFres (convertOutbound fmt (Limbs.val s.operands.a (limbCount s.operands.bits.toNat)))).finish .none)
      else .next (s.finish .precond) := by
  simp only [convertFixed]
  generalize hL : limbCount s.operands.bits.toNat = L at hA ⊢
  rw [if_neg (not_lt.2 hw)]
  cases L with
  | zero => rw [if_pos rfl, if_pos (show Limbs.val s.operands.a 0 < _ from Nat.two_pow_pos _)]; rfl
  | succ k =>
    obtain ⟨top, hread, htop⟩ := hA.read (Nat.lt_succ_self k)
    have hbits : s.operands.bits.toNat = 64 * k + (s.operands.bits.toNat - 64 * k) := by
      simp only [limbCount] at hL
      omega
    have hcheck := limbsVal_lt_two_pow_iff (Limbs.values_lt s.operands.a (k + 1)) (Limbs.length_values _ _)
      (s.operands.bits.toNat - 64 * k)
    rw [← hbits, ← htop] at hcheck
    rw [if_neg k.succ_ne_zero, Nat.add_sub_cancel, withLimb_written hread, withLimbs_written hA]
    by_cases hX : Limbs.val s.operands.a (k + 1) < 2 ^ s.operands.bits.toNat
    · rw [if_pos hX, if_neg (not_not.2 (hcheck.1 hX))]
      rfl
    · rw [if_neg hX, if_pos (mt hcheck.2 hX)]

/-- Settles O50: a canonical operand passes the check of its top limb. -/
theorem outboundResult : Obligations.OutboundResult := by
  intro s i fmt hi w X hw hA hX
  have hfixed := (convertFixed_written fmt hw hA).trans (if_pos hX)
  simp only [List.mem_cons, List.not_mem_nil, or_false, Prod.mk.injEq] at hi
  rcases hi with ⟨rfl, rfl⟩ | ⟨rfl, rfl⟩ <;> exact hfixed

/-- Settles O51: an operand of 2^BITS or more fails the check of its top limb. -/
theorem outboundRefusesNonCanonical : Obligations.OutboundRefusesNonCanonical := by
  intro s i hi w hw hA hX
  have hfixed (fmt : Format) := (convertFixed_written fmt hw hA).trans (if_neg (not_lt.2 hX))
  simp only [List.mem_cons, List.not_mem_nil, or_false] at hi
  rcases hi with rfl | rfl
  · exact hfixed binary64
  · exact hfixed binary32

end Sys2Proof.Machine
end

section
/-! # The rounded window of the fixed-to-float converter (42_fixed_to_float.md R171 to R173) -/

namespace Sys2Proof.Machine

/-! ## Values of at most p significant bits -/

/-- v has at most p significant bits: the bits below its p highest are 0 (R172). -/
def Significant (p v : Nat) : Prop := 2 ^ (bitLen v - p) ∣ v

theorem significant_of_bitLen_le {p v : Nat} (h : bitLen v ≤ p) : Significant p v := by
  rw [Significant, Nat.sub_eq_zero_of_le h, pow_zero]
  exact one_dvd v

theorem Significant.mul_two_pow {p v : Nat} (h : Significant p v) (e : Nat) : Significant p (v * 2 ^ e) := by
  by_cases hv : v = 0
  · simp [hv, Significant]
  · have hpow : 2 ^ (bitLen (v * 2 ^ e) - p) ∣ 2 ^ (bitLen v - p) * 2 ^ e := by
      rw [← pow_add, bitLen_mul_two_pow hv]
      exact pow_dvd_pow 2 (by omega)
    exact hpow.trans (Nat.mul_dvd_mul_right h _)

theorem bitLen_normalized {f m : Nat} (hlo : 2 ^ f ≤ m) (hhi : m < 2 ^ (f + 1)) (k : Nat) : bitLen (m * 2 ^ k) = f + 1 + k := by
  have hm : m ≠ 0 := (lt_of_lt_of_le (by positivity) hlo).ne'
  rw [bitLen_mul_two_pow hm, bitLen_eq hlo hhi]

/-! ## Rounding the window (R171, R172) -/

/-- RNE of a value of more than f + 1 bits, normalized: m · 2^k with m of f + 1 bits. It is at most half of the discarded power
away from the value, and m is even where it is exactly half away. -/
theorem rne_normalized {f w : Nat} (hf : 1 ≤ f) (h : f + 1 < bitLen w) :
    ∃ m k, rne (f + 1) w = m * 2 ^ k ∧ 2 ^ f ≤ m ∧ m < 2 ^ (f + 1) ∧
      2 * rne (f + 1) w ≤ 2 * w + 2 ^ (bitLen w - (f + 1)) ∧ 2 * w ≤ 2 * rne (f + 1) w + 2 ^ (bitLen w - (f + 1)) ∧
      (2 * rne (f + 1) w = 2 * w + 2 ^ (bitLen w - (f + 1)) ∨ 2 * w = 2 * rne (f + 1) w + 2 ^ (bitLen w - (f + 1)) →
        m % 2 = 0) := by
  obtain ⟨q, hq, hlo, hhi, hup, hdown, htie⟩ := rne_inexact (by omega) h
  rcases hhi.lt_or_eq with hlt | rfl
  · exact ⟨q, _, hq, hlo, hlt, hup, hdown, htie⟩
  · refine ⟨2 ^ f, bitLen w - (f + 1) + 1, by rw [hq, pow_succ, pow_succ]; ring, le_refl _,
      Nat.pow_lt_pow_right one_lt_two (by omega), hup, hdown, fun _ => ?_⟩
    rw [← Nat.sub_add_cancel hf, pow_succ, Nat.mul_mod_left]

theorem rne_significant {f : Nat} (hf : 1 ≤ f) (w : Nat) : Significant (f + 1) (rne (f + 1) w) := by
  rcases le_or_gt (bitLen w) (f + 1) with h | h
  · rw [rne_exact h]
    exact significant_of_bitLen_le h
  · obtain ⟨m, k, hmk, hlo, hhi, -⟩ := rne_normalized hf h
    rw [hmk]
    exact (significant_of_bitLen_le (bitLen_eq hlo hhi).le).mul_two_pow k

/-- RNE stays between the powers of two around the value. -/
theorem rne_bounds {p w : Nat} (hp : 1 ≤ p) (hw : w ≠ 0) : 2 ^ (bitLen w - 1) ≤ rne p w ∧ rne p w ≤ 2 ^ bitLen w := by
  rcases le_or_gt (bitLen w) p with h | h
  · rw [rne_exact h]
    exact ⟨two_pow_bitLen_le hw, (lt_two_pow_bitLen w).le⟩
  · obtain ⟨q, hq, hlo, hhi, -⟩ := rne_inexact hp h
    rw [hq]
    constructor
    · calc 2 ^ (bitLen w - 1) = 2 ^ (p - 1) * 2 ^ (bitLen w - p) := by rw [← pow_add]; congr 1; omega
        _ ≤ q * 2 ^ (bitLen w - p) := Nat.mul_le_mul_right _ hlo
    · calc q * 2 ^ (bitLen w - p) ≤ 2 ^ p * 2 ^ (bitLen w - p) := Nat.mul_le_mul_right _ hhi
        _ = 2 ^ bitLen w := by rw [← pow_add]; congr 1; omega

/-- RNE rounds up past the top bit exactly from half of the discarded power below the next power of two on: there the quotient
2^p - 1 is odd, so a tie goes up. -/
theorem two_pow_bitLen_le_rne_iff {p w : Nat} (hp : 1 ≤ p) (h : p < bitLen w) :
    2 ^ bitLen w ≤ rne p w ↔ 2 ^ bitLen w - 2 ^ (bitLen w - p - 1) ≤ w := by
  obtain ⟨q, hq, -, hhi, hup, hdown, htie⟩ := rne_inexact hp h
  obtain ⟨s, hs⟩ : ∃ s, bitLen w - p = s + 1 := ⟨bitLen w - p - 1, by omega⟩
  have hsplit : 2 ^ bitLen w = 2 ^ p * 2 ^ (s + 1) := by rw [← pow_add]; congr 1; omega
  have hhalf : 2 ^ (s + 1) = 2 * 2 ^ s := pow_succ' 2 s
  rw [hs] at hq hup hdown htie ⊢
  rw [Nat.add_sub_cancel]
  constructor
  · intro hle
    omega
  · intro hle
    rcases hhi.lt_or_eq with hlt | rfl
    · have hq1 : (q + 1) * 2 ^ (s + 1) ≤ 2 ^ p * 2 ^ (s + 1) := Nat.mul_le_mul_right _ hlt
      have hge : 2 ^ p * 2 ^ (s + 1) ≤ (q + 1) * 2 ^ (s + 1) := by
        rw [add_mul, one_mul]
        omega
      have hodd : q + 1 = 2 ^ p := le_antisymm hlt (Nat.le_of_mul_le_mul_right hge (by positivity))
      rw [add_mul, one_mul] at hq1 hge
      have heven : q % 2 = 0 := htie (.inr (by omega))
      have htwo : 2 ^ p = 2 * 2 ^ (p - 1) := by rw [← pow_succ', Nat.sub_add_cancel hp]
      omega
    · rw [hq, hsplit]

theorem bitLen_div_two_pow (v e : Nat) : bitLen (v / 2 ^ e) = bitLen v - e := by
  refine eq_of_forall_ge_iff fun k => ?_
  rw [bitLen_le_iff, Nat.div_lt_iff_lt_mul (by positivity), ← pow_add, ← bitLen_le_iff, Nat.sub_le_iff_le_add]

theorem bitLen_window_add (x : Nat) : bitLen (window x) + windowExp x = bitLen x := by
  rw [window, bitLen_div_two_pow, windowExp]
  omega

theorem window_ne_zero {x : Nat} (hx : x ≠ 0) : window x ≠ 0 := by
  intro h
  have hlen := bitLen_window_add x
  have := bitLen_pos hx
  rw [h, bitLen_zero, windowExp] at hlen
  omega

/-- A value of at most 64 bits is its own window (R171). -/
theorem window_narrow {x : Nat} (hx : x < 2 ^ 64) : windowExp x = 0 ∧ window x = x := by
  have hexp : windowExp x = 0 := Nat.sub_eq_zero_of_le ((bitLen_le_iff x 64).2 hx)
  exact ⟨hexp, by rw [window, hexp, pow_zero, Nat.div_one]⟩

theorem Format.precision_pos (fmt : Format) : 1 ≤ fmt.precision := Nat.le_add_left 1 _

/-- V of R173: the rounded window, scaled. -/
def Format.scaledWindow (fmt : Format) (x : Nat) : Nat := rne fmt.precision (window x) * 2 ^ windowExp x

theorem Format.scaledWindow_bounds (fmt : Format) {x : Nat} (hx : x ≠ 0) :
    2 ^ (bitLen x - 1) ≤ fmt.scaledWindow x ∧ fmt.scaledWindow x ≤ 2 ^ bitLen x := by
  have hw := window_ne_zero hx
  have hpos := bitLen_pos hw
  have hlen := bitLen_window_add x
  obtain ⟨hlo, hhi⟩ := rne_bounds (p := fmt.precision) fmt.precision_pos hw
  have hlow : 2 ^ (bitLen x - 1) = 2 ^ (bitLen (window x) - 1) * 2 ^ windowExp x := by rw [← pow_add]; congr 1; omega
  rw [hlow, ← hlen, pow_add]
  exact ⟨Nat.mul_le_mul_right _ hlo, Nat.mul_le_mul_right _ hhi⟩

theorem Format.scaledWindow_ne_zero (fmt : Format) {x : Nat} (hx : x ≠ 0) : fmt.scaledWindow x ≠ 0 :=
  (lt_of_lt_of_le (by positivity) (fmt.scaledWindow_bounds hx).1).ne'

theorem Format.scaledWindow_zero (fmt : Format) : fmt.scaledWindow 0 = 0 := by
  rw [scaledWindow, (window_narrow (by norm_num : 0 < 2 ^ 64)).2, rne_exact (by simp), zero_mul]

end Sys2Proof.Machine
end

section
/-! # The pattern of U2F64 and U2F32 (42_fixed_to_float.md R170, R173, R174, R178, R181) -/

namespace Sys2Proof.Machine

/-- What the conversion needs of a format's constants (41_float_to_fixed.md R141). -/
structure Format.Outbound (fmt : Format) : Prop where
  fracBits_pos : 1 ≤ fmt.fracBits
  precision_le : fmt.precision ≤ 63
  bias_pos : 1 ≤ fmt.bias
  emax_ge : 64 ≤ fmt.emax
  expOnes_eq : fmt.expOnes = fmt.emax + fmt.bias + 1

theorem outbound_of_mem {fmt : Format} (h : fmt ∈ [binary64, binary32]) : fmt.Outbound := by
  simp only [List.mem_cons, List.not_mem_nil, or_false] at h
  rcases h with rfl | rfl <;> constructor <;> decide

@[simp] theorem Format.exponent_zero (fmt : Format) : fmt.exponent 0 = 0 := by simp [exponent, bitsOf]

@[simp] theorem Format.sign_zero (fmt : Format) : fmt.sign 0 = false := by simp [sign, bitsOf]

@[simp] theorem Format.magnitude_zero (fmt : Format) : fmt.magnitude 0 = 0 := by simp [magnitude, mantissa, fraction, bitsOf]

theorem Format.expOnes_lt (fmt : Format) : fmt.expOnes < 2 ^ fmt.expBits := Nat.sub_lt (by positivity) one_pos

theorem convertOutbound_zero (fmt : Format) : convertOutbound fmt 0 = 0 := if_pos rfl

theorem convertOutbound_overflow {fmt : Format} {x : Nat} (h : 2 ^ (fmt.emax + 1) ≤ fmt.scaledWindow x) :
    convertOutbound fmt x = fmt.infinity := by
  have hx : x ≠ 0 := by
    rintro rfl
    rw [fmt.scaledWindow_zero] at h
    exact absurd h (not_le.2 (by positivity))
  exact (if_neg hx).trans (if_pos h)

theorem convertOutbound_finite {fmt : Format} {x : Nat} (hx : x ≠ 0) (h : fmt.scaledWindow x < 2 ^ (fmt.emax + 1)) :
    convertOutbound fmt x = fmt.encodeFinite (fmt.scaledWindow x) := (if_neg hx).trans (if_neg (not_le.2 h))

section
variable {fmt : Format} (hfmt : fmt.Outbound)
include hfmt

theorem Format.Outbound.expBits_pos : 1 ≤ fmt.expBits := by
  by_contra h
  have hexp := hfmt.expOnes_eq
  rw [expOnes, Nat.lt_one_iff.1 (not_le.1 h)] at hexp
  omega

/-- The fields of the pattern of +∞. -/
theorem Format.Outbound.infinity_fields :
    fmt.fraction fmt.infinity = 0 ∧ fmt.exponent fmt.infinity = fmt.expOnes ∧ fmt.sign fmt.infinity = false ∧
      fmt.infinity < 2 ^ (fmt.fracBits + fmt.expBits) :=
  fields_of_pattern fmt (f := 0) (by positivity) fmt.expOnes_lt hfmt.fracBits_pos hfmt.expBits_pos

/-- The pattern of a finite V is that of a positive normal number with V's exponent. -/
theorem Format.Outbound.encodeFinite_normal {v : Nat} (hv : v ≠ 0) (hlt : v < 2 ^ (fmt.emax + 1)) :
    (fmt.exponent (fmt.encodeFinite v) = bitLen v - 1 + fmt.bias ∧ fmt.exponent (fmt.encodeFinite v) ≠ 0 ∧
        fmt.exponent (fmt.encodeFinite v) ≠ fmt.expOnes) ∧
      fmt.sign (fmt.encodeFinite v) = false ∧ fmt.encodeFinite v < 2 ^ (fmt.fracBits + fmt.expBits) ∧
      fmt.mantissa (fmt.encodeFinite v) = if bitLen v - 1 ≤ fmt.fracBits then v * 2 ^ (fmt.fracBits - (bitLen v - 1))
        else v / 2 ^ (bitLen v - 1 - fmt.fracBits) := by
  have hlen := (bitLen_le_iff v _).2 hlt
  have hbias := hfmt.bias_pos
  have hones := hfmt.expOnes_eq
  have hexpOnes := fmt.expOnes_lt
  obtain ⟨hexp, hsign, hwidth, hfrac⟩ := encodeFinite_fields fmt hv hfmt.fracBits_pos hfmt.expBits_pos (by omega)
  refine ⟨⟨hexp, by omega, by omega⟩, hsign, hwidth, ?_⟩
  rw [mantissa, if_neg (by omega), hfrac]

/-- The pattern of a finite V of at most p significant bits encodes V exactly. -/
theorem Format.Outbound.magnitude_encodeFinite {v : Nat} (hv : v ≠ 0) (hlt : v < 2 ^ (fmt.emax + 1))
    (hsig : Significant fmt.precision v) : fmt.magnitude (fmt.encodeFinite v) = v := by
  obtain ⟨⟨hexp, hexp0, -⟩, -, -, hmant⟩ := hfmt.encodeFinite_normal hv hlt
  have hpos := bitLen_pos hv
  obtain ⟨t, ht⟩ : ∃ t, bitLen v = t + 1 := ⟨bitLen v - 1, by omega⟩
  rw [ht, Nat.add_sub_cancel] at hmant hexp
  have hscale : fmt.scale (fmt.encodeFinite v) = (t : Int) - fmt.fracBits := by
    rw [scale, if_neg hexp0, hexp]
    push_cast
    ring
  rw [magnitude, hscale, hmant]
  split
  · next hle =>
    obtain ⟨d, hd⟩ := Nat.exists_eq_add_of_le hle
    have hneg : (t : Int) - (t + d : Nat) = -(d : Int) := by push_cast; ring
    rw [hd, Nat.add_sub_cancel_left, hneg, zpow_neg, zpow_natCast, Nat.cast_mul, Nat.cast_pow, Nat.cast_two,
      mul_inv_cancel_right₀ (by positivity)]
  · next hgt =>
    obtain ⟨d, rfl⟩ := Nat.exists_eq_add_of_le (not_le.1 hgt).le
    rw [Significant, ht, precision] at hsig
    have hdvd : 2 ^ d ∣ v := by convert hsig using 2; omega
    rw [Nat.add_sub_cancel_left, Nat.cast_add, add_sub_cancel_left, zpow_natCast]
    exact_mod_cast Nat.div_mul_cancel hdvd

/-- The mantissa of the pattern of a normalized V is that of V. -/
theorem Format.Outbound.mantissa_encodeFinite {m k : Nat} (hlo : 2 ^ fmt.fracBits ≤ m) (hhi : m < 2 ^ (fmt.fracBits + 1))
    (hlt : m * 2 ^ k < 2 ^ (fmt.emax + 1)) : fmt.mantissa (fmt.encodeFinite (m * 2 ^ k)) = m := by
  have hm : m * 2 ^ k ≠ 0 := mul_ne_zero (lt_of_lt_of_le (by positivity) hlo).ne' (by positivity)
  obtain ⟨-, -, -, hmant⟩ := hfmt.encodeFinite_normal hm hlt
  rw [hmant, bitLen_normalized hlo hhi k]
  split
  · next hle =>
    obtain rfl : k = 0 := by omega
    simp
  · rw [show fmt.fracBits + 1 + k - 1 - fmt.fracBits = k by omega, Nat.mul_div_cancel _ (by positivity)]

theorem Format.Outbound.significant_scaledWindow (x : Nat) : Significant fmt.precision (fmt.scaledWindow x) :=
  (rne_significant hfmt.fracBits_pos _).mul_two_pow _

theorem Format.Outbound.finite_convertOutbound {x : Nat} (h : fmt.scaledWindow x < 2 ^ (fmt.emax + 1)) :
    fmt.finite (convertOutbound fmt x) := by
  by_cases hx : x = 0
  · have hones := hfmt.expOnes_eq
    rw [hx, convertOutbound_zero, finite, exponent_zero]
    omega
  · obtain ⟨⟨-, -, hfinite⟩, -⟩ := hfmt.encodeFinite_normal (fmt.scaledWindow_ne_zero hx) h
    rwa [convertOutbound_finite hx h]

theorem Format.Outbound.magnitude_convertOutbound {x : Nat} (h : fmt.scaledWindow x < 2 ^ (fmt.emax + 1)) :
    fmt.magnitude (convertOutbound fmt x) = fmt.scaledWindow x := by
  by_cases hx : x = 0
  · rw [hx, convertOutbound_zero, magnitude_zero, scaledWindow_zero, Nat.cast_zero]
  · rw [convertOutbound_finite hx h,
      hfmt.magnitude_encodeFinite (fmt.scaledWindow_ne_zero hx) h (hfmt.significant_scaledWindow x)]

theorem Format.Outbound.convertOutbound_eq_infinity_iff (x : Nat) :
    convertOutbound fmt x = fmt.infinity ↔ 2 ^ (fmt.emax + 1) ≤ fmt.scaledWindow x := by
  refine ⟨fun h => ?_, convertOutbound_overflow⟩
  obtain ⟨-, hexp, -⟩ := hfmt.infinity_fields
  by_contra hlt
  exact hfmt.finite_convertOutbound (not_le.1 hlt) (by rw [h, hexp])

end

/-! ## The class, the value and the overflow threshold of the result (R170, R173, R181) -/

/-- Settles O52: the pattern is 0, that of +∞, or the encoding of a finite V > 0. -/
theorem outboundPatternClass : Obligations.OutboundPatternClass := by
  intro X fmt width hmem
  have hboth : fmt.Outbound ∧ 2 ^ (fmt.fracBits + fmt.expBits) ≤ 2 ^ width := by
    simp only [List.mem_cons, List.not_mem_nil, or_false, Prod.mk.injEq] at hmem
    rcases hmem with ⟨rfl, rfl⟩ | ⟨rfl, rfl⟩ <;> exact ⟨outbound_of_mem (by simp), by decide⟩
  obtain ⟨hfmt, hwidth⟩ := hboth
  by_cases hX : X = 0
  · subst hX
    rw [convertOutbound_zero]
    exact ⟨by positivity, fmt.sign_zero, Iff.rfl, fun h => absurd rfl h⟩
  · -- Every other pattern has a nonzero exponent field, so it is not 0.
    have hnonzero (hexp : fmt.exponent (convertOutbound fmt X) ≠ 0) : convertOutbound fmt X = 0 ↔ X = 0 :=
      iff_of_false (fun h => hexp (by rw [h, fmt.exponent_zero])) hX
    rcases lt_or_ge (fmt.scaledWindow X) (2 ^ (fmt.emax + 1)) with hlt | hge
    · obtain ⟨⟨-, hexp0, hexpOnes⟩, hsign, hlt', -⟩ := hfmt.encodeFinite_normal (fmt.scaledWindow_ne_zero hX) hlt
      rw [← convertOutbound_finite hX hlt] at hexp0 hexpOnes hsign hlt'
      exact ⟨hlt'.trans_le hwidth, hsign, hnonzero hexp0,
        fun _ => .inl (by rw [Format.classOf, if_neg hexpOnes, if_neg hexp0])⟩
    · have hones := hfmt.expOnes_eq
      obtain ⟨hfrac, hexp, hsign, hlt'⟩ := hfmt.infinity_fields
      rw [← convertOutbound_overflow hge] at hfrac hexp hsign hlt'
      exact ⟨hlt'.trans_le hwidth, hsign, hnonzero (by omega),
        fun _ => .inr (by rw [Format.classOf, if_pos hexp, if_neg (not_not.2 hfrac)])⟩

/-- Settles O53: where V is not too large it is encoded exactly. -/
theorem outboundValueIsTheRoundedWindow : Obligations.OutboundValueIsTheRoundedWindow := by
  intro X fmt hmem _ hfinite
  exact (outbound_of_mem hmem).magnitude_convertOutbound (not_le.1 (mt convertOutbound_overflow hfinite))

/-- X and V reach 2^(emax+1) together but for an X of exactly emax + 1 bits, whose window has 64 bits and rounds up past its top bit
from the threshold on. -/
theorem Format.Outbound.scaledWindow_overflow_iff {fmt : Format} (hfmt : fmt.Outbound) {x : Nat} (hx : x ≠ 0) :
    2 ^ (fmt.emax + 1) ≤ fmt.scaledWindow x ↔ 2 ^ (fmt.emax + 1) - 2 ^ (fmt.emax - fmt.precision) ≤ x := by
  have hp := hfmt.precision_le
  have hemax := hfmt.emax_ge
  have hlow := two_pow_bitLen_le hx
  have hhigh := lt_two_pow_bitLen x
  obtain ⟨hVlow, hVhigh⟩ := fmt.scaledWindow_bounds hx
  have hdouble : 2 ^ (fmt.emax + 1) = 2 * 2 ^ fmt.emax := pow_succ' 2 _
  have hsmall : 2 ^ (fmt.emax - fmt.precision) < 2 ^ fmt.emax :=
    Nat.pow_lt_pow_right one_lt_two (by rw [precision]; omega)
  rcases lt_trichotomy (bitLen x) (fmt.emax + 1) with hlen | hlen | hlen
  · have hle : 2 ^ bitLen x ≤ 2 ^ fmt.emax := Nat.pow_le_pow_right two_pos (by omega)
    exact iff_of_false (by omega) (by omega)
  · have hexp : windowExp x = fmt.emax - 63 := by rw [windowExp, hlen]; omega
    have hwlen : bitLen (window x) = 64 := by have := bitLen_window_add x; omega
    have hpow : 2 ^ (fmt.emax + 1) = 2 ^ 64 * 2 ^ windowExp x := by rw [← pow_add]; congr 1; omega
    have hhalf : 2 ^ (fmt.emax - fmt.precision) = 2 ^ (64 - fmt.precision - 1) * 2 ^ windowExp x := by
      rw [← pow_add]; congr 1; omega
    have hround := two_pow_bitLen_le_rne_iff (w := window x) (p := fmt.precision) fmt.precision_pos (by omega)
    rw [hwlen] at hround
    rw [scaledWindow, hpow, Nat.mul_le_mul_right_iff (by positivity), hround, hhalf, ← Nat.sub_mul, window,
      Nat.le_div_iff_mul_le (by positivity)]
  · have hge : 2 ^ (fmt.emax + 1) ≤ 2 ^ (bitLen x - 1) := Nat.pow_le_pow_right two_pos (by omega)
    exact iff_of_true (hge.trans hVlow) ((Nat.sub_le _ _).trans (hge.trans hlow))

/-- Settles O54: V is 0 for X = 0, and reaches 2^(emax+1) where X reaches the threshold. -/
theorem outboundOverflowThreshold : Obligations.OutboundOverflowThreshold := by
  intro X fmt hmem
  have hfmt := outbound_of_mem hmem
  rw [hfmt.convertOutbound_eq_infinity_iff]
  by_cases hX : X = 0
  · have hsmall : 2 ^ (fmt.emax - fmt.precision) < 2 ^ (fmt.emax + 1) := Nat.pow_lt_pow_right one_lt_two (by omega)
    subst hX
    rw [fmt.scaledWindow_zero]
    exact iff_of_false (by simp) (by omega)
  · exact hfmt.scaledWindow_overflow_iff hX

end Sys2Proof.Machine
end

section
/-! # U2F64 and U2F32 round a value of at most 64 bits correctly (42_fixed_to_float.md R180) -/

namespace Sys2Proof.Machine

/-- For a value of at most 64 bits, V is its rounding to p bits, and is not too large. -/
theorem Format.Outbound.scaledWindow_narrow {fmt : Format} (hfmt : fmt.Outbound) {x : Nat} (hlt : x < 2 ^ 64) :
    fmt.scaledWindow x = rne fmt.precision x ∧ fmt.scaledWindow x < 2 ^ (fmt.emax + 1) := by
  obtain ⟨hexp, hw⟩ := window_narrow hlt
  refine ⟨by rw [scaledWindow, hexp, hw, pow_zero, mul_one], ?_⟩
  by_cases hx : x = 0
  · rw [hx, scaledWindow_zero]
    positivity
  · have hlen := (bitLen_le_iff x 64).2 hlt
    have hemax := hfmt.emax_ge
    exact (fmt.scaledWindow_bounds hx).2.trans_lt (Nat.pow_lt_pow_right one_lt_two (by omega))

theorem Format.Outbound.mantissa_lt {fmt : Format} (hfmt : fmt.Outbound) (y : Nat) : fmt.mantissa y < 2 ^ fmt.precision := by
  have hfrac : fmt.fraction y < 2 ^ fmt.fracBits := by
    have := bitsOf_lt y (fmt.fracBits - 1) 0
    rwa [Nat.sub_zero, Nat.sub_add_cancel hfmt.fracBits_pos] at this
  rw [precision, pow_succ, mantissa]
  split <;> omega

/-- The patterns around a value of p + s bits lie on the multiples of 2^s, or half of 2^s below the value at least. -/
theorem Format.Outbound.magnitude_multiple_or_below {fmt : Format} (hfmt : fmt.Outbound) (y s : Nat) :
    (∃ c : Nat, fmt.magnitude y = (c * 2 ^ s : Nat)) ∨
      2 * fmt.magnitude y + 2 ^ s ≤ (2 ^ (fmt.precision + s) : Nat) := by
  rcases le_or_gt (s : Int) (fmt.scale y) with hscale | hscale
  · obtain ⟨d, hd⟩ := Int.le.dest hscale
    refine .inl ⟨fmt.mantissa y * 2 ^ d, ?_⟩
    rw [magnitude, ← hd, zpow_add₀ two_ne_zero, zpow_natCast, zpow_natCast]
    push_cast
    ring
  · refine .inr ?_
    have hmant : (fmt.mantissa y : ℚ) + 1 ≤ 2 ^ fmt.precision := by exact_mod_cast hfmt.mantissa_lt y
    have hpow : 2 * (2 : ℚ) ^ fmt.scale y ≤ 2 ^ s := by
      rw [← zpow_one_add₀ two_ne_zero, ← zpow_natCast]
      exact zpow_le_zpow_right₀ one_le_two (by omega)
    calc 2 * fmt.magnitude y + 2 ^ s = fmt.mantissa y * (2 * (2 : ℚ) ^ fmt.scale y) + 2 ^ s := by rw [magnitude]; ring
      _ ≤ fmt.mantissa y * 2 ^ s + 2 ^ s := by gcongr
      _ = (fmt.mantissa y + 1) * 2 ^ s := by ring
      _ ≤ 2 ^ fmt.precision * 2 ^ s := by gcongr
      _ = (2 ^ (fmt.precision + s) : Nat) := by push_cast; rw [pow_add]

/-- Where x has more than p bits, every pattern's magnitude is the rounding of x or at least half of the discarded power away
from x. -/
theorem Format.Outbound.magnitude_eq_rne_or_far {fmt : Format} (hfmt : fmt.Outbound) {x : Nat} (hx : fmt.precision < bitLen x)
    (y : Nat) : fmt.magnitude y = rne fmt.precision x ∨
      (2 : ℚ) ^ (bitLen x - fmt.precision) ≤ 2 * |fmt.magnitude y - x| := by
  obtain ⟨q, hq, -, -, hup, hdown, -⟩ := rne_inexact fmt.precision_pos hx
  have hpow : 2 ^ bitLen x ≤ 2 * x := by
    have hlow := two_pow_bitLen_le (v := x) (by rintro rfl; simp at hx)
    rw [← Nat.sub_add_cancel (Nat.one_le_of_lt hx), pow_succ']
    exact Nat.mul_le_mul_left 2 hlow
  generalize hs : bitLen x - fmt.precision = s at hq hup hdown ⊢
  have hup' : 2 * (rne fmt.precision x : ℚ) ≤ 2 * x + 2 ^ s := by exact_mod_cast hup
  have hdown' : 2 * (x : ℚ) ≤ 2 * rne fmt.precision x + 2 ^ s := by exact_mod_cast hdown
  rcases hfmt.magnitude_multiple_or_below y s with ⟨c, hc⟩ | hbelow
  · rcases lt_trichotomy c q with hlt | rfl | hgt
    · have hnext : fmt.magnitude y + 2 ^ s ≤ rne fmt.precision x := by
        rw [hc, hq]
        exact_mod_cast (Nat.succ_mul c _).symm.trans_le (Nat.mul_le_mul_right _ hlt)
      have := neg_le_abs (fmt.magnitude y - x)
      exact .inr (by linarith)
    · exact .inl (by rw [hc, hq])
    · have hnext : (rne fmt.precision x : ℚ) + 2 ^ s ≤ fmt.magnitude y := by
        rw [hc, hq]
        exact_mod_cast (Nat.succ_mul q _).symm.trans_le (Nat.mul_le_mul_right _ hgt)
      have := le_abs_self (fmt.magnitude y - x)
      exact .inr (by linarith)
  · have hx2 : ((2 ^ (fmt.precision + s) : Nat) : ℚ) ≤ 2 * x := by
      rw [← hs, Nat.add_sub_cancel' hx.le]
      exact_mod_cast hpow
    have := neg_le_abs (fmt.magnitude y - x)
    exact .inr (by linarith)

/-- The rounding of x is at most half of the discarded power away from x, and where it is exactly half away, the mantissa of its
pattern is even. -/
theorem Format.Outbound.rne_near {fmt : Format} (hfmt : fmt.Outbound) {x : Nat} (hx : fmt.precision < bitLen x)
    (hlt : rne fmt.precision x < 2 ^ (fmt.emax + 1)) :
    2 * |(rne fmt.precision x : ℚ) - x| ≤ 2 ^ (bitLen x - fmt.precision) ∧
      (2 * |(rne fmt.precision x : ℚ) - x| = 2 ^ (bitLen x - fmt.precision) →
        fmt.mantissa (fmt.encodeFinite (rne fmt.precision x)) % 2 = 0) := by
  obtain ⟨m, k, hmk, hlo, hhi, hup, hdown, htie⟩ := rne_normalized hfmt.fracBits_pos hx
  rw [← precision] at hmk hup hdown htie
  generalize bitLen x - fmt.precision = s at *
  have hup' : 2 * (rne fmt.precision x : ℚ) ≤ 2 * x + 2 ^ s := by exact_mod_cast hup
  have hdown' : 2 * (x : ℚ) ≤ 2 * rne fmt.precision x + 2 ^ s := by exact_mod_cast hdown
  constructor
  · rw [← le_div_iff₀' two_pos, abs_le]
    constructor <;> linarith
  · intro hhalf
    have heven : m % 2 = 0 := by
      refine htie ?_
      rcases abs_choice ((rne fmt.precision x : ℚ) - x) with habs | habs <;> rw [habs] at hhalf
      · refine .inl ?_
        have : 2 * (rne fmt.precision x : ℚ) = 2 * x + 2 ^ s := by linarith
        exact_mod_cast this
      · refine .inr ?_
        have : 2 * (x : ℚ) = 2 * rne fmt.precision x + 2 ^ s := by linarith
        exact_mod_cast this
    rw [hmk] at hlt ⊢
    rwa [hfmt.mantissa_encodeFinite hlo hhi hlt]

/-- Settles O55: a value of at most p bits converts exactly; of the magnitudes around a wider one none but its rounding is nearer
than half of the discarded power. -/
theorem outboundNarrowIsCorrectlyRounded : Obligations.OutboundNarrowIsCorrectlyRounded := by
  intro X y fmt hmem hX _
  have hfmt := outbound_of_mem hmem
  obtain ⟨hV, hlt⟩ := hfmt.scaledWindow_narrow hX
  refine ⟨hfmt.finite_convertOutbound hlt, ?_⟩
  rw [hfmt.magnitude_convertOutbound hlt, hV]
  rcases le_or_gt (bitLen X) fmt.precision with hfits | hwide
  · rw [rne_exact hfits, sub_self, abs_zero]
    exact ⟨abs_nonneg _, fun heq => .inl (sub_eq_zero.1 (abs_eq_zero.1 heq.symm))⟩
  · have hX0 : X ≠ 0 := by rintro rfl; simp at hwide
    obtain ⟨hnear, htie⟩ := hfmt.rne_near hwide (hV ▸ hlt)
    rcases hfmt.magnitude_eq_rne_or_far hwide y with hsame | hfar
    · exact ⟨by rw [hsame], fun _ => .inl hsame⟩
    · refine ⟨by linarith, fun heq => .inr ?_⟩
      rw [convertOutbound_finite hX0 hlt, hV]
      exact htie (le_antisymm hnear (heq ▸ hfar))

end Sys2Proof.Machine
end

section
/-! # Completions by their outcome code, and the idle block (60_exceptions.md R200 to R212, R226) -/

namespace Sys2Proof.Machine

/-! ## Where a completion stops (R200, R209, 70_reset_and_hazards.md R232) -/

/-- A completion answers a next state, or it has read an unwritten limb that is an operand of its command: it is never refused,
and no internal bound of Algorithm D is broken. -/
theorem complete_next_or_unwritten (f : InFlight) (s : State) :
    (∃ t, complete f s = .next t) ∨
      ∃ i buf j, decode f.word = .ok i ∧ complete f s = .fault (.unwrittenLimb buf j) ∧ s.operands.reads i buf j ∧
        Limbs.read (s.operands.buffer buf) j = none := by
  rcases complete_cases f s with ⟨i, hd, hi⟩ | ⟨_, _, he⟩
  · rw [hi]
    rcases exec_cases i s with ⟨_, _, he⟩ | ⟨_, _, _, _, he, _⟩ | ⟨_, _, he⟩ | ⟨_, _, _, he, _⟩ | ⟨_, _, he⟩ |
      ⟨buf, j, he, hreads, hnone⟩
    case inr.inr.inr.inr.inr => exact .inr ⟨i, buf, j, hd, he, hreads, hnone⟩
    all_goals exact .inl ⟨_, he⟩
  · exact .inl ⟨_, he⟩

/-- Settles O26: a completion that answers has ended with `finish`, and each one answers or faults. -/
theorem everyCompletionEndsTheCommand : Obligations.EveryCompletionEndsTheCommand := by
  intro f s
  refine ⟨fun t h => ?_, fun r h => ?_⟩
  · obtain ⟨code, hstatus, _, _, hinflight⟩ := complete_next h
    rw [hstatus]
    exact ⟨rfl, rfl, rfl, hinflight⟩
  · rcases complete_next_or_unwritten f s with ⟨_, he⟩ | ⟨_, _, _, _, he, _⟩ <;> cases he.symm.trans h

/-- Settles O27: a completion that does not answer has read an unwritten operand limb. -/
theorem completionStopsOnlyOnUnwrittenLimbs : Obligations.CompletionStopsOnlyOnUnwrittenLimbs := by
  intro f s φ h
  rcases complete_next_or_unwritten f s with ⟨_, he⟩ | ⟨i, buf, j, hd, he, hreads, hnone⟩ <;> cases he.symm.trans h
  exact ⟨i, buf, j, hd, rfl, hreads, hnone⟩

/-! ## What a completion leaves, by its code (R202 to R207, R211, R212) -/

/-- The codes of the fatal class (R211). -/
def ErrCode.Fatal (c : ErrCode) : Prop := c = .divByZero ∨ c = .precond ∨ c = .illegal

/-- The recoverable codes (R205 to R207, R212). -/
def ErrCode.Recoverable (c : ErrCode) : Prop := c = .valueTooLarge ∨ c = .valueNegative ∨ c = .notANumber

theorem ErrCode.not_recoverable_of_fatal {c : ErrCode} (h : c.Fatal) : ¬ c.Recoverable := by
  rcases h with rfl | rfl | rfl <;> simp [Recoverable]

/-- A policy that reports another code than NONE is `.TRY`, which then reports the width in EWIDTH (R155, R212). -/
theorem project_recoverable (pol : Policy) (width : Nat) (kp : Kind × Nat) :
    (project pol width kp).code = .none ∨
      (pol = .try_ ∧ (project pol width kp).ewidth = width ∧ (project pol width kp).code.Recoverable) := by
  obtain ⟨kind, payload⟩ := kp
  cases pol with
  | sat | wrap => exact .inl rfl
  | try_ =>
    cases kind with
    | ok => exact .inl rfl
    | valueTooLarge => exact .inr ⟨rfl, rfl, .inl rfl⟩
    | valueNegative => exact .inr ⟨rfl, rfl, .inr (.inl rfl)⟩
    | notANumber => exact .inr ⟨rfl, rfl, .inr (.inr rfl)⟩

/-- The F2U commands under `.TRY` are two (30_encoding.md R83). -/
theorem Instr.eq_f2uTry {i : Instr} (hop : i.opcode = .f2u64 ∨ i.opcode = .f2u32) (hpol : i.policy = .try_) :
    i = .f2u64Try ∨ i = .f2u32Try := by
  cases i <;> simp_all [Instr.opcode, Instr.policy]

/-- What a completion leaves, by the class of its code: NONE; a fatal code, with `finish` of that code and nothing else; or a
recoverable one, with the results of a `.TRY` command and BITS in EWIDTH. -/
theorem complete_by_code {f : InFlight} {s t : State} (h : complete f s = .next t) :
    t.status.err = .none ∨
    (t.status.err.Fatal ∧ t = s.finish t.status.err) ∨
    (t.status.err.Recoverable ∧ (decode f.word = .ok .f2u64Try ∨ decode f.word = .ok .f2u32Try) ∧
      ∃ r : Projected, t = s.finishInbound s.operands.bits.toNat r ∧ r.ewidth = s.operands.bits.toNat) := by
  rcases complete_cases f s with ⟨i, hd, hi⟩ | ⟨_, _, he⟩
  · rw [hi] at h
    rcases exec_cases i s with ⟨c, hc, he⟩ | ⟨_, _, _, _, he, _⟩ | ⟨_, _, he⟩ | ⟨hop, hw, _⟩ | ⟨_, _, he⟩ | ⟨_, _, he, _⟩
    case inr.inr.inr.inl =>
      obtain ⟨fmt, x, he⟩ := exec_inbound hop s
      cases (he.trans (convertInbound_inRange hw fmt x i.policy)).symm.trans h
      rcases project_recoverable i.policy s.operands.bits.toNat (classifyAndRound fmt x s.operands.bits.toNat) with
        hnone | ⟨hpol, hwidth, hcode⟩
      · exact .inl hnone
      · refine .inr (.inr ⟨hcode, ?_, _, rfl, hwidth⟩)
        rcases Instr.eq_f2uTry hop hpol with rfl | rfl
        · exact .inl hd
        · exact .inr hd
    all_goals cases he.symm.trans h
    case inl => exact .inr (.inl ⟨hc.elim (fun e => .inr (.inl e)) .inl, rfl⟩)
    all_goals exact .inl rfl
  · cases he.symm.trans h
    exact .inr (.inl ⟨.inr (.inr rfl), rfl⟩)

/-- Settles O28: with a fatal code a completion is `finish` of that code. -/
theorem fatalOutcomesChangeOnlyStatus : Obligations.FatalOutcomesChangeOnlyStatus := by
  intro f s t h hfatal
  rcases complete_by_code h with hnone | ⟨_, ht⟩ | ⟨hrecoverable, _⟩
  · simp [hnone] at hfatal
  · exact ht
  · exact absurd hrecoverable (ErrCode.not_recoverable_of_fatal hfatal)

/-- Settles O29: with a recoverable code a completion has written the results of a `.TRY` command, which are L limbs of A and
EWIDTH. -/
theorem recoverableOutcomesCarryThePayload : Obligations.RecoverableOutcomesCarryThePayload := by
  intro f s t h hrecoverable
  rcases complete_by_code h with hnone | ⟨hfatal, _⟩ | ⟨_, hd, r, rfl, hwidth⟩
  · simp [hnone] at hrecoverable
  · exact absurd hrecoverable (ErrCode.not_recoverable_of_fatal hfatal)
  · refine ⟨hd, ?_, fun i hi => ?_, sameButResults_finishInbound s _ r, rfl, rfl, rfl, rfl⟩
    · simp [State.finishInbound, hwidth]
    · exact Limbs.read_writeFrom_above _ _ (by simpa using hi)

/-! ## Illegal words (R204) -/

/-- The completion of a word that decodes to no command is `finish(ILLEGAL)`. -/
theorem complete_of_decode_error {f : InFlight} {e : Illegal} (h : decode f.word = .error e) (s : State) :
    complete f s = .next (s.finish .illegal) := by
  simp [complete, h]

/-- Settles O7: the write to CMD is an issue whatever the value, and the completion of an illegal word is `finish(ILLEGAL)`. -/
theorem illegalWordIsIssuedAndFinishes : Obligations.IllegalWordIsIssuedAndFinishes := by
  intro s s0 v e hrst hb hd hturn
  obtain ⟨issues, _⟩ := cmdPortIssues s s0 v hrst
  refine ⟨issues hturn hb, fun t t0 o ht => ?_⟩
  rw [blockTurn_step ht, complete_of_decode_error (f := ⟨v, o⟩) hd, ← (sameBlock_of_blockTurn ht).status]
  rfl

/-! ## The idle block (R226) -/

/-- A host whose program has ended makes no move (log entry 15). -/
theorem hostMove_ended {s : State} (h : s.hostOps = []) : hostMove s = .next s := by
  simp [hostMove, h]

/-- Settles O6: with nothing in flight the move is the host's, and its program has ended. -/
theorem idleBlockKeepsAllState : Obligations.IdleBlockKeepsAllState := by
  intro s hf hops
  rw [step, nextMove, hf]
  exact hostMove_ended hops

end Sys2Proof.Machine
end

section
/-! # Reset, the port while BUSY = 1, and the operands captured at the issue (70_reset_and_hazards.md R230, R231, R240 to R242) -/

namespace Sys2Proof.Machine

/-! ## The snapshot and the live registers (R242) -/

/-- A completion depends on INFLIGHT through the operands it gives alone: what it answers has INFLIGHT cleared. -/
theorem exec_of_operands_eq {s : State} {x : Option InFlight} (h : ({ s with inflight := x } : State).operands = s.operands)
    (i : Instr) : exec i { s with inflight := x } = exec i s := by
  cases i with
  | div => simp only [exec, execDiv, h]; rfl
  | est3x2 => simp only [exec, execEst3x2, h]; rfl
  | f2u64Try | f2u64Sat | f2u64Wrap => rw [exec_f2u64 rfl, exec_f2u64 rfl]; simp only [convertInbound, h]; rfl
  | f2u32Try | f2u32Sat | f2u32Wrap => rw [exec_f2u32 rfl, exec_f2u32 rfl]; simp only [convertInbound, h]; rfl
  | u2f64 | u2f32 => simp only [exec, execU2f64, execU2f32, convertFixed, h]; rfl

/-- Settles O12: under the invariant the operands are the live registers whether a command is in flight or not. -/
theorem snapshotIsTheLiveOperands : Obligations.SnapshotIsTheLiveOperands := by
  intro s i h
  exact (exec_of_operands_eq (x := none) h.operands_eq_live.symm i).symm

/-! ## Reset (R230, R231) -/

/-- While reset is asserted a read, a write or a poll is consumed, and only the data returned changes (log entry 10). -/
theorem ignoredTransaction_access (s : State) (rest : List HostOp) {op : HostOp}
    (h : (∃ addr size, op = .rd addr size) ∨ (∃ addr bytes, op = .wr addr bytes) ∨ op = .wait) :
    ∃ data, ignoredTransaction s rest op = .next { s.setHostOps rest with rdata := data } := by
  rcases h with ⟨_, _, rfl⟩ | ⟨_, _, rfl⟩ | rfl
  · exact ⟨none, rfl⟩
  · exact ⟨s.rdata, rfl⟩
  · exact ⟨none, rfl⟩

/-- Settles O14: the step is the reset event, or an access that is ignored. -/
theorem resetEventAndHeldReset : Obligations.ResetEventAndHeldReset := by
  refine ⟨fun s s0 ht => ?_, fun s s0 op hrst ht hop => ?_⟩
  · have hs := sameBlock_of_hostTurn ht
    refine ⟨_, step_assertReset ht, assertReset_heldInReset s0, rfl, hs.params, rfl, ?_⟩
    exact congrArg (fun l => Except.ok (BitVec.ofNat 64 l)) hs.lmax
  · obtain ⟨s1, _, _, h0, he⟩ := hostTurn_step ht
    rw [he, if_pos hrst, h0]
    exact ignoredTransaction_access s1 s0.hostOps hop

/-! ## Host accesses while BUSY = 1 (R240, R241) -/

/-- The count of draws is the model's own and moves with an any-value read alone, not with the turn. -/
theorem hostTurn_draws {s s0 : State} {op : HostOp} (h : s.hostTurn op s0) : s0.draws = s.draws := by
  obtain ⟨_, _, ⟨_, rfl⟩ | ⟨_, _, _, _, rfl⟩⟩ := h <;> rfl

/-- While BUSY = 1 a read of a result register or a limb, unwritten or not, returns the next free value (R240). -/
theorem hostRead_draws {s : State} {r : Reg} (hb : s.status.busy = true) (hr : r.anyWhileBusy = true) :
    hostRead s r = .next s.drawReply := by
  simp [hostRead, hb, hr]

/-- Settles O17: a result register or a limb draws, and any other register's value is what its read returns. -/
theorem busyReadDrawsOrReturns : Obligations.BusyReadDrawsOrReturns := by
  intro s s0 r hrst hb hm ht
  rw [step_read hrst hm ht]
  have hs := sameBlock_of_hostTurn ht
  have hval := hs.regValue r
  have draws (hr : r.anyWhileBusy = true) :
      hostRead s0 r = .next { s0 with rdata := some (byteLanes (Config.busyRead s.draws)), draws := s.draws + 1 } := by
    rw [hostRead_draws (hs.status ▸ hb) hr, State.drawReply, hostTurn_draws ht]
  cases r with
  | ctrl => exact hostRead_value (.inr rfl) (hval.trans (regValue_ctrl s))
  | fres | deff | ewidth | est | limb => exact draws rfl
  | _ => exact hostRead_value (.inr rfl) hval

/-- Settles O19: writes to CMD, the operand registers and the limbs are dropped, and each other register takes its own write. -/
theorem busyWriteIsDropped : Obligations.BusyWriteIsDropped := by
  intro s s0 r v hrst hb hm ht
  rw [step_write hrst hm ht]
  have hs := sameBlock_of_hostTurn ht
  have drops (hr : r.DroppedWhileBusy) : hostWrite s0 r v = { s0 with status := { s.status with werr := true } } := by
    rw [hostWrite_dropped (hs.status ▸ hb) hr, State.drop, Status.dropped, hs.status]
  cases r with
  | cmd | nlen | dlen | bits | fin | limb => exact congrArg _ (drops (by simp [Reg.DroppedWhileBusy]))
  | status => simp [hostWrite, State.acknowledge, Status.acknowledged, hs.status]
  | ctrl | cap | fres | deff | ewidth | est => rfl

end Sys2Proof.Machine
end

section
/-! # A command in flight completes (20_memory.md R67, 70_reset_and_hazards.md R244; log entry 3) -/

namespace Sys2Proof.Machine

/-! ## Runs up to the turn of the block -/

/-- The number of turns the host is given before the block's. -/
def leadingHostTurns (ts : List Agent) : Nat := (ts.takeWhile (· == .host)).length

@[simp] theorem leadingHostTurns_nil : leadingHostTurns [] = 0 := rfl

@[simp] theorem leadingHostTurns_block (ts : List Agent) : leadingHostTurns (.block :: ts) = 0 := rfl

@[simp] theorem leadingHostTurns_host (ts : List Agent) : leadingHostTurns (.host :: ts) = leadingHostTurns ts + 1 := rfl

/-- Where every turn of the host is a step that keeps I, and I has f in flight, f completes right after the turns the host is
given, on a state of I with one more turn used. -/
theorem run_completes {f : InFlight} {I : State → Prop} (inflight : ∀ s, I s → s.inflight = some f)
    (hostStep : ∀ s ts, I s → s.turns = .host :: ts → ∃ t, step s = .next t ∧ t.turns = ts ∧ I t)
    {s : State} (hs : I s) : ∃ t, I t ∧ Host.Core.run Sys2Proof.core (leadingHostTurns s.turns + 1) s =
      complete f (t.setTurns (s.turns.drop (leadingHostTurns s.turns + 1))) := by
  induction hts : s.turns generalizing s with
  | nil =>
    refine ⟨s, hs, ?_⟩
    rw [leadingHostTurns_nil, run_one, blockTurn_step ⟨inflight s hs, .inl ⟨hts, rfl⟩⟩, List.drop_nil, ← hts]
    rfl
  | cons agent ts ih =>
    cases agent with
    | block =>
      refine ⟨s, hs, ?_⟩
      rw [leadingHostTurns_block, run_one]
      exact blockTurn_step ⟨inflight s hs, .inr ⟨ts, hts, rfl⟩⟩
    | host =>
      obtain ⟨t, hstep, ht, hI⟩ := hostStep s ts hs hts
      rw [leadingHostTurns_host, run_next hstep]
      exact ih hI ht

/-- A step at a turn of the host while a command is in flight is the host's move. -/
theorem step_of_turns_host {s : State} {f : InFlight} {ts : List Agent} (hf : s.inflight = some f)
    (hts : s.turns = .host :: ts) : step s = hostMove (s.setTurns ts) := by
  simp only [step, nextMove, hf, hts]

/-! ## What a legal move of the host keeps while BUSY = 1 (R241) -/

/-- t has the command in flight, BUSY, the operands, the parameters and the turns of s. -/
structure SameCommand (s t : State) : Prop where
  inflight : t.inflight = s.inflight
  busy : t.status.busy = s.status.busy
  live : t.live = s.live
  params : t.params = s.params
  turns : t.turns = s.turns

theorem SameCommand.trans {s t u : State} (h : SameCommand s t) (h' : SameCommand t u) : SameCommand s u :=
  ⟨h'.inflight.trans h.inflight, h'.busy.trans h.busy, h'.live.trans h.live, h'.params.trans h.params,
    h'.turns.trans h.turns⟩

theorem SameBlock.sameCommand {s t : State} (h : SameBlock s t) (hts : t.turns = s.turns) : SameCommand s t :=
  ⟨h.inflight, by rw [h.status], h.live, h.params, hts⟩

theorem HostWritten.sameCommand {s t : State} {r : Reg} {v : Word} (h : HostWritten s v r t)
    (hb : s.status.busy = true) : SameCommand s t := by
  obtain ⟨hf, hlive⟩ := h.keeps_inflight hb
  cases h with
  | ctrl | status | dropped | ignored => exact ⟨hf, rfl, hlive, rfl, rfl⟩
  | issued hidle | nlen hidle | dlen hidle | bits hidle | fin hidle | limb _ _ hidle => simp [hb] at hidle

theorem HostWritten.hostOps_eq {s t : State} {r : Reg} {v : Word} (h : HostWritten s v r t) : t.hostOps = s.hostOps := by
  cases h <;> simp

/-- A move of the host goes on to the rest of its program or waits. -/
theorem HostMoved.hostOps_eq {s t : State} {rest : List HostOp} {op : HostOp} (h : HostMoved s rest op t) :
    t.hostOps = rest ∨ t.hostOps = s.hostOps := by
  cases h with
  | ignoredRead | ignoredWrite | ignoredWait | assertReset | releaseReset => exact .inl rfl
  | waitIrq => unfold pollIrq; split <;> simp
  | wait => rw [pollStatus_eq]; cases s.status.busy <;> simp
  | read r t _ _ hr => obtain ⟨_, _, rfl⟩ := hostRead_next hr; exact .inl rfl
  | write r v => exact .inl (hostWrite_written _ r v).hostOps_eq

/-- While BUSY = 1 no move of the host but a reset touches the command in flight. -/
theorem HostMoved.sameCommand {s t : State} {rest : List HostOp} {op : HostOp} (h : HostMoved s rest op t)
    (hb : s.status.busy = true) (hop : op ≠ .assertReset) : SameCommand s t := by
  cases h with
  | ignoredRead | ignoredWrite | ignoredWait | releaseReset => exact ⟨rfl, rfl, rfl, rfl, rfl⟩
  | assertReset => exact absurd rfl hop
  | waitIrq =>
    refine (sameBlock_pollIrq s rest).sameCommand ?_
    unfold pollIrq
    split <;> rfl
  | wait => exact (sameBlock_pollStatus s rest).sameCommand (by rw [pollStatus_eq])
  | read r t _ _ hr => obtain ⟨_, _, rfl⟩ := hostRead_next hr; exact ⟨rfl, rfl, rfl, rfl, rfl⟩
  | write r v =>
    have hset : SameCommand s (s.setHostOps rest) := ⟨rfl, rfl, rfl, rfl, rfl⟩
    exact hset.trans ((hostWrite_written _ r v).sameCommand hb)

/-! ## A legal move of the host answers (20_memory.md R60, R62, 70_reset_and_hazards.md R240) -/

/-- While BUSY = 1 no read of a register faults: an unwritten limb draws (log entry 8). -/
theorem hostRead_busy_answers {s : State} (hb : s.status.busy = true) (r : Reg) : ∃ t, hostRead s r = .next t := by
  rcases hostRead_cases s r with ⟨_, _, h⟩ | ⟨_, _, h⟩ | ⟨f, hf, h⟩
  · exact ⟨_, h⟩
  · exact ⟨_, h⟩
  · obtain ⟨buf, i, rfl, _⟩ := regValue_error hf
    simp [hostRead, hb, Reg.anyWhileBusy] at h

theorem LegalNoReset.ne_assertReset {p : Params} {op : HostOp} (h : LegalNoReset p op) : op ≠ .assertReset := by
  rcases h with rfl | rfl | rfl | ⟨r, _, rfl | ⟨v, rfl⟩⟩ <;> simp [rdReg, wrReg]

/-- While BUSY = 1 a legal transaction other than a reset faults neither with reset released nor while it is held. -/
theorem hostMove_legal_answers {s : State} (hb : s.status.busy = true)
    (hlegal : ∀ op ∈ s.hostOps.head?, LegalNoReset s.params op) : ∃ t, hostMove s = .next t := by
  unfold hostMove
  cases hops : s.hostOps with
  | nil => exact ⟨s, rfl⟩
  | cons op rest =>
    have hop : LegalNoReset s.params op := hlegal op (by simp [hops])
    cases hrst : s.rst with
    | true => cases op <;> exact ⟨_, rfl⟩
    | false =>
      rcases hop with rfl | rfl | rfl | ⟨r, hm, rfl | ⟨v, rfl⟩⟩
      · exact ⟨_, rfl⟩
      · exact ⟨_, rfl⟩
      · exact ⟨_, rfl⟩
      · have hread := hostRead_busy_answers (s := s.setHostOps rest) hb r
        simpa [hostTransaction, rdReg, portRead, portTarget_reg s.params hm] using hread
      · simp [hostTransaction, wrReg, portWrite, portTarget_reg s.params hm]

/-- While BUSY = 1 a move of a host whose next transaction is legal keeps the command in flight, and the host's program stays or
loses its first transaction. -/
theorem hostMove_legal {s : State} (hb : s.status.busy = true)
    (hlegal : ∀ op ∈ s.hostOps.head?, LegalNoReset s.params op) :
    ∃ t, hostMove s = .next t ∧ SameCommand s t ∧ (t.hostOps = s.hostOps ∨ t.hostOps = s.hostOps.tail) := by
  obtain ⟨t, ht⟩ := hostMove_legal_answers hb hlegal
  refine ⟨t, ht, ?_⟩
  rcases hostMove_next ht with ⟨_, rfl⟩ | ⟨op, rest, hops, hm⟩
  · exact ⟨⟨rfl, rfl, rfl, rfl, rfl⟩, .inl rfl⟩
  · have hop : LegalNoReset s.params op := hlegal op (by simp [hops])
    refine ⟨hm.sameCommand hb hop.ne_assertReset, ?_⟩
    rw [hops, List.tail_cons, ← hops]
    exact hm.hostOps_eq.symm

/-! ## The completion (R244) -/

/-- t has f in flight on the operands and with the parameters of s, and what the host still performs before the block's turn is
legal. -/
structure AwaitsCompletion (f : InFlight) (s t : State) : Prop where
  inflight : t.inflight = some f
  busy : t.status.busy = true
  live : t.live = s.live
  params : t.params = s.params
  legal : ∀ op ∈ t.hostOps.take (leadingHostTurns t.turns), LegalNoReset t.params op

/-- Each turn of the host leaves f awaiting its completion: the transactions it still performs are among those it had to. -/
theorem AwaitsCompletion.hostStep {f : InFlight} {s t : State} {ts : List Agent} (h : AwaitsCompletion f s t)
    (hts : t.turns = .host :: ts) : ∃ u, step t = .next u ∧ u.turns = ts ∧ AwaitsCompletion f s u := by
  have hlegal := h.legal
  rw [hts, leadingHostTurns_host] at hlegal
  have hhead : ∀ op ∈ (t.setTurns ts).hostOps.head?, LegalNoReset (t.setTurns ts).params op := fun op hop =>
    hlegal op (List.mem_of_mem_head? (by rwa [List.head?_take, if_neg (Nat.succ_ne_zero _)]))
  obtain ⟨u, hmove, hu, hrest⟩ := hostMove_legal (s := t.setTurns ts) h.busy hhead
  refine ⟨u, (step_of_turns_host h.inflight hts).trans hmove, hu.turns, hu.inflight.trans h.inflight, hu.busy.trans h.busy,
    hu.live.trans h.live, hu.params.trans h.params, fun op hop => ?_⟩
  rw [hu.params]
  refine hlegal op ?_
  rw [hu.turns, State.setTurns_turns] at hop
  rcases hrest with hsame | htail
  · rw [hsame] at hop
    exact List.take_subset_take_left _ (Nat.le_succ _) hop
  · rw [htail] at hop
    exact List.mem_of_mem_tail (by rwa [List.tail_take_eq_take_tail])

/-- Settles O8: a host whose program has ended uses its turns up, and one with a legal program leaves the command awaiting its
completion. -/
theorem commandInFlightCompletes : Obligations.CommandInFlightCompletes := by
  intro s f hf k
  constructor
  · intro hops
    have hostStep (t : State) (ts : List Agent) (ht : ∃ us, t = s.setTurns us) (hts : t.turns = .host :: ts) :
        ∃ u, step t = .next u ∧ u.turns = ts ∧ ∃ us, u = s.setTurns us := by
      obtain ⟨us, rfl⟩ := ht
      exact ⟨s.setTurns ts, (step_of_turns_host (s := s.setTurns us) hf hts).trans (hostMove_ended hops), rfl, ts, rfl⟩
    obtain ⟨_, ⟨_, rfl⟩, hrun⟩ := run_completes (f := f) (fun t ⟨_, ht⟩ => ht ▸ hf) hostStep ⟨s.turns, rfl⟩
    exact hrun
  · intro hb hlegal
    obtain ⟨t, ht, hrun⟩ := run_completes (I := AwaitsCompletion f s) (fun _ h => h.inflight) (fun _ _ h => h.hostStep)
      ⟨hf, hb, rfl, rfl, hlegal⟩
    exact ⟨_, hrun, ht.inflight, ht.busy, ht.live, ht.params, rfl⟩

end Sys2Proof.Machine
end

section
/-! # The commands that read limbs fault on an unwritten one (70_reset_and_hazards.md R232) -/

namespace Sys2Proof.Machine

/-- A command that faults has read an unwritten limb of its operands: nothing else makes a command fault. -/
theorem stopsUnwritten_of_fault {s : State} {i : Instr} (h : ∃ φ, exec i s = .fault φ) : s.stopsUnwritten i := by
  obtain ⟨φ, h⟩ := h
  rcases exec_cases i s with ⟨_, _, he⟩ | ⟨_, _, _, _, he, _⟩ | ⟨_, _, he⟩ |
    ⟨_, _, _, he, _⟩ | ⟨_, _, he⟩ | hstops
  case inr.inr.inr.inr.inr => exact hstops
  all_goals cases he.symm.trans h

/-- Reading a limb faults where the limb is unwritten or what goes on with its value faults. -/
theorem withLimb_faults {buf : Buffer} {l : Limbs} {i : Nat} {go : Nat → Result}
    (h : ∀ v, Limbs.read l i = some v → ∃ φ, go v.toNat = .fault φ) : ∃ φ, withLimb buf l i go = .fault φ := by
  rcases withLimb_cases (buf := buf) l i go with ⟨v, hv, he⟩ | ⟨_, he⟩
  · rw [he]
    exact h v hv
  · exact ⟨_, he⟩

theorem withLimbs_faults {l : Limbs} {k : Nat} (h : ¬ l.Written k) (buf : Buffer) (go : List Nat → Result) :
    ∃ φ, withLimbs buf l 0 k go = .fault φ := by
  rcases withLimbs_cases (buf := buf) l k go with ⟨hw, _⟩ | ⟨_, _, _, he⟩
  · exact absurd hw h
  · exact ⟨_, he⟩

/-! ## DIV (40_division.md R102 to R104) -/

section Div
variable {s : State} {m : Nat} (hn : s.operands.nlen.toNat ≤ s.lmax) (hd : s.operands.dlen.toNat ≤ s.lmax)
include hn hd

/-- The trim reads all of B[0..DLEN-1]. -/
theorem execDiv_divisor_unwritten (hb : ¬ Limbs.Written s.operands.b s.operands.dlen.toNat) :
    ∃ φ, execDiv s = .fault φ := by
  simpa [execDiv, not_lt.2 hn, not_lt.2 hd] using withLimbs_faults hb .b _

variable (hb : Limbs.Written s.operands.b s.operands.dlen.toNat)
  (hm : IsEffLength (Limbs.values s.operands.b s.operands.dlen.toNat) m)
  (ha : ¬ Limbs.Written s.operands.a s.operands.nlen.toNat)
include hb hm ha

/-- The single-limb path reads all of A[0..NLEN-1]. -/
theorem execDiv_single_unwritten (h1 : m = 1) : ∃ φ, execDiv s = .fault φ := by
  rw [isEffLength_iff] at hm
  have hn0 : s.operands.nlen.toNat ≠ 0 := fun h => ha fun i hi => by omega
  simpa [execDiv, not_lt.2 hn, not_lt.2 hd, withLimbs_written hb, hm, h1, hn0] using withLimbs_faults ha .a _

/-- The multi-limb path reads the guard limb, and all of A[0..NLEN-1] where that is 0. -/
theorem execDiv_multi_unwritten (h2 : 2 ≤ m) (hlong : m + 2 ≤ s.operands.nlen.toNat)
    (hguard : Limbs.read s.operands.a (s.operands.nlen.toNat - 1) = none ∨
      Limbs.read s.operands.a (s.operands.nlen.toNat - 1) = some 0) :
    ∃ φ, execDiv s = .fault φ := by
  rw [isEffLength_iff] at hm
  have hm0 : m ≠ 0 := by omega
  have hm1 : m ≠ 1 := by omega
  rcases hguard with hg | hg
  · simpa [execDiv, not_lt.2 hn, not_lt.2 hd, withLimbs_written hb, hm, hm0, hm1, not_lt.2 hlong] using
      ⟨_, withLimb_unwritten hg _⟩
  · simpa [execDiv, not_lt.2 hn, not_lt.2 hd, withLimbs_written hb, hm, hm0, hm1, not_lt.2 hlong, withLimb_written hg] using
      withLimbs_faults ha .a _

end Div

/-! ## EST3X2 (R120) -/

/-- The check reads B[1] first. -/
theorem execEst3x2_b1_unwritten {s : State} (h : Limbs.read s.operands.b 1 = none) : ∃ φ, execEst3x2 s = .fault φ := by
  simp only [execEst3x2]
  exact ⟨_, withLimb_unwritten h _⟩

section Est3x2
variable {s : State} {d1 : Word} (hd1 : Limbs.read s.operands.b 1 = some d1) (hnorm : 2 ^ 63 ≤ d1.toNat)
include hd1 hnorm

/-- With B[1] normalized the check reads A[2], A[1] and B[0]. -/
theorem execEst3x2_window_unwritten (h : Limbs.read s.operands.a 2 = none ∨ Limbs.read s.operands.a 1 = none ∨
      Limbs.read s.operands.b 0 = none) : ∃ φ, execEst3x2 s = .fault φ := by
  simp only [execEst3x2, withLimb_written hd1, if_neg (not_lt.2 hnorm)]
  refine withLimb_faults fun n2 hn2 => withLimb_faults fun n1 hn1 => withLimb_faults fun d0 hd0 => ?_
  simp [hn2, hn1, hd0] at h

/-- With the check passed the estimator reads A[0]. -/
theorem execEst3x2_a0_unwritten {n2 n1 d0 : Word} (hn2 : Limbs.read s.operands.a 2 = some n2)
    (hn1 : Limbs.read s.operands.a 1 = some n1) (hd0 : Limbs.read s.operands.b 0 = some d0)
    (hle : n2.toNat * radix + n1.toNat ≤ d1.toNat * radix + d0.toNat) (h : Limbs.read s.operands.a 0 = none) :
    ∃ φ, execEst3x2 s = .fault φ := by
  simp only [execEst3x2, withLimb_written hd1, withLimb_written hn2, withLimb_written hn1, withLimb_written hd0,
    if_neg (not_lt.2 hnorm), if_neg (not_lt.2 hle)]
  exact ⟨_, withLimb_unwritten h _⟩

end Est3x2

/-! ## U2F64 and U2F32 (42_fixed_to_float.md R175, R177) -/

section Outbound
variable {s : State} (fmt : Format) (hw1 : 1 ≤ s.operands.bits.toNat) (hw : s.operands.bits.toNat ≤ 64 * s.lmax)
include hw1 hw

/-- The canonical check reads A[L-1]. -/
theorem convertFixed_top_unwritten (h : Limbs.read s.operands.a (limbCount s.operands.bits.toNat - 1) = none) :
    ∃ φ, convertFixed fmt s = .fault φ := by
  have hL : limbCount s.operands.bits.toNat ≠ 0 := by simp only [limbCount]; omega
  simp only [convertFixed, if_neg (not_lt.2 hw), if_neg hL]
  exact ⟨_, withLimb_unwritten h _⟩

/-- Past the canonical check the conversion reads all of A[0..L-1]. -/
theorem convertFixed_unwritten {top : Word}
    (htop : Limbs.read s.operands.a (limbCount s.operands.bits.toNat - 1) = some top)
    (hcanon : top.toNat < 2 ^ (s.operands.bits.toNat - 64 * (limbCount s.operands.bits.toNat - 1)))
    (h : ¬ Limbs.Written s.operands.a (limbCount s.operands.bits.toNat)) : ∃ φ, convertFixed fmt s = .fault φ := by
  have hL : limbCount s.operands.bits.toNat ≠ 0 := by simp only [limbCount]; omega
  simp only [convertFixed, if_neg (not_lt.2 hw), if_neg hL, withLimb_written htop, Nat.div_eq_of_lt hcanon,
    if_neg (not_not.2 rfl)]
  exact withLimbs_faults h .a _

end Outbound

theorem opcode_of_mem_u2f {i : Instr} (h : i ∈ [Instr.u2f64, .u2f32]) : i.opcode = .u2f64 ∨ i.opcode = .u2f32 := by
  simp only [List.mem_cons, List.not_mem_nil, or_false] at h
  rcases h with rfl | rfl <;> simp [Instr.opcode]

/-- Settles O57: each read that the checks let happen faults where its limb is unwritten, and a fault names an unwritten limb. -/
theorem readingAnUnwrittenLimbFaults : Obligations.ReadingAnUnwrittenLimbFaults := by
  intro s n d w A B
  refine ⟨fun hn hd => ⟨fun hb => ?_, fun m hb hm ha => ⟨fun h1 => ?_, fun h2 hlong hguard => ?_⟩⟩, fun h => ?_,
    fun d1 hd1 hnorm => ⟨fun h => ?_, fun n2 n1 d0 hn2 hn1 hd0 hle h => ?_⟩,
    fun i hi hw1 hw => ⟨fun h => ?_, fun top htop hcanon h => ?_⟩⟩
  · exact stopsUnwritten_of_fault (execDiv_divisor_unwritten hn hd hb)
  · exact stopsUnwritten_of_fault (execDiv_single_unwritten hn hd hb hm ha h1)
  · exact stopsUnwritten_of_fault (execDiv_multi_unwritten hn hd hb hm ha h2 hlong hguard)
  · exact stopsUnwritten_of_fault (execEst3x2_b1_unwritten h)
  · exact stopsUnwritten_of_fault (execEst3x2_window_unwritten hd1 hnorm h)
  · exact stopsUnwritten_of_fault (execEst3x2_a0_unwritten hd1 hnorm hn2 hn1 hd0 hle h)
  · obtain ⟨fmt, he⟩ := exec_outbound (opcode_of_mem_u2f hi) s
    exact stopsUnwritten_of_fault (he ▸ convertFixed_top_unwritten fmt hw1 hw h)
  · obtain ⟨fmt, he⟩ := exec_outbound (opcode_of_mem_u2f hi) s
    exact stopsUnwritten_of_fault (he ▸ convertFixed_unwritten fmt hw1 hw htop hcanon h)

end Sys2Proof.Machine
end
